-- ==== Sys2Proof/Word.lean ====
section
/-! DEFINITION. The fixed widths of the block's values (00_scope.md R9). -/

namespace Sys2Proof

/-- A byte, a unit id, a function code, a count field (R9). -/
abbrev Byte := BitVec 8

/-- A PDU field `u16`, a CRC value, a table address or word (R9). -/
abbrev U16 := BitVec 16

/-- A baud rate, an interval in microseconds, a receive timeout, a master address (R9). -/
abbrev U32 := BitVec 32

end Sys2Proof
end

