-- ==== Sys2Proof/Config.lean ====
section
/-! DEFINITION. The numeric literals of the spec under their names (00_scope.md R8, 93_implementation_defined.md section 2),
the parameters a model run fixes (R8, R188), and the one free value: what a vendor callback answers when the
state's list of host answers is empty. -/

namespace Sys2Proof

/-- The four Modbus tables (20_memory.md R49). -/
inductive TableId where
  | coils | discreteInputs | inputRegisters | holdingRegisters
  deriving DecidableEq, Repr, Inhabited

/-- A bit table or a register table (R49 item 4). -/
def TableId.isBits : TableId → Bool
  | .coils => true
  | .discreteInputs => true
  | .inputRegisters => false
  | .holdingRegisters => false

/-- The configured part of an I/O table (R8): its size and which capabilities the host gives it. -/
structure TableCfg where
  size : Nat
  hasGet : Bool
  hasSet : Bool
  deriving DecidableEq, Repr, Inhabited

/-- The parameters of R8. `N_INST` is the number of instances in State. -/
structure Params where
  dePresent : Bool
  txIrq : Bool
  supportFc06 : Bool
  coils : TableCfg
  discreteInputs : TableCfg
  inputRegisters : TableCfg
  holdingRegisters : TableCfg
  vendor : List Byte
  deriving DecidableEq, Repr, Inhabited

/-- `TABLE[t]` (R8). -/
def Params.table (p : Params) : TableId → TableCfg
  | .coils => p.coils
  | .discreteInputs => p.discreteInputs
  | .inputRegisters => p.inputRegisters
  | .holdingRegisters => p.holdingRegisters

/-- One element the host writes into one of its tables; for a bit table the value is its bit 0. -/
structure Poke where
  table : TableId
  addr : Nat
  value : U16
  deriving DecidableEq, Repr, Inhabited

/-- One answer of the host to a capability call (46_pdu_dispatch.md R152), in the source's own form "0 | exception":
`exc = 0` is `Ok`, any other byte X is `Exc(X)`. `values` are the elements a get answers, `rsp` the bytes a vendor
callback answers, and `effect` what the call does to the host's tables where that is not the reference effect. -/
structure HostAnswer where
  exc : Byte := 0
  values : List U16 := []
  rsp : List Byte := []
  effect : Option (List Poke) := none
  deriving DecidableEq, Repr, Inhabited

namespace Config

/-- "`MAX_PDU_SIZE`=253" (R8, 90_conflicts.md C1). -/
def maxPdu : Nat := 253

/-- `RXBUF_CAP = MAX_PDU + 2` (R8). -/
def rxbufCap : Nat := maxPdu + 2

/-- `CHAR_BITS`: "characters are 11 bits" (R8). -/
def charBits : Nat := 11

/-- 11 bits in microseconds at 1 baud (41_rtu_config.md R101). -/
def charTimeNumerator : Nat := charBits * 1000000

/-- Above this rate the character time is fixed (R102). -/
def fastBaudThreshold : Nat := 19200

/-- The fixed character time in microseconds (R102). -/
def fastCharUs : Nat := 500

/-- The Modbus preload (R8). -/
def crcPreload : U16 := 0xFFFF

/-- The reflected polynomial (R8). -/
def crcPoly : U16 := 0xA001

/-- The broadcast unit id (R8, R71). -/
def broadcastId : Byte := 0

/-- Bit 7 of a function code marks an exception (30_encoding.md R84). -/
def exceptionBit : Byte := 0x80

/-- The legal coil values of function code 0x05 (R77, R86). -/
def coilOn : U16 := 0xFF00

/-- See `coilOn`. -/
def coilOff : U16 := 0x0000

/-- Quantity maxima (R8); every minimum is 1. -/
def readBitsMax : Nat := 2000

/-- See `readBitsMax`. -/
def readRegsMax : Nat := 125

/-- See `readBitsMax`. -/
def writeCoilsMax : Nat := 1968

/-- See `readBitsMax`. -/
def writeRegsMax : Nat := 123

/-- See `readBitsMax`. -/
def rwWriteMax : Nat := 121

/-- See `readBitsMax`. -/
def rwReadMax : Nat := 125

/-- The loopback sub-function (R82). -/
def loopbackSub : U16 := 0x0000

/-- The slave cycle's receive timeout in ticks (70_reset_and_hazards.md R191). -/
def slaveTimeout : U32 := 5000

/-- What the `k`-th capability call answers when it is a vendor call and the state holds no answer for it: a free value
(93_implementation_defined.md U2, U23; notes/assumptions/12.md). Nothing constrains it. -/
opaque vendorAnswer : Nat → HostAnswer

/-- The parameters of State.reset: the set-up of 95_test_vectors.md section 6 and program P2.
DESIGN CHOICE: R8 makes them arguments of the model (notes/assumptions/13.md). -/
def resetParams : Params where
  dePresent := true
  txIrq := true
  supportFc06 := true
  coils := ⟨16, true, true⟩
  discreteInputs := ⟨8, true, false⟩
  inputRegisters := ⟨1, true, false⟩
  holdingRegisters := ⟨4, true, true⟩
  vendor := []

/-- `N_INST` of State.reset. DESIGN CHOICE (notes/assumptions/13.md). -/
def resetInstances : Nat := 2

end Config

end Sys2Proof
end

