-- ==== Sys2Proof/Machine/Crc16.lean ====
section
/-! DEFINITION. The pure CRC-16 function (40_crc.md R92). -/

namespace Sys2Proof

/-- One shift of R92's inner loop. -/
def crcBit (c : U16) : U16 :=
  if c.getLsbD 0 then (c >>> 1) ^^^ Config.crcPoly else c >>> 1

/-- `n` shifts. -/
def crcBits : Nat → U16 → U16
  | 0, c => c
  | n + 1, c => crcBits n (crcBit c)

/-- `crc_byte(c, b)` (R92): exclusive-or the byte into the low half, then eight shifts. -/
def crcByte (c : U16) (b : Byte) : U16 := crcBits 8 (c ^^^ b.setWidth 16)

/-- `crc16(s, pre)` (R92). -/
def crc16 : List Byte → U16 → U16
  | [], pre => pre
  | b :: s, pre => crc16 s (crcByte pre b)

end Sys2Proof
end

