-- ==== Sys2Proof/Syntax.lean ====
section
/-! DEFINITION. The instructions: one constructor per row of spec/opcode_table.json, whole. The rows are of three kinds:
commands of the command port (30_encoding.md R68), PDUs keyed by their first byte (R72, R73, R84), and the RTU ADU (R70). -/

namespace Sys2Proof

/-- A buffer reference (R67 "Operand buffers are passed by reference to a PDU buffer"): one of the host's own byte buffers,
or the receive buffer of an instance (70_reset_and_hazards.md R191 passes `RXBUF` to PDU_SERVE).
DESIGN CHOICE: the spec names no form of a reference (notes/assumptions/3.md). -/
inductive BufRef where
  | host (n : U16)
  | rx (inst : U16)
  deriving DecidableEq, Repr, Inhabited

/-- The reference names one of the host's own buffers. -/
def BufRef.isHost : BufRef → Bool
  | .host _ => true
  | .rx _ => false

/-- The `use` operand of ADDR_SPLIT (47_pdu_master.md R167). -/
inductive AddrUse where
  | read | write | writeSingle
  deriving DecidableEq, Repr, Inhabited

/-- Where an encoded instruction is presented. R67: the command port. R72: the codec, as a request or as a response.
R70: the wire of an instance. The same byte has a different meaning at each (notes/assumptions/18.md). -/
inductive Port where
  | command
  | request
  | response
  | wire (inst : U16)
  deriving DecidableEq, Repr, Inhabited

inductive Instr where
  /-- CRC_LOAD (R96) -/
  | crcLoad (v : U16)
  /-- CRC_FEED (R97) -/
  | crcFeed (b : Byte)
  /-- CRC_BLOCK (R98) -/
  | crcBlock (buf : BufRef) (len : U16) (preload : U16)
  /-- CRC_READ (R99) -/
  | crcRead
  /-- RTU_CFG_BAUD (R106) -/
  | rtuCfgBaud (inst : U16) (b : U32)
  /-- RTU_CFG_SLAVE (R107) -/
  | rtuCfgSlave (inst : U16) (id : Byte)
  /-- RTU_BRINGUP (R108) -/
  | rtuBringup (inst : U16)
  /-- RTU_SHUTDOWN (R109) -/
  | rtuShutdown (inst : U16)
  /-- RTU_IS_DOWN (R110) -/
  | rtuIsDown (inst : U16)
  /-- RTU_TX (R130) -/
  | rtuTx (inst : U16) (unit : Byte) (pdu : BufRef) (len : U16)
  /-- RTU_RX (R116) -/
  | rtuRx (inst : U16) (tmo : U32)
  /-- RTU_RX_IS_BCAST (R111) -/
  | rtuRxIsBcast (inst : U16)
  /-- RTU_RX_AVAIL (R112) -/
  | rtuRxAvail (inst : U16)
  /-- RTU_STATUS (R113) -/
  | rtuStatus (inst : U16)
  /-- PDU_SERVE (R154) -/
  | pduServe (pdu : BufRef) (len : U16) (bcast : Bool)
  /-- PDU_EXC (R156) -/
  | pduExc (fc : Byte) (x : Byte)
  /-- PDU_BUILD_READ (R161) -/
  | pduBuildRead (unit : Byte) (fc : Byte) (a : U16) (q : U16)
  /-- PDU_BUILD_WRITE_SINGLE (R162) -/
  | pduBuildWriteSingle (fc : Byte) (a : U16) (v : U16)
  /-- PDU_BUILD_WRITE_MULTI (R163); `data` is a reference to an element buffer -/
  | pduBuildWriteMulti (fc : Byte) (a : U16) (q : U16) (data : U16)
  /-- PDU_BUILD_LOOPBACK (R164) -/
  | pduBuildLoopback (data : BufRef) (dlen : U16)
  /-- PDU_BUILD_RAW (R165) -/
  | pduBuildRaw (data : BufRef) (dlen : U16)
  /-- PDU_PARSE_RSP (R166); `ctx` is the request PDU "with its length `clen`" -/
  | pduParseRsp (ctx : BufRef) (clen : U16) (rsp : BufRef) (len : U16)
  /-- ADDR_SPLIT (R167) -/
  | addrSplit (addr : U32) (use : AddrUse)
  /-- READ_COILS, fc 0x01 (R141). `body` is the request PDU after its function code: a handler's operands are `pdu` and `len`
  (R137), and a PDU of the wrong length is the handler's to refuse. -/
  | readCoils (body : List Byte)
  /-- READ_DISCRETE_INPUTS, fc 0x02 (R142) -/
  | readDiscreteInputs (body : List Byte)
  /-- READ_HOLDING_REGISTERS, fc 0x03 (R143) -/
  | readHoldingRegisters (body : List Byte)
  /-- READ_INPUT_REGISTERS, fc 0x04 (R144) -/
  | readInputRegisters (body : List Byte)
  /-- WRITE_SINGLE_COIL, fc 0x05 (R146) -/
  | writeSingleCoil (body : List Byte)
  /-- WRITE_SINGLE_REGISTER, fc 0x06 (R147) -/
  | writeSingleRegister (body : List Byte)
  /-- DIAGNOSTICS, fc 0x08 (R158) -/
  | diagnostics (body : List Byte)
  /-- WRITE_MULTIPLE_COILS, fc 0x0F (R148) -/
  | writeMultipleCoils (body : List Byte)
  /-- WRITE_MULTIPLE_REGISTERS, fc 0x10 (R149) -/
  | writeMultipleRegisters (body : List Byte)
  /-- READ_WRITE_MULTIPLE_REGISTERS, fc 0x17 (R150) -/
  | readWriteMultipleRegisters (body : List Byte)
  /-- VENDOR: any other function code (R159) -/
  | vendor (fc : Byte) (body : List Byte)
  /-- EXCEPTION_RESPONSE (R84): `fc` is the function code without its bit 7, `x` the exception code -/
  | exceptionResponse (fc : BitVec 7) (x : Byte)
  /-- RTU_ADU (R70): a frame on the wire of an instance; `crc` is the u16 its two CRC bytes carry -/
  | rtuAdu (inst : U16) (unit : Byte) (pdu : List Byte) (crc : U16)
  deriving DecidableEq, Repr

end Sys2Proof
end

