-- ==== Sys2Proof/WellFormed.lean ====
section
/-! DEFINITION. Which terms of `Instr` are instructions of the spec. A command's operands are bounded by their types. A request
PDU has 1 to `MAX_PDU` bytes (44_pdu_read.md R137) and VENDOR is any function code no other row names (46_pdu_dispatch.md
R159). An RTU ADU carries 1 to 253 PDU bytes and their CRC (30_encoding.md R70). -/

namespace Sys2Proof

/-- The function codes R73 gives a row of its own. -/
def standardCodes : List Byte := [0x01, 0x02, 0x03, 0x04, 0x05, 0x06, 0x08, 0x0F, 0x10, 0x17]

/-- A PDU of the function code and this body has at most `MAX_PDU` bytes (R137). -/
def bodyFits (body : List Byte) : Bool := decide (body.length + 1 ≤ Config.maxPdu)

/-- The CRC an ADU of this unit id and PDU carries (R70). -/
def aduCrc (unit : Byte) (pdu : List Byte) : U16 := crc16 (unit :: pdu) Config.crcPreload

def Instr.wf : Instr → Bool
  | .crcLoad _ => true
  | .crcFeed _ => true
  | .crcBlock _ _ _ => true
  | .crcRead => true
  | .rtuCfgBaud _ _ => true
  | .rtuCfgSlave _ _ => true
  | .rtuBringup _ => true
  | .rtuShutdown _ => true
  | .rtuIsDown _ => true
  | .rtuTx _ _ _ _ => true
  | .rtuRx _ _ => true
  | .rtuRxIsBcast _ => true
  | .rtuRxAvail _ => true
  | .rtuStatus _ => true
  | .pduServe _ _ _ => true
  | .pduExc _ _ => true
  | .pduBuildRead _ _ _ _ => true
  | .pduBuildWriteSingle _ _ _ => true
  | .pduBuildWriteMulti _ _ _ _ => true
  | .pduBuildLoopback _ _ => true
  | .pduBuildRaw _ _ => true
  | .pduParseRsp _ _ _ _ => true
  | .addrSplit _ _ => true
  | .readCoils body => bodyFits body
  | .readDiscreteInputs body => bodyFits body
  | .readHoldingRegisters body => bodyFits body
  | .readInputRegisters body => bodyFits body
  | .writeSingleCoil body => bodyFits body
  | .writeSingleRegister body => bodyFits body
  | .diagnostics body => bodyFits body
  | .writeMultipleCoils body => bodyFits body
  | .writeMultipleRegisters body => bodyFits body
  | .readWriteMultipleRegisters body => bodyFits body
  | .vendor fc body => bodyFits body && !standardCodes.contains fc
  | .exceptionResponse _ _ => true
  | .rtuAdu _ unit pdu crc =>
    decide (1 ≤ pdu.length) && decide (pdu.length ≤ Config.maxPdu) && crc == aduCrc unit pdu

end Sys2Proof
end

