-- ==== Sys2Proof/Decode.lean ====
section
/-! DEFINITION. Bytes to instructions and back. The byte-order helpers (20_memory.md R51, R52), the field layouts of the PDUs
(30_encoding.md R74 to R84), the decoder of each port, total and rejecting by name, and after it the encoder, written from
the same tables. The order of a command's fields is R68's and 95_test_vectors.md section 9's ("A command is encoded as its
`CMD` code followed by its operand fields in the order of rule R68"); their bytes are laid out most significant first
(DESIGN CHOICE, notes/assumptions/2.md). -/

namespace Sys2Proof

/-- The high and low byte of a word. -/
def hiByte (v : U16) : Byte := v.extractLsb' 8 8

/-- See `hiByte`. -/
def loByte (v : U16) : Byte := v.extractLsb' 0 8

/-- A word from its high and low byte. -/
def word (h l : Byte) : U16 := h ++ l

/-- `put_be16(v) = [v[15:8], v[7:0]]` (00_scope.md R11). -/
def putBe16 (v : U16) : List Byte := [hiByte v, loByte v]

/-- `be16(s, i)` (R11). -/
def be16 (d : List Byte) (i : Nat) : U16 := word (d.getD i 0) (d.getD (i + 1) 0)

/-- The two CRC bytes of an ADU, low byte first (20_memory.md R52). -/
def putLe16 (v : U16) : List Byte := [loByte v, hiByte v]

/-- A u32 operand of a command, most significant byte first. -/
def putBe32 (v : U32) : List Byte :=
  [v.extractLsb' 24 8, v.extractLsb' 16 8, v.extractLsb' 8 8, v.extractLsb' 0 8]

/-- See `putBe32`. -/
def dword (b3 b2 b1 b0 : Byte) : U32 := b3 ++ b2 ++ b1 ++ b0

/-- A buffer reference as three bytes: 0 for one of the host's own buffers or 1 for an instance's `RXBUF`, then its number. -/
def putRef : BufRef → List Byte
  | .host n => 0 :: putBe16 n
  | .rx n => 1 :: putBe16 n

/-- See `putRef`. -/
def getRef (k h l : Byte) : Option BufRef :=
  if k = 0 then some (.host (word h l)) else if k = 1 then some (.rx (word h l)) else none

/-- A bool operand as one byte. -/
def putBool (b : Bool) : Byte := if b then 1 else 0

/-- See `putBool`. -/
def getBool (b : Byte) : Option Bool :=
  if b = 0 then some false else if b = 1 then some true else none

/-- The `use` operand as one byte. -/
def putUse : AddrUse → Byte
  | .read => 0
  | .write => 1
  | .writeSingle => 2

/-- See `putUse`. -/
def getUse (b : Byte) : Option AddrUse :=
  if b = 0 then some .read else if b = 1 then some .write else if b = 2 then some .writeSingle else none

/-- `{address, quantity}` or `{address, value}` after the function code (30_encoding.md R74, R77, R80). -/
def pairBody (a v : U16) : List Byte := putBe16 a ++ putBe16 v

/-- A write-multiple request after its function code (R78, R79). -/
def writeMultiBody (a q : U16) (data : List Byte) : List Byte :=
  putBe16 a ++ putBe16 q ++ [BitVec.ofNat 8 data.length] ++ data

/-- A read/write-multiple request after its function code (R81). -/
def readWriteBody (ra rq wa wq : U16) (data : List Byte) : List Byte :=
  putBe16 ra ++ putBe16 rq ++ putBe16 wa ++ putBe16 wq ++ [BitVec.ofNat 8 data.length] ++ data

/-- A diagnostics request after its function code (R82). -/
def diagBody (sub : U16) (data : List Byte) : List Byte := putBe16 sub ++ data

/-- The names a decoder rejects bytes by. -/
inductive DecodeError where
  /-- A command code outside R68 (R69 "Every command code not in rule R68 is reserved"). -/
  | reservedCommand (cmd : Byte)
  /-- A command code of R68 followed by another number of bytes than its fields take ("Every command has a fixed length"). -/
  | wrongLength (cmd : Byte)
  /-- A buffer reference whose first byte is neither 0 nor 1. -/
  | badRef
  /-- A bool operand that is neither 0 nor 1. -/
  | badBool
  /-- A `use` operand outside {READ, WRITE, WRITE_SINGLE}. -/
  | badUse
  /-- No byte at all. -/
  | empty
  /-- A request PDU of more than `MAX_PDU` bytes (R137). -/
  | pduTooLong
  /-- A response that is not the 2 bytes of an exception response (R84). -/
  | notExceptionResponse
  /-- A wire frame outside 4 to 256 bytes (R70). -/
  | notAdu
  deriving DecidableEq, Repr

/-- Go on with a buffer reference, if its first byte names a kind. -/
def withRef (k h l : Byte) (f : BufRef → Except DecodeError Instr) : Except DecodeError Instr :=
  match getRef k h l with
  | some r => f r
  | none => .error .badRef

/-- The command port (R68). DESIGN CHOICE: the layout of the operand bytes (notes/assumptions/2.md), and `clen`, the length of
PDU_PARSE_RSP's `ctx` that R166 names and R68's row does not list, as a 16-bit field between `ctx` and `rsp`
(notes/assumptions/29.md). -/
def decodeCommand : List Byte → Except DecodeError Instr
  | [] => .error .empty
  | c :: ops =>
    match c with
    | 0x01#8 => match ops with
      | [h, l] => .ok (.crcLoad (word h l))
      | _ => .error (.wrongLength c)
    | 0x02#8 => match ops with
      | [b] => .ok (.crcFeed b)
      | _ => .error (.wrongLength c)
    | 0x03#8 => match ops with
      | [k, r1, r0, n1, n0, p1, p0] => withRef k r1 r0 fun r => .ok (.crcBlock r (word n1 n0) (word p1 p0))
      | _ => .error (.wrongLength c)
    | 0x04#8 => match ops with
      | [] => .ok .crcRead
      | _ => .error (.wrongLength c)
    | 0x10#8 => match ops with
      | [i1, i0, b3, b2, b1, b0] => .ok (.rtuCfgBaud (word i1 i0) (dword b3 b2 b1 b0))
      | _ => .error (.wrongLength c)
    | 0x11#8 => match ops with
      | [i1, i0, d] => .ok (.rtuCfgSlave (word i1 i0) d)
      | _ => .error (.wrongLength c)
    | 0x12#8 => match ops with
      | [i1, i0] => .ok (.rtuBringup (word i1 i0))
      | _ => .error (.wrongLength c)
    | 0x13#8 => match ops with
      | [i1, i0] => .ok (.rtuShutdown (word i1 i0))
      | _ => .error (.wrongLength c)
    | 0x14#8 => match ops with
      | [i1, i0] => .ok (.rtuIsDown (word i1 i0))
      | _ => .error (.wrongLength c)
    | 0x15#8 => match ops with
      | [i1, i0, u, k, r1, r0, n1, n0] => withRef k r1 r0 fun r => .ok (.rtuTx (word i1 i0) u r (word n1 n0))
      | _ => .error (.wrongLength c)
    | 0x16#8 => match ops with
      | [i1, i0, t3, t2, t1, t0] => .ok (.rtuRx (word i1 i0) (dword t3 t2 t1 t0))
      | _ => .error (.wrongLength c)
    | 0x17#8 => match ops with
      | [i1, i0] => .ok (.rtuRxIsBcast (word i1 i0))
      | _ => .error (.wrongLength c)
    | 0x18#8 => match ops with
      | [i1, i0] => .ok (.rtuRxAvail (word i1 i0))
      | _ => .error (.wrongLength c)
    | 0x19#8 => match ops with
      | [i1, i0] => .ok (.rtuStatus (word i1 i0))
      | _ => .error (.wrongLength c)
    | 0x20#8 => match ops with
      | [k, r1, r0, n1, n0, b] =>
        withRef k r1 r0 fun r =>
          match getBool b with
          | some v => .ok (.pduServe r (word n1 n0) v)
          | none => .error .badBool
      | _ => .error (.wrongLength c)
    | 0x21#8 => match ops with
      | [f, x] => .ok (.pduExc f x)
      | _ => .error (.wrongLength c)
    | 0x22#8 => match ops with
      | [u, f, a1, a0, q1, q0] => .ok (.pduBuildRead u f (word a1 a0) (word q1 q0))
      | _ => .error (.wrongLength c)
    | 0x23#8 => match ops with
      | [f, a1, a0, v1, v0] => .ok (.pduBuildWriteSingle f (word a1 a0) (word v1 v0))
      | _ => .error (.wrongLength c)
    | 0x24#8 => match ops with
      | [f, a1, a0, q1, q0, d1, d0] => .ok (.pduBuildWriteMulti f (word a1 a0) (word q1 q0) (word d1 d0))
      | _ => .error (.wrongLength c)
    | 0x25#8 => match ops with
      | [k, r1, r0, n1, n0] => withRef k r1 r0 fun r => .ok (.pduBuildLoopback r (word n1 n0))
      | _ => .error (.wrongLength c)
    | 0x26#8 => match ops with
      | [k, r1, r0, n1, n0] => withRef k r1 r0 fun r => .ok (.pduBuildRaw r (word n1 n0))
      | _ => .error (.wrongLength c)
    | 0x27#8 => match ops with
      | [j, c1, c0, m1, m0, k, r1, r0, n1, n0] =>
        withRef j c1 c0 fun c => withRef k r1 r0 fun r => .ok (.pduParseRsp c (word m1 m0) r (word n1 n0))
      | _ => .error (.wrongLength c)
    | 0x28#8 => match ops with
      | [a3, a2, a1, a0, u] =>
        match getUse u with
        | some v => .ok (.addrSplit (dword a3 a2 a1 a0) v)
        | none => .error .badUse
      | _ => .error (.wrongLength c)
    | _ => .error (.reservedCommand c)

/-- The request PDU with this function code and body (R73; R88: "goes to the vendor table"). -/
def requestOf (fc : Byte) (body : List Byte) : Instr :=
  match fc with
  | 0x01#8 => .readCoils body
  | 0x02#8 => .readDiscreteInputs body
  | 0x03#8 => .readHoldingRegisters body
  | 0x04#8 => .readInputRegisters body
  | 0x05#8 => .writeSingleCoil body
  | 0x06#8 => .writeSingleRegister body
  | 0x08#8 => .diagnostics body
  | 0x0F#8 => .writeMultipleCoils body
  | 0x10#8 => .writeMultipleRegisters body
  | 0x17#8 => .readWriteMultipleRegisters body
  | _ => .vendor fc body

/-- A request PDU (R72, R73). -/
def decodeRequest : List Byte → Except DecodeError Instr
  | [] => .error .empty
  | fc :: body => if bodyFits body then .ok (requestOf fc body) else .error .pduTooLong

/-- An exception response (R84). -/
def decodeResponse : List Byte → Except DecodeError Instr
  | [f, x] => if f.getLsbD 7 then .ok (.exceptionResponse (f.extractLsb' 0 7) x) else .error .notExceptionResponse
  | _ => .error .notExceptionResponse

/-- The PDU and the CRC of the bytes after an ADU's unit id (R70: the last two bytes are the CRC, low byte first). -/
def splitCrc (rest : List Byte) : List Byte × U16 :=
  (rest.take (rest.length - 2), word (rest.getD (rest.length - 1) 0) (rest.getD (rest.length - 2) 0))

/-- A frame on the wire of an instance (R70). Whether its CRC is right is the receiver's to find out (42_rtu_rx.md R123). -/
def decodeAdu (inst : U16) : List Byte → Except DecodeError Instr
  | [] => .error .notAdu
  | unit :: rest =>
    if 3 ≤ rest.length ∧ rest.length ≤ Config.maxPdu + 2 then
      .ok (.rtuAdu inst unit (splitCrc rest).1 (splitCrc rest).2)
    else .error .notAdu

/-- The decoder: total on any bytes at any port. -/
def decode : Port → List Byte → Except DecodeError Instr
  | .command, bs => decodeCommand bs
  | .request, bs => decodeRequest bs
  | .response, bs => decodeResponse bs
  | .wire inst, bs => decodeAdu inst bs

/-- The port an instruction is presented at. -/
def Instr.port : Instr → Port
  | .crcLoad _ => .command
  | .crcFeed _ => .command
  | .crcBlock _ _ _ => .command
  | .crcRead => .command
  | .rtuCfgBaud _ _ => .command
  | .rtuCfgSlave _ _ => .command
  | .rtuBringup _ => .command
  | .rtuShutdown _ => .command
  | .rtuIsDown _ => .command
  | .rtuTx _ _ _ _ => .command
  | .rtuRx _ _ => .command
  | .rtuRxIsBcast _ => .command
  | .rtuRxAvail _ => .command
  | .rtuStatus _ => .command
  | .pduServe _ _ _ => .command
  | .pduExc _ _ => .command
  | .pduBuildRead _ _ _ _ => .command
  | .pduBuildWriteSingle _ _ _ => .command
  | .pduBuildWriteMulti _ _ _ _ => .command
  | .pduBuildLoopback _ _ => .command
  | .pduBuildRaw _ _ => .command
  | .pduParseRsp _ _ _ _ => .command
  | .addrSplit _ _ => .command
  | .readCoils _ => .request
  | .readDiscreteInputs _ => .request
  | .readHoldingRegisters _ => .request
  | .readInputRegisters _ => .request
  | .writeSingleCoil _ => .request
  | .writeSingleRegister _ => .request
  | .diagnostics _ => .request
  | .writeMultipleCoils _ => .request
  | .writeMultipleRegisters _ => .request
  | .readWriteMultipleRegisters _ => .request
  | .vendor _ _ => .request
  | .exceptionResponse _ _ => .response
  | .rtuAdu inst _ _ _ => .wire inst

/-- The encoder: the bytes of an instruction at its port. -/
def encode : Instr → List Byte
  | .crcLoad v => 0x01 :: putBe16 v
  | .crcFeed b => [0x02, b]
  | .crcBlock buf len pre => 0x03 :: (putRef buf ++ putBe16 len ++ putBe16 pre)
  | .crcRead => [0x04]
  | .rtuCfgBaud inst b => 0x10 :: (putBe16 inst ++ putBe32 b)
  | .rtuCfgSlave inst d => 0x11 :: (putBe16 inst ++ [d])
  | .rtuBringup inst => 0x12 :: putBe16 inst
  | .rtuShutdown inst => 0x13 :: putBe16 inst
  | .rtuIsDown inst => 0x14 :: putBe16 inst
  | .rtuTx inst unit pdu len => 0x15 :: (putBe16 inst ++ [unit] ++ putRef pdu ++ putBe16 len)
  | .rtuRx inst tmo => 0x16 :: (putBe16 inst ++ putBe32 tmo)
  | .rtuRxIsBcast inst => 0x17 :: putBe16 inst
  | .rtuRxAvail inst => 0x18 :: putBe16 inst
  | .rtuStatus inst => 0x19 :: putBe16 inst
  | .pduServe pdu len bcast => 0x20 :: (putRef pdu ++ putBe16 len ++ [putBool bcast])
  | .pduExc fc x => [0x21, fc, x]
  | .pduBuildRead unit fc a q => 0x22 :: unit :: fc :: (putBe16 a ++ putBe16 q)
  | .pduBuildWriteSingle fc a v => 0x23 :: fc :: (putBe16 a ++ putBe16 v)
  | .pduBuildWriteMulti fc a q data => 0x24 :: fc :: (putBe16 a ++ putBe16 q ++ putBe16 data)
  | .pduBuildLoopback data dlen => 0x25 :: (putRef data ++ putBe16 dlen)
  | .pduBuildRaw data dlen => 0x26 :: (putRef data ++ putBe16 dlen)
  | .pduParseRsp ctx clen rsp len => 0x27 :: (putRef ctx ++ putBe16 clen ++ putRef rsp ++ putBe16 len)
  | .addrSplit addr use => 0x28 :: (putBe32 addr ++ [putUse use])
  | .readCoils body => 0x01 :: body
  | .readDiscreteInputs body => 0x02 :: body
  | .readHoldingRegisters body => 0x03 :: body
  | .readInputRegisters body => 0x04 :: body
  | .writeSingleCoil body => 0x05 :: body
  | .writeSingleRegister body => 0x06 :: body
  | .diagnostics body => 0x08 :: body
  | .writeMultipleCoils body => 0x0F :: body
  | .writeMultipleRegisters body => 0x10 :: body
  | .readWriteMultipleRegisters body => 0x17 :: body
  | .vendor fc body => fc :: body
  | .exceptionResponse fc x => [1#1 ++ fc, x]
  | .rtuAdu _ unit pdu crc => unit :: (pdu ++ putLe16 crc)

/-! ### The words of spec/opcode_table.json

The table gives each row one byte: a command code, a function code, or bit 7 of one. The two layers share values (0x01 is
CRC_LOAD at the command port and READ_COILS in a PDU), so a bare byte is read at the first port that has it: the command
port, then the standard function codes, then the exception bit, then the vendor codes (notes/assumptions/18.md). -/

/-- The number of bytes of a command (R67 "Every command has a fixed length"); 0 for a reserved code. -/
def commandLength (c : Byte) : Nat :=
  match c with
  | 0x01#8 => 3
  | 0x02#8 => 2
  | 0x03#8 => 8
  | 0x04#8 => 1
  | 0x10#8 => 7
  | 0x11#8 => 4
  | 0x12#8 => 3
  | 0x13#8 => 3
  | 0x14#8 => 3
  | 0x15#8 => 9
  | 0x16#8 => 7
  | 0x17#8 => 3
  | 0x18#8 => 3
  | 0x19#8 => 3
  | 0x20#8 => 7
  | 0x21#8 => 3
  | 0x22#8 => 7
  | 0x23#8 => 6
  | 0x24#8 => 8
  | 0x25#8 => 6
  | 0x26#8 => 6
  | 0x27#8 => 11
  | 0x28#8 => 6
  | _ => 0

/-- The least number of bytes of a request PDU of this function code that holds all its fields (R74 to R83). -/
def requestMinLength (fc : Byte) : Nat :=
  match fc with
  | 0x01#8 => 5
  | 0x02#8 => 5
  | 0x03#8 => 5
  | 0x04#8 => 5
  | 0x05#8 => 5
  | 0x06#8 => 5
  | 0x08#8 => 3
  | 0x0F#8 => 6
  | 0x10#8 => 6
  | 0x17#8 => 10
  | _ => 1

/-- The first `n` bytes of a word numbered as the opcode table numbers it (bit 0 the least significant bit of byte 0). -/
def wordBytes : Nat → Nat → List Byte
  | 0, _ => []
  | n + 1, w => BitVec.ofNat 8 w :: wordBytes n (w / 256)

/-- The port and the bytes of the instruction whose first `nbits` bits are `w`, its other bits zero. -/
def tableInput (nbits w : Nat) : Port × List Byte :=
  let w' := w % 2 ^ nbits
  let fc := BitVec.ofNat 8 w'
  let given := (nbits + 7) / 8
  if commandLength fc ≠ 0 then (.command, wordBytes (commandLength fc) w')
  else if standardCodes.contains fc then (.request, wordBytes (max given (requestMinLength fc)) w')
  else if fc.getLsbD 7 then (.response, wordBytes 2 w')
  else (.request, wordBytes (max given 1) w')

/-- The instruction the decoder reads from an opcode-table word. -/
def decodeTableWord (nbits w : Nat) : Option Instr :=
  match decode (tableInput nbits w).1 (tableInput nbits w).2 with
  | .ok i => some i
  | .error _ => none

end Sys2Proof
end

