-- ==== Sys2Proof/Machine/State.lean ====
section
/-! DEFINITION. The state of the block, its instances, its environment and its host, as plain data (10_state.md). The list
INVENTORY.md gives under '## State' names the rule and the reset value of every field. -/

namespace Sys2Proof.Machine

/-- `PHASE` (R22). -/
inductive Phase where
  | idle
  | rxWaitStart
  | rxBody
  | rxEof
  | txWaitDone
  | txGuard
  deriving DecidableEq, Repr, Inhabited

/-- `OP` (R23). -/
inductive Op where
  | none | rx | tx
  deriving DecidableEq, Repr, Inhabited

/-- The status codes of the framer commands (R33). -/
inductive Status where
  | ok
  | timeout
  | frameNok
  | crcFail
  | slaveId
  | down
  | notConfigured
  | badArg
  deriving DecidableEq, Repr, Inhabited

/-- The master result codes (47_pdu_master.md R160). -/
inductive MasterCode where
  | ok
  | illegalFunction
  | illegalDataAddress
  | illegalDataValue
  | slaveDeviceFailure
  | unknownException
  | malformedResponse
  | localInvalid
  deriving DecidableEq, Repr, Inhabited

/-- The refusal reasons of the spec (60_exceptions.md R172). A spec refusal is a NEXT state with the mark REFUSED set
(00_scope.md R14), not an outcome of the step (notes/assumptions/7.md). -/
inductive Reason where
  | busy
  | reservedCmd
  | badInst
  | badBuffer
  | badLen
  | vendorOverlong
  deriving DecidableEq, Repr, Inhabited

/-- The state of an interval timer (R40). -/
inductive TimerState where
  | stopped | running
  deriving DecidableEq, Repr, Inhabited

/-- The registers and the environment of ONE RTU instance (R22 to R34, R39 to R41; R47 "exists once per RTU instance").
`RXLEN` is the length of `rxbuf`, which holds exactly the bytes of `RXBUF` that hold a value (R46;
notes/assumptions/17.md). -/
structure Framer where
  /-- `PHASE` (R22) -/
  phase : Phase
  /-- `OP` (R23) -/
  op : Op
  /-- `CFG_BAUD` (R24) -/
  cfgBaud : U32
  /-- `T1P5_US` (R25) -/
  t1p5Us : U32
  /-- `T3P5_US` (R25) -/
  t3p5Us : U32
  /-- `SLAVE_ID` (R26) -/
  slaveId : Byte
  /-- `EVF` (R27) -/
  evf : BitVec 4
  /-- `BCAST` (R29) -/
  bcast : Bool
  /-- `DOWN` (R30) -/
  down : Bool
  /-- `DE` (R31) -/
  de : Bool
  /-- `RX_UNIT` (R32) -/
  rxUnit : Byte
  /-- `RXBUF[0..RXLEN)` (R32) -/
  rxbuf : List Byte
  /-- `FRAME_OK` (R32) -/
  frameOk : Bool
  /-- `RX_CRC` (R32) -/
  rxCrc : U16
  /-- `RX_TMO` (R32) -/
  rxTmo : U32
  /-- `RX_STATUS` (R33) -/
  rxStatus : Status
  /-- `RX_PDU_LEN` (R33) -/
  rxPduLen : Nat
  /-- `TX_UNIT` (R34) -/
  txUnit : Byte
  /-- `TX_ADU` (R34) -/
  txAdu : List Byte
  /-- `TX_STATUS` (R34) -/
  txStatus : Status
  /-- `RXFIFO` (R39), oldest first -/
  rxfifo : List Byte
  /-- `TMR1` (R40) -/
  tmr1 : TimerState
  /-- `TMR3` (R40) -/
  tmr3 : TimerState
  /-- the interval programmed into `TMR1` (R40, R181) -/
  interval1 : U32
  /-- the interval programmed into `TMR3` (R40, R181) -/
  interval3 : U32
  /-- `TXQ` (R41), oldest first -/
  txq : List Byte
  /-- `WIRE_OUT` (R41), oldest first -/
  wireOut : List Byte
  deriving DecidableEq, Repr, Inhabited

/-- Elements of the word interface (20_memory.md R51, R56): bits of a bit table or u16 words of a register table. -/
inductive Elems where
  | bits (v : List Bool)
  | words (v : List U16)
  deriving DecidableEq, Repr, Inhabited

/-- One request to a host capability (46_pdu_dispatch.md R152). -/
inductive HostCall where
  | get (t : TableId) (a q : Nat)
  | set (t : TableId) (a q : Nat) (values : List U16)
  | vendor (i : Nat) (req : List Byte)
  deriving DecidableEq, Repr, Inhabited

/-- The host's own state: the contents `TBL` of the four tables (R42), the answers it will give to the next capability
calls (the draws of R152, oldest first; with none left it answers as the reference host of R153,
notes/assumptions/11.md), and the log of the calls made to it, an observation (oldest first). -/
structure HostState where
  coils : List Bool
  discreteInputs : List Bool
  inputRegisters : List U16
  holdingRegisters : List U16
  answers : List HostAnswer
  calls : List HostCall
  deriving DecidableEq, Repr, Inhabited

/-- What a handler returns (44_pdu_read.md R137), or the refusal of R159. -/
inductive Handled where
  | ok (rsp : List Byte)
  | exc (x : Byte)
  | noResponse
  | refuse (r : Reason)
  deriving DecidableEq, Repr, Inhabited

/-- What PDU_PARSE_RSP decodes (R166). -/
inductive ParseData where
  | none
  | bits (v : List Bool)
  | words (v : List U16)
  | raw (d : List Byte)
  deriving DecidableEq, Repr, Inhabited

/-- The results of the commands (30_encoding.md R68), of a handler (R137), of the host's read of `RXBUF`, and the refusals. -/
inductive Result where
  /-- nothing has completed since reset -/
  | none
  /-- a command without results -/
  | done
  /-- CRC_BLOCK, CRC_READ -/
  | crc (c : U16)
  /-- the status of RTU_CFG_BAUD, RTU_CFG_SLAVE, RTU_BRINGUP, RTU_SHUTDOWN -/
  | status (st : Status)
  /-- RTU_IS_DOWN, RTU_RX_IS_BCAST, RTU_RX_AVAIL -/
  | flag (b : Bool)
  /-- RTU_STATUS -/
  | framerStatus (phase : Phase) (op : Op) (cfgBaud t1p5Us t3p5Us : U32) (slaveId : Byte)
  /-- the completion of RTU_RX on an instance with `OK`: `RX_UNIT` and the PDU bytes (their number is `RX_PDU_LEN`) -/
  | rxOk (inst : Nat) (unit : Byte) (pdu : List Byte)
  /-- the completion of RTU_RX on an instance with another status -/
  | rxFail (inst : Nat) (st : Status)
  /-- the completion of RTU_TX on an instance -/
  | tx (inst : Nat) (st : Status)
  /-- PDU_SERVE: `RESPONSE(rsp, rlen)` -/
  | response (rsp : List Byte)
  /-- PDU_SERVE: `NONE` -/
  | noReply
  /-- PDU_EXC -/
  | excPdu (rsp : List Byte)
  /-- the build commands: result code, request, length -/
  | build (code : MasterCode) (req : List Byte)
  /-- PDU_PARSE_RSP -/
  | parse (code : MasterCode) (data : ParseData)
  /-- ADDR_SPLIT with `M_OK` -/
  | split (fc : Byte) (a : U16)
  /-- ADDR_SPLIT with another code -/
  | splitFail (code : MasterCode)
  /-- a handler run on its own -/
  | handler (r : Handled)
  /-- an exception response: its two bytes and the taxonomy code they decode to -/
  | excResponse (rsp : List Byte) (code : MasterCode)
  /-- the host's read of one byte of `RXBUF` -/
  | byte (b : Byte)
  /-- `refuse R` -/
  | refused (r : Reason)
  deriving DecidableEq, Repr, Inhabited

/-- The environment events of 30_encoding.md R89. -/
inductive EnvEvent where
  | byte (b : Byte)
  | expireT1p5
  | expireT3p5
  | txStep
  | rxTimeout
  deriving DecidableEq, Repr, Inhabited

/-- One atomic action of an agent (20_memory.md R60). -/
inductive Input where
  /-- bytes presented at a port: a command, a PDU, a wire frame -/
  | port (p : Port) (bytes : List Byte)
  /-- an environment event of an instance (R89) -/
  | env (inst : Nat) (e : EnvEvent)
  /-- one step of an instance's framer controller (42_rtu_rx.md R114) -/
  | controller (inst : Nat)
  /-- the host reads one byte of an instance's `RXBUF` (10_state.md R36, R46) -/
  | readRxbuf (inst : Nat) (index : Nat)
  /-- the host gives one of its own byte buffers new contents (20_memory.md R49: "owned by the caller") -/
  | setBuffer (n : U16) (bytes : List Byte)
  /-- the host gives one of its own element buffers new contents -/
  | setData (n : U16) (e : Elems)
  /-- another agent of the host writes its tables (R56: "other agents that touch `TBL`") -/
  | pokeTables (ps : List Poke)
  /-- the host decides its next answer (R152) -/
  | answer (a : HostAnswer)
  /-- the reset of the block (70_reset_and_hazards.md R185) -/
  | reset
  deriving DecidableEq, Repr

/-- The host's PDU buffers (20_memory.md R49 item 1) as ONE list of cells in canonical form, addresses strictly rising:
byte i of buffer n stands at address `65536 * n + i`; an unlisted address holds no value. A codec or framer
command reads at most the first `MAX_PDU` bytes of one, the capacity of a PDU buffer (notes/assumptions/3.md). -/
abbrev Memory := List Host.Cell

/-- Why a step stops with a fault. -/
inductive Fault where
  /-- READ_UNWRITTEN (60_exceptions.md R173): a byte of `RXBUF` at or beyond `RX_PDU_LEN` was read (R46). Raised by the host's
  read of `RXBUF` and by a command whose operand buffer is an instance's `RXBUF`. Safe: the spec's own fault. -/
  | readUnwritten
  deriving DecidableEq, Repr

/-- Why a step has no meaning. -/
inductive Refusal where
  /-- An instruction without a meaning in the model, by its mnemonic. Raised by no arm. Safe. -/
  | notModelled (mnemonic : String)
  deriving DecidableEq, Repr

structure State where
  /-- the parameters of R8, constant (R188) -/
  params : Params
  /-- the instances 0 to `N_INST - 1` (R47) -/
  framers : List Framer
  /-- `CRC_ACC` (R35) -/
  crcAcc : U16
  /-- the host's PDU buffers (R49) -/
  mem : Memory
  /-- the host's element buffers, by number, numbers strictly rising (notes/assumptions/5.md) -/
  data : List (Nat × Elems)
  /-- the host's tables and answers (R42, R152) -/
  host : HostState
  /-- what the command port last returned (R67; notes/assumptions/6.md) -/
  result : Result
  /-- `REFUSED` (R46) -/
  refused : Bool
  /-- the pending actions, oldest first (R60; notes/assumptions/1.md) -/
  inputs : List Input
  deriving DecidableEq, Repr

/-- One instance after reset (R45). -/
def Framer.reset : Framer where
  phase := .idle
  op := .none
  cfgBaud := 0
  t1p5Us := 0
  t3p5Us := 0
  slaveId := 0
  evf := 0
  bcast := false
  down := true
  de := false
  rxUnit := 0
  rxbuf := []
  frameOk := true
  rxCrc := 0xFFFF
  rxTmo := 0
  rxStatus := .ok
  rxPduLen := 0
  txUnit := 0
  txAdu := []
  txStatus := .ok
  rxfifo := []
  tmr1 := .stopped
  tmr3 := .stopped
  interval1 := 0
  interval3 := 0
  txq := []
  wireOut := []

/-- Tables of the configured sizes, all elements 0. -/
def HostState.zeroed (p : Params) : HostState where
  coils := List.replicate p.coils.size false
  discreteInputs := List.replicate p.discreteInputs.size false
  inputRegisters := List.replicate p.inputRegisters.size 0
  holdingRegisters := List.replicate p.holdingRegisters.size 0
  answers := []
  calls := []

/-- The block right after reset (R185) with these parameters, this number of instances and this host. -/
def State.resetWith (p : Params) (n : Nat) (h : HostState) : State where
  params := p
  framers := List.replicate n Framer.reset
  crcAcc := 0xFFFF
  mem := []
  data := []
  host := h
  result := .none
  refused := false
  inputs := []

/-- The machine right after reset (R45, R185). The parameters, `N_INST` and the host's own state are the model's choice
(notes/assumptions/13.md, 14.md). -/
def State.reset : State :=
  State.resetWith Config.resetParams Config.resetInstances (HostState.zeroed Config.resetParams)

end Sys2Proof.Machine
end

