-- ==== Sys2Proof/Machine/Flags.lean ====
section
/-! DEFINITION. The status flags and codes: `EVF` and its four bits (10_state.md R27, R28, R48), the numeric codes of the
statuses (R33) and of the master results (47_pdu_master.md R160), the command a phase belongs to (R22, R23). -/

namespace Sys2Proof.Machine

/-- The masks of the `EVF` bits (R27). -/
def evTxEmptyMask : BitVec 4 := 0b0001#4

/-- See `evTxEmptyMask`. -/
def evRxMask : BitVec 4 := 0b0010#4

/-- See `evTxEmptyMask`. -/
def evT1p5Mask : BitVec 4 := 0b0100#4

/-- See `evTxEmptyMask`. -/
def evT3p5Mask : BitVec 4 := 0b1000#4

/-- `EVF.EV_TX_EMPTY` -/
def Framer.evTxEmpty (i : Framer) : Bool := i.evf.getLsbD 0

/-- `EVF.EV_RX` -/
def Framer.evRx (i : Framer) : Bool := i.evf.getLsbD 1

/-- `EVF.EV_T1P5` -/
def Framer.evT1p5 (i : Framer) : Bool := i.evf.getLsbD 2

/-- `EVF.EV_T3P5` -/
def Framer.evT3p5 (i : Framer) : Bool := i.evf.getLsbD 3

/-- Set the flags of a mask. -/
def Framer.raise (m : BitVec 4) (i : Framer) : Framer := { i with evf := i.evf ||| m }

/-- `Clear(m)` (00_scope.md R13): clear the flags of a mask, in one action. -/
def Framer.clear (m : BitVec 4) (i : Framer) : Framer := { i with evf := i.evf &&& ~~~m }

/-- The command a phase belongs to; `OP` is `NONE` exactly when `PHASE = P_IDLE` (R23). -/
def Phase.command : Phase → Op
  | .idle => .none
  | .rxWaitStart => .rx
  | .rxBody => .rx
  | .rxEof => .rx
  | .txWaitDone => .tx
  | .txGuard => .tx

/-- The value of `PHASE` (R22). -/
def Phase.code : Phase → Nat
  | .idle => 0
  | .rxWaitStart => 1
  | .rxBody => 2
  | .rxEof => 3
  | .txWaitDone => 4
  | .txGuard => 5

/-- The 4-bit status code (R33). -/
def Status.code : Status → BitVec 4
  | .ok => 0
  | .timeout => 1
  | .frameNok => 2
  | .crcFail => 3
  | .slaveId => 4
  | .down => 5
  | .notConfigured => 6
  | .badArg => 7

/-- The number of a master result code (R160). -/
def MasterCode.code : MasterCode → Nat
  | .ok => 0
  | .illegalFunction => 16
  | .illegalDataAddress => 17
  | .illegalDataValue => 18
  | .slaveDeviceFailure => 19
  | .unknownException => 20
  | .malformedResponse => 21
  | .localInvalid => 22

/-- The signed return view of RTU_RX (R33): `RX_PDU_LEN` for `OK`, `-code` otherwise. -/
def Framer.rxSigned (i : Framer) : Int :=
  if i.rxStatus = .ok then i.rxPduLen else -(i.rxStatus.code.toNat : Int)

/-- A handler's result as the source's signed number (44_pdu_read.md R137): the length of the response, or `-X`; 0 means "no
response" (46_pdu_dispatch.md R159). DESIGN CHOICE: the spec gives a refusal no number, and so does the model
(notes/assumptions/30.md). -/
def Handled.signed : Handled → Option Int
  | .ok rsp => some rsp.length
  | .exc x => some (-(x.toNat : Int))
  | .noResponse => some 0
  | .refuse _ => none

end Sys2Proof.Machine
end

