-- ==== Sys2Proof/Machine/Operands.lean ====
section
/-! DEFINITION. Every operand form: the bit and word packings of the PDUs (20_memory.md R53, 44_pdu_read.md R139, R140), the
range check (R50), the reading and writing of the host's buffers (R13 `MemRead`, `MemWrite`, R49), and the reading of
`RXBUF` (10_state.md R46). -/

namespace Sys2Proof.Machine

/-- `ceil8(q) = (q + 7) div 8` (00_scope.md R10). -/
def ceil8 (q : Nat) : Nat := (q + 7) / 8

/-- The byte whose bit k is `f k`. -/
def packByte (f : Nat → Bool) : Byte :=
  (List.range 8).foldl (fun acc k => if f k then acc ||| (1#8 <<< k) else acc) 0#8

/-- `pack(bits, q)` (R139): LSB of the requested address first, zero-padded. -/
def pack (bits : List Bool) (q : Nat) : List Byte :=
  (List.range (ceil8 q)).map fun j => packByte fun k => decide (8 * j + k < q) && bits.getD (8 * j + k) false

/-- `unpack(data, q)` (R139). -/
def unpack (d : List Byte) (q : Nat) : List Bool :=
  (List.range q).map fun i => (d.getD (i / 8) 0).getLsbD (i % 8)

/-- `words_be(v, q)` (R140). -/
def wordsBe (v : List U16) (q : Nat) : List Byte :=
  (List.range q).flatMap fun i => putBe16 (v.getD i 0)

/-- `unwords_be(d, q)` (R140). -/
def unwordsBe (d : List Byte) (q : Nat) : List U16 :=
  (List.range q).map fun i => be16 d (2 * i)

/-- An element of a bit table on the word interface. -/
def boolWord (b : Bool) : U16 := if b then 1 else 0

/-- See `boolWord`. -/
def wordBool (v : U16) : Bool := v.getLsbD 0

/-- A range `(a, q)` is valid exactly when `a + q <= SIZE`, without wrap-around (R50). -/
def rangeOk (a q size : Nat) : Bool := decide (a + q ≤ size)

/-! ### Byte buffers and element buffers -/

/-- Store under a key, keeping the keys strictly rising. -/
def assocPut {α : Type} (k : Nat) (v : α) : List (Nat × α) → List (Nat × α)
  | [] => [(k, v)]
  | (k', v') :: r =>
    if k < k' then (k, v) :: (k', v') :: r
    else if k = k' then (k, v) :: r
    else (k', v') :: assocPut k v r

/-- Look a key up. -/
def assocGet {α : Type} (k : Nat) : List (Nat × α) → Option α
  | [] => none
  | (k', v') :: r => if k' = k then some v' else assocGet k r

/-- The canonical form of a store: keys strictly rising. -/
abbrev assocWf {α : Type} (m : List (Nat × α)) : Prop := (m.map Prod.fst).Pairwise (· < ·)

/-- The canonical form of memory. An unlisted address holds no value, so no entry equals what one reads as. -/
abbrev Memory.wf (m : Memory) : Prop := assocWf m

/-- The bytes one buffer of the host can hold: every index CRC_BLOCK's `len:u16` can reach (40_crc.md R98 "0 to 65535"). A
codec or framer command reads at most the first `MAX_PDU` of them (`fetchPdu`). -/
def bufferSpan : Nat := 65536

/-- The address of byte `k` of buffer `n`. -/
def bufAddr (n : U16) (k : Nat) : Nat := bufferSpan * n.toNat + k

/-- One byte of memory, if it holds a value. -/
def Memory.read (m : Memory) (a : Nat) : Option Byte := assocGet a m

/-- `MemRead(BUF, i, n)`: `n` bytes from an address on, if all hold a value. -/
def Memory.reads (m : Memory) (a : Nat) : Nat → Option (List Byte)
  | 0 => some []
  | n + 1 =>
    match m.read a with
    | none => none
    | some b => (Memory.reads m (a + 1) n).map (b :: ·)

/-- Store one byte. -/
def Memory.write (m : Memory) (a : Nat) (b : Byte) : Memory := assocPut a b m

/-- `MemWrite(BUF, i, n, s)`: store bytes from an address on. -/
def Memory.writes (m : Memory) (a : Nat) : List Byte → Memory
  | [] => m
  | b :: bs => Memory.writes (m.write a b) (a + 1) bs

/-- Take every byte of buffer `n` away. -/
def Memory.drop (m : Memory) (n : U16) : Memory :=
  m.filter fun c => !(decide (bufAddr n 0 ≤ c.1) && decide (c.1 < bufAddr n bufferSpan))

/-- How the bytes of an operand buffer are found. -/
inductive Fetched where
  /-- all of them hold a value -/
  | bytes (bs : List Byte)
  /-- the buffer is shorter than its stated length (60_exceptions.md R172 BAD_BUFFER); for the `RXBUF` of an instance, the length
  is more than its 255 bytes -/
  | short
  /-- bytes of `RXBUF` at or beyond `RX_PDU_LEN` and within its 255 (10_state.md R46) -/
  | unwritten
  deriving DecidableEq, Repr

/-- The bytes of `RXBUF` the host may read: `RXBUF[0..RX_PDU_LEN)` "after an `OK` completion" (R46, R129). -/
def Framer.readable (i : Framer) : List Byte :=
  if i.op ≠ .rx ∧ i.rxStatus = .ok then i.rxbuf.take i.rxPduLen else []

/-- The first `n` bytes of an operand buffer. An instance's `RXBUF` "holds 255 bytes" (20_memory.md R49 item 2): DEDUCED, a longer
length is more than the buffer, and up to 255 the buffer is there, though its bytes at or beyond `RX_PDU_LEN` hold no value.
The `RXBUF` of an instance that does not exist is a buffer of no bytes (notes/assumptions/3.md). -/
def State.fetch (r : BufRef) (n : Nat) (s : State) : Fetched :=
  match r with
  | .host k =>
    match s.mem.reads (bufAddr k 0) n with
    | some bs => .bytes bs
    | none => .short
  | .rx k =>
    match s.framers[k.toNat]? with
    | none => if n = 0 then .bytes [] else .short
    | some i =>
      if n ≤ i.readable.length then .bytes (i.readable.take n)
      else if n > Config.rxbufCap then .short
      else .unwritten

/-- The first `n` bytes of a PDU buffer operand: a buffer of the host has the capacity `MAX_PDU` as one (20_memory.md R49 item
1), so a longer length is more than it holds. -/
def State.fetchPdu (r : BufRef) (n : Nat) (s : State) : Fetched :=
  match r with
  | .host _ => if n > Config.maxPdu then .short else s.fetch r n
  | .rx _ => s.fetch r n

/-- The bits of an element buffer; a buffer of words or one never written has none (notes/assumptions/5.md). -/
def State.dataBits (n : U16) (s : State) : List Bool :=
  match assocGet n.toNat s.data with
  | some (.bits v) => v
  | some (.words _) => []
  | none => []

/-- How many elements an element buffer holds, of either kind; one never written holds none. -/
def State.dataCount (n : U16) (s : State) : Nat :=
  match assocGet n.toNat s.data with
  | some (.bits v) => v.length
  | some (.words v) => v.length
  | none => 0

/-- The words of an element buffer; see `dataBits`. -/
def State.dataWords (n : U16) (s : State) : List U16 :=
  match assocGet n.toNat s.data with
  | some (.words v) => v
  | some (.bits _) => []
  | none => []

end Sys2Proof.Machine
end

