-- ==== Sys2Proof/Machine/Ops.lean ====
section
/-! DEFINITION. The shared operations the meanings are written over: returning a result and refusing (00_scope.md R14), the
access to an instance with the checks of 60_exceptions.md R174, the timers (R181), the byte stream, the host capabilities
(46_pdu_dispatch.md R152, R153). The block has no traps (R169): no operation saves or restores a context. -/

namespace Sys2Proof.Machine

/-- The outcome of a step or of a meaning. -/
abbrev Out : Type := Host.Outcome State Fault Refusal

/-- One command after another, the second from the state the first leaves. -/
def Out.andThen (o : Out) (f : State → Out) : Out :=
  match o with
  | .next s => f s
  | .fault r => .fault r
  | .refused r => .refused r

/-! ### Results and refusals -/

/-- A command returns its result (30_encoding.md R67). -/
def State.ret (r : Result) (s : State) : State := { s with result := r }

/-- `refuse R` (00_scope.md R14, 60_exceptions.md R172): "It changes no block state and sets the `REFUSED` mark". -/
def State.refuse (r : Reason) (s : State) : State := { s with refused := true, result := .refused r }

/-- The host's buffer that the codec commands write response and request bytes into (20_memory.md R49 item 1). DESIGN CHOICE:
no command has an operand for it (notes/assumptions/4.md). -/
def responseBuffer : U16 := 0x7FFF#16

/-- Write bytes into the response buffer. -/
def State.respond (bs : List Byte) (s : State) : State :=
  { s with mem := s.mem.writes (bufAddr responseBuffer 0) bs }

/-- Go on with the bytes found, or refuse BAD_BUFFER, or fault READ_UNWRITTEN. -/
def withFetched (r : Fetched) (s : State) (f : List Byte → Out) : Out :=
  match r with
  | .bytes bs => f bs
  | .short => .next (s.refuse .badBuffer)
  | .unwritten => .fault .readUnwritten

/-- Go on with the first `n` bytes of an operand buffer. -/
def withBytes (r : BufRef) (n : Nat) (s : State) (f : List Byte → Out) : Out := withFetched (s.fetch r n) s f

/-- Go on with the first `n` bytes of a PDU buffer, whose capacity is `MAX_PDU` (20_memory.md R49). -/
def withPdu (r : BufRef) (n : Nat) (s : State) (f : List Byte → Out) : Out := withFetched (s.fetchPdu r n) s f

/-- BAD_BUFFER before a command's own checks (60_exceptions.md R172, R174, 92_eei_decisions.md D53): refuse where an operand buffer
is shorter than its stated length, whatever that length is: an `RXBUF` where the length is more than its 255 bytes
(notes/assumptions/3.md). DESIGN CHOICE: nothing is read yet, so bytes within the 255 that hold no value are neither a short
buffer nor a fault here, and the command's own checks come before the fault (notes/assumptions/8.md). -/
def unlessShort (r : BufRef) (n : Nat) (s : State) (f : Out) : Out :=
  match s.fetch r n with
  | .bytes _ => f
  | .short => .next (s.refuse .badBuffer)
  | .unwritten => f

/-! ### Instances -/

/-- Replace the state of instance `n`. -/
def State.setFramer (n : Nat) (i : Framer) (s : State) : State := { s with framers := s.framers.set n i }

/-- Go on with the instance, or refuse BAD_INST ("`inst >= N_INST`", R172). -/
def onFramer (inst : U16) (s : State) (f : Framer → Out) : Out :=
  match s.framers[inst.toNat]? with
  | none => .next (s.refuse .badInst)
  | some i => f i

/-- The busy rule (41_rtu_config.md R105): a command that changes state is refused while `OP != NONE`. -/
def onIdle (inst : U16) (s : State) (f : Framer → Out) : Out :=
  onFramer inst s fun i => if i.op = .none then f i else .next (s.refuse .busy)

/-! ### Timers, driver enable, byte stream of one instance -/

/-- `TimerInit(t1, t3)` (60_exceptions.md R181): "It sets the intervals and leaves `TMR1` and `TMR3` in the state they were
in". -/
def Framer.timerInit (t1 t3 : U32) (i : Framer) : Framer := { i with interval1 := t1, interval3 := t3 }

/-- `TimerStart(T1P5)` (10_state.md R40). -/
def Framer.timerStart1 (i : Framer) : Framer := { i with tmr1 := .running }

/-- `TimerStart(T3P5)` (R40). -/
def Framer.timerStart3 (i : Framer) : Framer := { i with tmr3 := .running }

/-- `if DE_PRESENT then SetDE(v); DE <- v` (43_rtu_tx.md R130, R132). Without the line `DE` stays as it is (R136). -/
def Framer.setDe (p : Params) (v : Bool) (i : Framer) : Framer := if p.dePresent then { i with de := v } else i

/-- `StreamWriteAll(s)` (R131). -/
def Framer.streamWriteAll (bs : List Byte) (i : Framer) : Framer := { i with txq := i.txq ++ bs }

/-- `StreamAvail()` (10_state.md R39). -/
def Framer.streamAvail (i : Framer) : Nat := i.rxfifo.length

/-- `TxQueueEmpty()` (60_exceptions.md R178). -/
def Framer.txQueueEmpty (i : Framer) : Bool := i.txq.isEmpty

/-! ### The host's tables and capabilities -/

/-- `TBL[t][a]`; a bit is 0 or 1. -/
def HostState.elem (t : TableId) (a : Nat) (h : HostState) : U16 :=
  match t with
  | .coils => boolWord (h.coils.getD a false)
  | .discreteInputs => boolWord (h.discreteInputs.getD a false)
  | .inputRegisters => h.inputRegisters.getD a 0
  | .holdingRegisters => h.holdingRegisters.getD a 0

/-- `TBL[t][a..a+q)`. -/
def HostState.elems (t : TableId) (a q : Nat) (h : HostState) : List U16 :=
  (List.range q).map fun k => h.elem t (a + k)

/-- `TBL[t][a] <- v`. -/
def HostState.setElem (t : TableId) (a : Nat) (v : U16) (h : HostState) : HostState :=
  match t with
  | .coils => { h with coils := h.coils.set a (wordBool v) }
  | .discreteInputs => { h with discreteInputs := h.discreteInputs.set a (wordBool v) }
  | .inputRegisters => { h with inputRegisters := h.inputRegisters.set a v }
  | .holdingRegisters => { h with holdingRegisters := h.holdingRegisters.set a v }

/-- `TBL[t][a+i] <- v[i]` (R153). -/
def HostState.setElems (t : TableId) (a : Nat) (h : HostState) : List U16 → HostState
  | [] => h
  | v :: vs => HostState.setElems t (a + 1) (h.setElem t a v) vs

/-- A set of single writes. -/
def HostState.pokes (h : HostState) : List Poke → HostState
  | [] => h
  | p :: ps => HostState.pokes (h.setElem p.table p.addr p.value) ps

/-- Note a call and take the next answer away. -/
def HostState.called (c : HostCall) (h : HostState) : HostState :=
  { h with answers := h.answers.tail, calls := h.calls ++ [c] }

/-- `HostGet(t, a, q)` (R152): exactly `q` elements, or the exception X. An element the answer does not give is the table's. -/
def hostGet (t : TableId) (a q : Nat) (h : HostState) : Except Byte (List U16) × HostState :=
  match h.answers with
  | [] => (.ok (h.elems t a q), h.called (.get t a q))
  | ans :: _ =>
    let after := (h.called (.get t a q)).pokes (ans.effect.getD [])
    if ans.exc = 0 then
      (.ok ((List.range q).map fun k => ans.values.getD k (h.elem t (a + k))), after)
    else (.error ans.exc, after)

/-- `HostSet(t, a, q, values)` (R152): `none` is `Ok`, `some X` is `Exc(X)`. The reference effect is R153's; a call that
answers an exception and names no effect leaves the tables alone. -/
def hostSet (t : TableId) (a q : Nat) (vs : List U16) (h : HostState) : Option Byte × HostState :=
  let h' := h.called (.set t a q vs)
  match h.answers with
  | [] => (none, h'.setElems t a vs)
  | ans :: _ =>
    if ans.exc = 0 then
      (none, match ans.effect with
        | none => h'.setElems t a vs
        | some ps => h'.pokes ps)
    else (some ans.exc, h'.pokes (ans.effect.getD []))

/-- The host's answer to a vendor call: the next of its answers, or the free value (notes/assumptions/12.md). -/
def HostState.vendorAnswer (h : HostState) : HostAnswer :=
  match h.answers with
  | [] => Config.vendorAnswer h.calls.length
  | ans :: _ => ans

/-- `HostVendor(i, req)` (R152). -/
def hostVendor (i : Nat) (req : List Byte) (h : HostState) : Except Byte (List Byte) × HostState :=
  let ans := h.vendorAnswer
  let after := (h.called (.vendor i req)).pokes (ans.effect.getD [])
  if ans.exc = 0 then (.ok ans.rsp, after) else (.error ans.exc, after)

end Sys2Proof.Machine
end

