-- ==== Sys2Proof/Machine/Crc.lean ====
section
/-! DEFINITION. The CRC engine commands (40_crc.md R96 to R99). They touch `CRC_ACC` alone (R35, R100). -/

namespace Sys2Proof.Machine

/-- CRC_LOAD (R96): `CRC_ACC <- v`. -/
def execCrcLoad (v : U16) (s : State) : Out := .next ({ s with crcAcc := v }.ret .done)

/-- CRC_FEED (R97): `CRC_ACC <- crc_byte(CRC_ACC, b)`. -/
def execCrcFeed (b : Byte) (s : State) : Out := .next ({ s with crcAcc := crcByte s.crcAcc b }.ret .done)

/-- CRC_BLOCK (R98): the CRC of a buffer, left in `CRC_ACC` and returned. -/
def execCrcBlock (buf : BufRef) (len preload : U16) (s : State) : Out :=
  withBytes buf len.toNat s fun bs =>
    .next ({ s with crcAcc := crc16 bs preload }.ret (.crc (crc16 bs preload)))

/-- CRC_READ (R99): `return CRC_ACC`. -/
def execCrcRead (s : State) : Out := .next (s.ret (.crc s.crcAcc))

end Sys2Proof.Machine
end

