-- ==== Sys2Proof/Machine/Handlers.lean ====
section
/-! DEFINITION. The slave-side handlers over `pdu`, the parameters and the host (44_pdu_read.md R137 to R144, 45_pdu_write.md
R146 to R150, 46_pdu_dispatch.md R158, R159): each applies its checks in the order of R138 and calls a host capability only
after all of them. A handler's result stands beside the host's state after it. -/

namespace Sys2Proof.Machine

/-- The exception codes the block itself generates (30_encoding.md R85). -/
def illegalFunction : Byte := 0x01

/-- See `illegalFunction`. -/
def illegalDataAddress : Byte := 0x02

/-- See `illegalFunction`. -/
def illegalDataValue : Byte := 0x03

/-- See `illegalFunction`; a host may answer it, the block never does (R157). -/
def slaveDeviceFailure : Byte := 0x04

/-- `exc_pdu(fc, x) = [fc | 0x80, x]` (R156). -/
def excPdu (fc x : Byte) : List Byte := [fc ||| Config.exceptionBit, x]

/-- What a handler answers, and the host after it. -/
abbrev Handling : Type := Handled × HostState

/-- The answer of a get, encoded (R141, R143 "if r = Exc(X) then return Exc(X)"). -/
def encodeGet (enc : List U16 → List Byte) : Except Byte (List U16) × HostState → Handling
  | (.ok vs, h) => (.ok (enc vs), h)
  | (.error x, h) => (.exc x, h)

/-- The answer of a set: the response where it is `Ok`. -/
def answerSet (rsp : List Byte) : Option Byte × HostState → Handling
  | (none, h) => (.ok rsp, h)
  | (some x, h) => (.exc x, h)

/-- `[fc, ceil8(q)] ++ pack(values, q)` (R75, R141). -/
def bitsResponse (fc : Byte) (q : Nat) (vs : List U16) : List Byte :=
  fc :: BitVec.ofNat 8 (ceil8 q) :: pack (vs.map wordBool) q

/-- `[fc, 2*q] ++ words_be(values, q)` (R76, R143). -/
def regsResponse (fc : Byte) (q : Nat) (vs : List U16) : List Byte :=
  fc :: BitVec.ofNat 8 (2 * q) :: wordsBe vs q

/-- `read_bits` (R141) and `read_regs` (R143): they differ in the quantity limit and in the encoding. -/
def readTable (t : TableId) (qmax : Nat) (enc : Nat → List U16 → List Byte) (p : Params) (pdu : List Byte) (h : HostState) :
    Handling :=
  let a := (be16 pdu 1).toNat
  let q := (be16 pdu 3).toNat
  if !(p.table t).hasGet then (.exc illegalFunction, h)
  else if pdu.length ≠ 5 then (.exc illegalDataValue, h)
  else if q < 1 ∨ q > qmax then (.exc illegalDataValue, h)
  else if !rangeOk a q (p.table t).size then (.exc illegalDataAddress, h)
  else encodeGet (enc q) (hostGet t a q h)

/-- READ_COILS (R141). -/
def rdCoils : Params → List Byte → HostState → Handling :=
  readTable .coils Config.readBitsMax (bitsResponse 0x01)

/-- READ_DISCRETE_INPUTS (R142). -/
def rdDiscreteInputs : Params → List Byte → HostState → Handling :=
  readTable .discreteInputs Config.readBitsMax (bitsResponse 0x02)

/-- READ_HOLDING_REGISTERS (R143). -/
def rdHolding : Params → List Byte → HostState → Handling :=
  readTable .holdingRegisters Config.readRegsMax (regsResponse 0x03)

/-- READ_INPUT_REGISTERS (R144). -/
def rdInput : Params → List Byte → HostState → Handling :=
  readTable .inputRegisters Config.readRegsMax (regsResponse 0x04)

/-- The two write-single handlers (R146, R147): they differ in the table and in which values are legal. -/
def writeSingle (t : TableId) (legal : U16 → Bool) (value : U16 → U16) (p : Params) (pdu : List Byte) (h : HostState) :
    Handling :=
  let a := (be16 pdu 1).toNat
  let v := be16 pdu 3
  if !(p.table t).hasSet then (.exc illegalFunction, h)
  else if pdu.length ≠ 5 then (.exc illegalDataValue, h)
  else if !legal v then (.exc illegalDataValue, h)
  else if !rangeOk a 1 (p.table t).size then (.exc illegalDataAddress, h)
  else answerSet (pdu.take 5) (hostSet t a 1 [value v] h)

/-- WRITE_SINGLE_COIL (R146): 0xFF00 is 1, 0x0000 is 0, every other value is illegal. -/
def wrCoil : Params → List Byte → HostState → Handling :=
  writeSingle .coils (fun v => v == Config.coilOn || v == Config.coilOff) (fun v => boolWord (v == Config.coilOn))

/-- WRITE_SINGLE_REGISTER (R147), where `SUPPORT_FC06`. -/
def wrReg : Params → List Byte → HostState → Handling :=
  writeSingle .holdingRegisters (fun _ => true) (fun v => v)

/-- The two write-multiple handlers (R148, R149): they differ in the limit, the byte count and the decoding of the data. -/
def writeMulti (t : TableId) (qmax : Nat) (count : Nat → Nat) (dec : List Byte → Nat → List U16) (p : Params)
    (pdu : List Byte) (h : HostState) : Handling :=
  let a := (be16 pdu 1).toNat
  let q := (be16 pdu 3).toNat
  let n := (pdu.getD 5 0).toNat
  if !(p.table t).hasSet then (.exc illegalFunction, h)
  else if pdu.length < 6 then (.exc illegalDataValue, h)
  else if q < 1 ∨ q > qmax then (.exc illegalDataValue, h)
  else if n ≠ count q then (.exc illegalDataValue, h)
  else if pdu.length ≠ 6 + n then (.exc illegalDataValue, h)
  else if !rangeOk a q (p.table t).size then (.exc illegalDataAddress, h)
  else answerSet (pdu.take 5) (hostSet t a q (dec (pdu.drop 6) q) h)

/-- WRITE_MULTIPLE_COILS (R148). -/
def wrCoils : Params → List Byte → HostState → Handling :=
  writeMulti .coils Config.writeCoilsMax ceil8 (fun d q => (unpack d q).map boolWord)

/-- WRITE_MULTIPLE_REGISTERS (R149). -/
def wrRegs : Params → List Byte → HostState → Handling :=
  writeMulti .holdingRegisters Config.writeRegsMax (fun q => 2 * q) unwordsBe

/-- After the write of R150: its exception, or the read. -/
def thenGet (ra rq : Nat) : Option Byte × HostState → Handling
  | (some x, h) => (.exc x, h)
  | (none, h) => encodeGet (regsResponse 0x17 rq) (hostGet .holdingRegisters ra rq h)

/-- READ_WRITE_MULTIPLE_REGISTERS (R150): every check first, then the write, then the read; a write is not undone. -/
def wrRw (p : Params) (pdu : List Byte) (h : HostState) : Handling :=
  let t := p.table .holdingRegisters
  let ra := (be16 pdu 1).toNat
  let rq := (be16 pdu 3).toNat
  let wa := (be16 pdu 5).toNat
  let wq := (be16 pdu 7).toNat
  let n := (pdu.getD 9 0).toNat
  if !(t.hasGet && t.hasSet) then (.exc illegalFunction, h)
  else if pdu.length < 10 then (.exc illegalDataValue, h)
  else if wq < 1 ∨ wq > Config.rwWriteMax then (.exc illegalDataValue, h)
  else if n ≠ 2 * wq then (.exc illegalDataValue, h)
  else if pdu.length ≠ 10 + n then (.exc illegalDataValue, h)
  else if rq < 1 ∨ rq > Config.rwReadMax then (.exc illegalDataValue, h)
  else if !rangeOk wa wq t.size then (.exc illegalDataAddress, h)
  else if !rangeOk ra rq t.size then (.exc illegalDataAddress, h)
  else thenGet ra rq (hostSet .holdingRegisters wa wq (unwordsBe (pdu.drop 10) wq) h)

/-- DIAGNOSTICS (R158): only loopback, an exact echo. -/
def diag (pdu : List Byte) (h : HostState) : Handling :=
  if pdu.length < 3 then (.exc illegalDataValue, h)
  else if be16 pdu 1 ≠ Config.loopbackSub then (.exc illegalFunction, h)
  else (.ok pdu, h)

/-- The answer of a vendor callback (R159): nothing means no response, more than `MAX_PDU` bytes is refused. -/
def answerVendor : Except Byte (List Byte) × HostState → Handling
  | (.error x, h) => (.exc x, h)
  | (.ok rsp, h) =>
    if rsp.length = 0 then (.noResponse, h)
    else if rsp.length > Config.maxPdu then (.refuse .vendorOverlong, h)
    else (.ok rsp, h)

/-- The vendor handler (R159): the least index of `VENDOR` that holds the function code. -/
def vendorHandler (p : Params) (pdu : List Byte) (h : HostState) : Handling :=
  match p.vendor.findIdx? (· == pdu.headD 0) with
  | none => (.exc illegalFunction, h)
  | some i => answerVendor (hostVendor i pdu h)

/-- Function code 0x06: the handler of R147 where `SUPPORT_FC06`, "otherwise fc 0x06 is a vendor code". -/
def wrReg06 (p : Params) (pdu : List Byte) (h : HostState) : Handling :=
  if p.supportFc06 then wrReg p pdu h else vendorHandler p pdu h

/-- The `case fc of` of PDU_SERVE (R154). -/
def dispatch (p : Params) (pdu : List Byte) (h : HostState) : Handling :=
  match pdu.headD 0 with
  | 0x01#8 => rdCoils p pdu h
  | 0x02#8 => rdDiscreteInputs p pdu h
  | 0x03#8 => rdHolding p pdu h
  | 0x04#8 => rdInput p pdu h
  | 0x17#8 => wrRw p pdu h
  | 0x05#8 => wrCoil p pdu h
  | 0x06#8 => wrReg06 p pdu h
  | 0x0F#8 => wrCoils p pdu h
  | 0x10#8 => wrRegs p pdu h
  | 0x08#8 => diag pdu h
  | _ => vendorHandler p pdu h

/-- The function codes PDU_SERVE does not dispatch for a broadcast (R145, R154). -/
def readCodes : List Byte := [0x01, 0x02, 0x03, 0x04, 0x17]

end Sys2Proof.Machine
end

