-- ==== Sys2Proof/Machine/PduMaster.lean ====
section
/-! DEFINITION. The master-side codec commands (47_pdu_master.md R160 to R167) and the meaning of an exception response. -/

namespace Sys2Proof.Machine

/-- The result of a build command: code, request, length. The request is written into the response buffer. -/
def State.built (req : List Byte) (s : State) : State := (s.respond req).ret (.build .ok req)

/-- `return M_LOCAL_INVALID` of a build command. -/
def State.notBuilt (s : State) : State := s.ret (.build .localInvalid [])

/-- The quantity limit of a read request (R161); `none` for another function code. -/
def readLimit (fc : Byte) : Option Nat :=
  if fc = 0x01 ∨ fc = 0x02 then some Config.readBitsMax
  else if fc = 0x03 ∨ fc = 0x04 then some Config.readRegsMax
  else none

/-- PDU_BUILD_READ (R161). -/
def execPduBuildRead (unit fc : Byte) (a q : U16) (s : State) : Out :=
  if unit = 0 then .next s.notBuilt
  else
    match readLimit fc with
    | none => .next s.notBuilt
    | some qmax =>
      if q.toNat < 1 ∨ q.toNat > qmax then .next s.notBuilt
      else .next (s.built (fc :: pairBody a q))

/-- PDU_BUILD_WRITE_SINGLE (R162). -/
def execPduBuildWriteSingle (fc : Byte) (a v : U16) (s : State) : Out :=
  if fc = 0x05 ∧ v ≠ Config.coilOn ∧ v ≠ Config.coilOff then .next s.notBuilt
  else if fc ≠ 0x05 ∧ fc ≠ 0x06 then .next s.notBuilt
  else .next (s.built (fc :: pairBody a v))

/-- PDU_BUILD_WRITE_MULTI (R163): "A data operand with fewer than q elements gets `refuse BAD_BUFFER`", before the argument
checks (60_exceptions.md R174). Of these the function code is one too; where it is neither 0x0F nor 0x10 it names no kind of
element, and elements of either kind count (notes/assumptions/8.md). -/
def execPduBuildWriteMulti (fc : Byte) (a q data : U16) (s : State) : Out :=
  if fc = 0x0F then
    if (s.dataBits data).length < q.toNat then .next (s.refuse .badBuffer)
    else if q.toNat < 1 ∨ q.toNat > Config.writeCoilsMax then .next s.notBuilt
    else .next (s.built (0x0F :: writeMultiBody a q (pack (s.dataBits data) q.toNat)))
  else if fc = 0x10 then
    if (s.dataWords data).length < q.toNat then .next (s.refuse .badBuffer)
    else if q.toNat < 1 ∨ q.toNat > Config.writeRegsMax then .next s.notBuilt
    else .next (s.built (0x10 :: writeMultiBody a q (wordsBe (s.dataWords data) q.toNat)))
  else if s.dataCount data < q.toNat then .next (s.refuse .badBuffer)
  else .next s.notBuilt

/-- PDU_BUILD_LOOPBACK (R164), BAD_BUFFER first (60_exceptions.md R174). -/
def execPduBuildLoopback (data : BufRef) (dlen : U16) (s : State) : Out :=
  unlessShort data dlen.toNat s
    (if dlen.toNat > Config.maxPdu - 3 then .next s.notBuilt
    else withPdu data dlen.toNat s fun bs => .next (s.built (0x08 :: diagBody Config.loopbackSub bs)))

/-- PDU_BUILD_RAW (R165), BAD_BUFFER first (R174). -/
def execPduBuildRaw (data : BufRef) (dlen : U16) (s : State) : Out :=
  unlessShort data dlen.toNat s
    (if dlen.toNat < 1 ∨ dlen.toNat > Config.maxPdu then .next s.notBuilt
    else withPdu data dlen.toNat s fun bs => .next (s.built bs))

/-- The taxonomy code of an exception code (R160, R166). -/
def masterCode (x : Byte) : MasterCode :=
  match x with
  | 0x01#8 => .illegalFunction
  | 0x02#8 => .illegalDataAddress
  | 0x03#8 => .illegalDataValue
  | 0x04#8 => .slaveDeviceFailure
  | _ => .unknownException

/-- What PDU_PARSE_RSP finds; `none` where the context is shorter than the fields read from it (notes/assumptions/9.md). -/
abbrev Parsed : Type := Option (MasterCode × ParseData)

/-- `return M_MALFORMED_RESPONSE`. -/
def malformed : Parsed := some (.malformedResponse, .none)

/-- A read-bits response against its request (R166; R75). -/
def parseBits (ctx rsp : List Byte) : Parsed :=
  let q := (be16 ctx 3).toNat
  if ctx.length < 5 then none
  else if rsp.length ≠ 2 + ceil8 q ∨ (rsp.getD 1 0).toNat ≠ ceil8 q then malformed
  else some (.ok, .bits (unpack (rsp.drop 2) q))

/-- A read-registers response against its request (R166; R76). -/
def parseRegs (ctx rsp : List Byte) : Parsed :=
  let q := (be16 ctx 3).toNat
  if ctx.length < 5 then none
  else if rsp.length ≠ 2 + 2 * q ∨ (rsp.getD 1 0).toNat ≠ 2 * q then malformed
  else some (.ok, .words (unwordsBe (rsp.drop 2) q))

/-- A write response, which repeats the request's bytes 1 to 4 (R166). -/
def parseEcho (ctx rsp : List Byte) : Parsed :=
  if rsp.length ≠ 5 then malformed
  else if ctx.length < 5 then none
  else if rsp.drop 1 ≠ (ctx.take 5).drop 1 then malformed
  else some (.ok, .none)

/-- A loopback response, which repeats the whole request (R166). -/
def parseLoopback (ctx rsp : List Byte) : Parsed :=
  if rsp ≠ ctx then malformed else some (.ok, .none)

/-- A response without the exception bit, of the request's function code (R166). -/
def parseNormal (fc : Byte) (ctx rsp : List Byte) : Parsed :=
  match fc with
  | 0x01#8 => parseBits ctx rsp
  | 0x02#8 => parseBits ctx rsp
  | 0x03#8 => parseRegs ctx rsp
  | 0x04#8 => parseRegs ctx rsp
  | 0x05#8 => parseEcho ctx rsp
  | 0x06#8 => parseEcho ctx rsp
  | 0x0F#8 => parseEcho ctx rsp
  | 0x10#8 => parseEcho ctx rsp
  | 0x08#8 => parseLoopback ctx rsp
  | _ => some (.ok, .raw rsp)

/-- The decoding of a response against the request it answers (R166). -/
def parseRsp (ctx rsp : List Byte) : Parsed :=
  match ctx with
  | [] => none
  | fc :: _ =>
    match rsp with
    | [] => malformed
    | r0 :: rest =>
      if r0.getLsbD 7 then
        match rest with
        | [] => malformed
        | x :: _ => some (masterCode x, .none)
      else if r0 ≠ fc then malformed
      else parseNormal fc ctx rsp

/-- PDU_PARSE_RSP (R166) of two PDU buffers. DESIGN CHOICE: R174 does not rank the fault READ_UNWRITTEN against BAD_BUFFER; the
context is read first and the response after it, so with one of them short and the other unreadable the context's condition
is the one reported (notes/assumptions/31.md). -/
def execPduParseRsp (ctx : BufRef) (clen : U16) (rsp : BufRef) (len : U16) (s : State) : Out :=
  withPdu ctx clen.toNat s fun c =>
    withPdu rsp len.toNat s fun r =>
      match parseRsp c r with
      | none => .next (s.refuse .badBuffer)
      | some (code, d) => .next (s.ret (.parse code d))

/-- What the master makes of a response that stands by itself, with no request it answers (R160 "response does not match the
request", R166; notes/assumptions/21.md). -/
def parseAlone (rsp : List Byte) : MasterCode :=
  match rsp with
  | [] => .malformedResponse
  | [_] => .malformedResponse
  | r0 :: x :: _ => if r0.getLsbD 7 then masterCode x else .malformedResponse

/-- The function code for a use and a table selector (R167). -/
def selectCode (use : AddrUse) (sel : U16) : Option Byte :=
  match use with
  | .read =>
    if sel = 0 then some 0x01 else if sel = 1 then some 0x02
    else if sel = 3 then some 0x04 else if sel = 4 then some 0x03 else none
  | .write => if sel = 0 then some 0x0F else if sel = 4 then some 0x10 else none
  | .writeSingle => if sel = 0 then some 0x05 else if sel = 4 then some 0x06 else none

/-- "the engine subtracts 1 and masks to 16 bits" (R167). -/
def wireAddress (addr : U32) : U16 := addr.extractLsb' 0 16 - 1

/-- ADDR_SPLIT (R167). -/
def execAddrSplit (addr : U32) (use : AddrUse) (s : State) : Out :=
  match selectCode use (addr.extractLsb' 16 16) with
  | none => .next (s.ret (.splitFail .localInvalid))
  | some fc => .next (s.ret (.split fc (wireAddress addr)))

/-- EXCEPTION_RESPONSE (R84, R156): the codec's two bytes `[fc | 0x80, x]`, and what the master's decoding makes of them (R166
"translate the 1-byte exception code to the corresponding taxonomy entry"); see notes/assumptions/21.md. -/
def execExceptionResponse (fc : BitVec 7) (x : Byte) (s : State) : Out :=
  .next ((s.respond (excPdu (0#1 ++ fc) x)).ret (.excResponse (excPdu (0#1 ++ fc) x) (masterCode x)))

end Sys2Proof.Machine
end

