-- ==== Sys2Proof/Machine/PduRequests.lean ====
section
/-! DEFINITION. The meanings of the request PDUs (30_encoding.md R73): each runs its handler on the PDU made of its function
code and body. "The handlers are not commands of their own" (44_pdu_read.md, opening): PDU_SERVE selects them by function
code; here each stands by itself, and its result is the handler's (notes/assumptions/20.md). -/

namespace Sys2Proof.Machine

/-- A handler's result (R137): "`Ok(rsp)` stands for the length `len(rsp)` together with the bytes written". A refusal of the
vendor handler leaves what the callback did to the host (notes/assumptions/23.md). -/
def State.handled (r : Handling) (s : State) : State :=
  match r.1 with
  | .ok rsp => ({ s with host := r.2 }.respond rsp).ret (.handler (.ok rsp))
  | .exc x => { s with host := r.2 }.ret (.handler (.exc x))
  | .noResponse => { s with host := r.2 }.ret (.handler .noResponse)
  | .refuse why => { s with host := r.2 }.refuse why

/-- READ_COILS (R141). -/
def execReadCoils (body : List Byte) (s : State) : Out := .next (s.handled (rdCoils s.params (0x01 :: body) s.host))

/-- READ_DISCRETE_INPUTS (R142). -/
def execReadDiscreteInputs (body : List Byte) (s : State) : Out :=
  .next (s.handled (rdDiscreteInputs s.params (0x02 :: body) s.host))

/-- READ_HOLDING_REGISTERS (R143). -/
def execReadHoldingRegisters (body : List Byte) (s : State) : Out :=
  .next (s.handled (rdHolding s.params (0x03 :: body) s.host))

/-- READ_INPUT_REGISTERS (R144). -/
def execReadInputRegisters (body : List Byte) (s : State) : Out :=
  .next (s.handled (rdInput s.params (0x04 :: body) s.host))

/-- WRITE_SINGLE_COIL (R146). -/
def execWriteSingleCoil (body : List Byte) (s : State) : Out := .next (s.handled (wrCoil s.params (0x05 :: body) s.host))

/-- WRITE_SINGLE_REGISTER (R147). -/
def execWriteSingleRegister (body : List Byte) (s : State) : Out :=
  .next (s.handled (wrReg06 s.params (0x06 :: body) s.host))

/-- DIAGNOSTICS (R158). -/
def execDiagnostics (body : List Byte) (s : State) : Out := .next (s.handled (diag (0x08 :: body) s.host))

/-- WRITE_MULTIPLE_COILS (R148). -/
def execWriteMultipleCoils (body : List Byte) (s : State) : Out :=
  .next (s.handled (wrCoils s.params (0x0F :: body) s.host))

/-- WRITE_MULTIPLE_REGISTERS (R149). -/
def execWriteMultipleRegisters (body : List Byte) (s : State) : Out :=
  .next (s.handled (wrRegs s.params (0x10 :: body) s.host))

/-- READ_WRITE_MULTIPLE_REGISTERS (R150). -/
def execReadWriteMultipleRegisters (body : List Byte) (s : State) : Out :=
  .next (s.handled (wrRw s.params (0x17 :: body) s.host))

/-- VENDOR (R159). -/
def execVendor (fc : Byte) (body : List Byte) (s : State) : Out :=
  .next (s.handled (vendorHandler s.params (fc :: body) s.host))

end Sys2Proof.Machine
end

