-- ==== Sys2Proof/Machine/PduServe.lean ====
section
/-! DEFINITION. The slave-side codec commands PDU_SERVE and PDU_EXC (46_pdu_dispatch.md R154 to R156). -/

namespace Sys2Proof.Machine

/-- The reply of PDU_SERVE: suppressed for a broadcast (R154 step "if bcast then return NONE"). -/
def State.reply (bcast : Bool) (rsp : List Byte) (s : State) : State :=
  if bcast then s.ret .noReply else (s.respond rsp).ret (.response rsp)

/-- What PDU_SERVE makes of a handler's result (R154). -/
def State.served (fc : Byte) (bcast : Bool) (r : Handling) (s : State) : State :=
  match r.1 with
  | .ok rsp => { s with host := r.2 }.reply bcast rsp
  | .exc x => { s with host := r.2 }.reply bcast (excPdu fc x)
  | .noResponse => { s with host := r.2 }.ret .noReply
  | .refuse why => { s with host := r.2 }.refuse why

/-- The dispatch of a request that has been read (R154). -/
def State.serve (bcast : Bool) (pdu : List Byte) (s : State) : State :=
  match pdu with
  | [] => s.ret .noReply
  | fc :: _ =>
    if bcast && readCodes.contains fc then s.ret .noReply
    else s.served fc bcast (dispatch s.params pdu s.host)

/-- PDU_SERVE (R154), in one action with the host's answers (R155; notes/assumptions/10.md). -/
def execPduServe (pdu : BufRef) (len : U16) (bcast : Bool) (s : State) : Out :=
  if len.toNat > Config.maxPdu then .next (s.refuse .badLen)
  else withPdu pdu len.toNat s fun bs => .next (s.serve bcast bs)

/-- PDU_EXC (R156). -/
def execPduExc (fc x : Byte) (s : State) : Out :=
  .next ((s.respond (excPdu fc x)).ret (.excPdu (excPdu fc x)))

end Sys2Proof.Machine
end

