-- ==== Sys2Proof/Machine/RtuConfig.lean ====
section
/-! DEFINITION. The timing arithmetic, the configuration commands and the transport capabilities of an RTU instance
(41_rtu_config.md R101 to R113). -/

namespace Sys2Proof.Machine

/-- `ct` of R101: the character time, truncated to whole microseconds first. -/
def charTimeUs (b : Nat) : Nat :=
  if b > Config.fastBaudThreshold then Config.fastCharUs else Config.charTimeNumerator / b

/-- `timing(B)` (R101): 1.5 and 3.5 character times, each truncated. -/
def timing (b : Nat) : Nat × Nat := (3 * charTimeUs b / 2, 7 * charTimeUs b / 2)

/-- `CFG_BAUD <- b` and the recomputed intervals, programmed into the timers while up (R106). -/
def Framer.configure (b : U32) (i : Framer) : Framer :=
  let t1 := BitVec.ofNat 32 (timing b.toNat).1
  let t3 := BitVec.ofNat 32 (timing b.toNat).2
  let i' := { i with cfgBaud := b, t1p5Us := t1, t3p5Us := t3 }
  if i.down then i' else i'.timerInit t1 t3

/-- The effect of RTU_BRINGUP on a configured instance (R108). -/
def Framer.bringup (i : Framer) : Framer :=
  { (i.timerInit i.t1p5Us i.t3p5Us).clear (evTxEmptyMask ||| evRxMask ||| evT1p5Mask ||| evT3p5Mask) with down := false }

/-- RTU_CFG_BAUD (R106). -/
def execRtuCfgBaud (inst : U16) (b : U32) (s : State) : Out :=
  onIdle inst s fun i =>
    if b = 0 then .next (s.ret (.status .badArg))
    else .next ((s.setFramer inst.toNat (i.configure b)).ret (.status .ok))

/-- RTU_CFG_SLAVE (R107). -/
def execRtuCfgSlave (inst : U16) (d : Byte) (s : State) : Out :=
  onIdle inst s fun i => .next ((s.setFramer inst.toNat { i with slaveId := d }).ret (.status .ok))

/-- RTU_BRINGUP (R108). -/
def execRtuBringup (inst : U16) (s : State) : Out :=
  onIdle inst s fun i =>
    if i.cfgBaud = 0 then .next (s.ret (.status .notConfigured))
    else .next ((s.setFramer inst.toNat i.bringup).ret (.status .ok))

/-- RTU_SHUTDOWN (R109). -/
def execRtuShutdown (inst : U16) (s : State) : Out :=
  onIdle inst s fun i => .next ((s.setFramer inst.toNat { i with down := true }).ret (.status .ok))

/-- RTU_IS_DOWN (R110). It may be issued while busy. -/
def execRtuIsDown (inst : U16) (s : State) : Out :=
  onFramer inst s fun i => .next (s.ret (.flag i.down))

/-- RTU_RX_IS_BCAST (R111). -/
def execRtuRxIsBcast (inst : U16) (s : State) : Out :=
  onFramer inst s fun i => .next (s.ret (.flag i.bcast))

/-- RTU_RX_AVAIL (R112): `return StreamAvail() > 0`. -/
def execRtuRxAvail (inst : U16) (s : State) : Out :=
  onFramer inst s fun i => .next (s.ret (.flag (decide (0 < i.streamAvail))))

/-- RTU_STATUS (R113). -/
def execRtuStatus (inst : U16) (s : State) : Out :=
  onFramer inst s fun i =>
    .next (s.ret (.framerStatus i.phase i.op i.cfgBaud i.t1p5Us i.t3p5Us i.slaveId))

end Sys2Proof.Machine
end

