-- ==== Sys2Proof/Machine/RtuRx.lean ====
section
/-! DEFINITION. RTU_RX: its entry and the actions of its phases (42_rtu_rx.md R114 to R126). -/

namespace Sys2Proof.Machine

/-- `complete(s)` (R125), the registers. DESIGN CHOICE: R32 defines the other receive registers only while `OP = RX` and at its
completion; as R125 writes none of them, they keep their values after it (notes/assumptions/32.md). -/
def Framer.rxComplete (st : Status) (i : Framer) : Framer :=
  { i with
    rxStatus := st
    rxPduLen := if st = .ok then i.rxPduLen else 0
    bcast := decide (st = .ok) && decide (i.rxUnit = Config.broadcastId)
    op := .none
    phase := .idle }

/-- `complete(s)` (R125), the value returned. -/
def Framer.rxResult (n : Nat) (i : Framer) : Result :=
  if i.rxStatus = .ok then .rxOk n i.rxUnit (i.rxbuf.take i.rxPduLen) else .rxFail n i.rxStatus

/-- The entry action of RTU_RX on an instance that is up (R116). -/
def Framer.rxEnter (tmo : U32) (i : Framer) : Framer :=
  { i.clear evRxMask with
    op := .rx
    rxTmo := tmo
    rxbuf := []
    frameOk := true
    rxCrc := Config.crcPreload
    phase := .rxWaitStart }

/-- The action of phase RX_WAIT_START: the byte read is the unit id (R117). -/
def Framer.rxStart (b : Byte) (rest : List Byte) (i : Framer) : Framer :=
  { i.clear evRxMask with
    rxfifo := rest
    rxUnit := b
    rxCrc := crcByte Config.crcPreload b
    phase := .rxBody }

/-- `store(b)` (R120). -/
def Framer.store (i : Framer) (b : Byte) : Framer :=
  if i.rxbuf.length < Config.rxbufCap then
    { i with rxbuf := i.rxbuf ++ [b], rxCrc := crcByte i.rxCrc b }
  else { i with frameOk := false }

/-- Store bytes in order. -/
def Framer.stores (i : Framer) : List Byte → Framer
  | [] => i
  | b :: bs => Framer.stores (i.store b) bs

/-- Step DRAIN of phase RX_BODY (R119): every available byte is stored. -/
def Framer.rxDrain (i : Framer) : Framer :=
  ({ i.clear evRxMask with rxfifo := [] } : Framer).stores i.rxfifo

/-- `unit_check()` (R124). -/
def Framer.unitCheck (i : Framer) : Framer :=
  if i.rxUnit ≠ i.slaveId ∧ i.rxUnit ≠ Config.broadcastId then i.rxComplete .slaveId
  else ({ i with rxPduLen := i.rxbuf.length - 2 } : Framer).rxComplete .ok

/-- `validate()` (R123): the first failing check gives the status. -/
def Framer.validate (i : Framer) : Framer :=
  if i.frameOk = false then i.rxComplete .frameNok
  else if i.rxbuf.length < 3 then i.rxComplete .frameNok
  else if i.rxCrc ≠ 0 then i.rxComplete .crcFail
  else i.unitCheck

/-- Step NOISE of phase RX_EOF (R122): every available byte is discarded. -/
def Framer.rxNoise (i : Framer) : Framer :=
  ({ i.clear evRxMask with rxfifo := [], frameOk := false } : Framer).rxComplete .frameNok

/-- RTU_RX (R116): the entry, or completion with `DOWN`. What follows are controller steps (Machine/Controller.lean). -/
def execRtuRx (inst : U16) (tmo : U32) (s : State) : Out :=
  onIdle inst s fun i =>
    if i.down then
      .next ((s.setFramer inst.toNat (i.rxComplete .down)).ret ((i.rxComplete .down).rxResult inst.toNat))
    else .next (s.setFramer inst.toNat (i.rxEnter tmo))

end Sys2Proof.Machine
end

