-- ==== Sys2Proof/Machine/RtuTx.lean ====
section
/-! DEFINITION. RTU_TX: its entry and the actions of its phases (43_rtu_tx.md R130 to R133). -/

namespace Sys2Proof.Machine

/-- The ADU of a unit id and a PDU (30_encoding.md R70). -/
def adu (unit : Byte) (pdu : List Byte) : List Byte := unit :: (pdu ++ putLe16 (aduCrc unit pdu))

/-- The entry action of RTU_TX (R130). -/
def Framer.txEnter (p : Params) (unit : Byte) (pdu : List Byte) (i : Framer) : Framer :=
  { ((i.setDe p true).clear evTxEmptyMask).streamWriteAll (adu unit pdu) with
    txUnit := unit
    txAdu := adu unit pdu
    op := .tx
    phase := .txWaitDone }

/-- Whether the drain wait of phase TX_WAIT_DONE is over (R132). -/
def Framer.txDone (p : Params) (i : Framer) : Bool := if p.txIrq then i.evTxEmpty else i.txQueueEmpty

/-- The action of phase TX_WAIT_DONE (R132). -/
def Framer.txRelease (p : Params) (i : Framer) : Framer :=
  { ((i.setDe p false).clear evT3p5Mask).timerStart3 with phase := .txGuard }

/-- The action of phase TX_GUARD (R133). DESIGN CHOICE: R34 defines `TX_UNIT` and `TX_ADU` only while `OP = TX`; as R133 writes
neither, they keep the last frame's values after it (notes/assumptions/32.md). -/
def Framer.txFinish (i : Framer) : Framer := { i with txStatus := .ok, op := .none, phase := .idle }

/-- A status return of RTU_TX "also writes `TX_STATUS`" (R130). -/
def State.txReturn (n : Nat) (st : Status) (i : Framer) (s : State) : State :=
  (s.setFramer n { i with txStatus := st }).ret (.tx n st)

/-- RTU_TX (R130): BUSY, BAD_BUFFER, BAD_ARG, DOWN in the order of R174 (notes/assumptions/8.md), then the entry. -/
def execRtuTx (inst : U16) (unit : Byte) (pdu : BufRef) (len : U16) (s : State) : Out :=
  onIdle inst s fun i =>
    unlessShort pdu len.toNat s
      (if len.toNat < 1 ∨ len.toNat > Config.maxPdu then .next (s.txReturn inst.toNat .badArg i)
      else if i.down then .next (s.txReturn inst.toNat .down i)
      else withPdu pdu len.toNat s fun bs => .next (s.setFramer inst.toNat (i.txEnter s.params unit bs)))

end Sys2Proof.Machine
end

