-- ==== Sys2Proof/Machine/Controller.lean ====
section
/-! DEFINITION. The framer controller's guarded steps (42_rtu_rx.md R114) and the environment events (60_exceptions.md R175
to R178, 42_rtu_rx.md R118) on one instance, and both on the whole state. `none` says that the action is not enabled. -/

namespace Sys2Proof.Machine

/-- One controller step (R117, R119, R121, R122, R132, R133). -/
def Framer.control (p : Params) (i : Framer) : Option Framer :=
  match i.phase with
  | .idle => none
  | .rxWaitStart =>
    match i.rxfifo with
    | [] => none
    | b :: rest => some (i.rxStart b rest)
  | .rxBody =>
    if 0 < i.streamAvail then some i.rxDrain
    else if i.evT1p5 then some { i with phase := .rxEof } else none
  | .rxEof =>
    if 0 < i.streamAvail then some i.rxNoise
    else if i.evT3p5 then some i.validate else none
  | .txWaitDone => if i.txDone p then some (i.txRelease p) else none
  | .txGuard => if i.evT3p5 then some i.txFinish else none

/-- The byte-arrival hook (R175). -/
def Framer.byteHook (b : Byte) (i : Framer) : Framer :=
  ((({ i with rxfifo := i.rxfifo ++ [b] } : Framer).raise evRxMask).clear (evT1p5Mask ||| evT3p5Mask)).timerStart1.timerStart3

/-- An environment event, where it is enabled. -/
def Framer.event (e : EnvEvent) (i : Framer) : Option Framer :=
  match e with
  | .byte b => some (i.byteHook b)
  | .expireT1p5 => if i.tmr1 = .running then some (({ i with tmr1 := .stopped } : Framer).raise evT1p5Mask) else none
  | .expireT3p5 => if i.tmr3 = .running then some (({ i with tmr3 := .stopped } : Framer).raise evT3p5Mask) else none
  | .txStep =>
    match i.txq with
    | [] => none
    | b :: rest =>
      let i' := { i with wireOut := i.wireOut ++ [b], txq := rest }
      some (if rest = [] then i'.raise evTxEmptyMask else i')
  | .rxTimeout =>
    if i.phase = .rxWaitStart ∧ i.rxTmo ≠ 0 ∧ i.streamAvail = 0 then some (i.rxComplete .timeout) else none

/-- What an action that ends a framer command returns to the host (R125, R133). -/
def Framer.completion (n : Nat) (before after : Framer) : Option Result :=
  match before.op, after.op with
  | .rx, .none => some (after.rxResult n)
  | .tx, .none => some (.tx n after.txStatus)
  | _, _ => none

/-- Instance `n` has moved. -/
def State.moved (n : Nat) (before after : Framer) (s : State) : State :=
  match Framer.completion n before after with
  | some r => (s.setFramer n after).ret r
  | none => s.setFramer n after

/-- Perform an action on instance `n`. An action that is not enabled, or of an instance that does not exist, does not happen:
the state stays as it is (notes/assumptions/16.md). -/
def State.act (n : Nat) (f : Framer → Option Framer) (s : State) : State :=
  match s.framers[n]? with
  | none => s
  | some i =>
    match f i with
    | none => s
    | some i' => s.moved n i i'

/-! ### The arrival of a whole frame

"with the controller taking every enabled step between events" (95_test_vectors.md section 4). -/

/-- Take enabled controller steps, at most `n`. -/
def Framer.settle (p : Params) : Nat → Framer → Framer
  | 0, i => i
  | n + 1, i =>
    match i.control p with
    | none => i
    | some i' => Framer.settle p n i'

/-- No more than four controller steps follow one another without an event: start, drain, end of body, end of frame. -/
def settleSteps : Nat := 4

/-- An event, where it is enabled, and then every enabled controller step. -/
def Framer.eventSettle (p : Params) (e : EnvEvent) (i : Framer) : Framer :=
  match i.event e with
  | none => i
  | some i' => Framer.settle p settleSteps i'

/-- Bytes that arrive one after the other with no silence between them. -/
def Framer.arrive (p : Params) (i : Framer) : List Byte → Framer
  | [] => i
  | b :: bs => Framer.arrive p (i.eventSettle p (.byte b)) bs

/-- A frame and the silence that ends it: its bytes, then T1P5 and T3P5 of silence (30_encoding.md R70 "Its end is the T1P5
silence"; 42_rtu_rx.md R121). -/
def Framer.frame (p : Params) (bs : List Byte) (i : Framer) : Framer :=
  ((i.arrive p bs).eventSettle p .expireT1p5).eventSettle p .expireT3p5

/-- Bytes on the wire of an instance, and the silence after them. -/
def State.wireArrival (inst : U16) (bytes : List Byte) (s : State) : State :=
  s.act inst.toNat fun i => some (i.frame s.params bytes)

end Sys2Proof.Machine
end

