-- ==== Sys2Proof/Machine/Wire.lean ====
section
/-! DEFINITION. The meaning of an RTU ADU: a frame on the wire of an instance (30_encoding.md R70, 42_rtu_rx.md R128). -/

namespace Sys2Proof.Machine

/-- RTU_ADU (R70): the frame arrives at the instance's byte stream, byte by byte with gaps below T1P5 and then T3P5 of silence,
the framer controller taking every enabled step between events (notes/assumptions/22.md). Every other arrival is a list of
environment events. -/
def execRtuAdu (inst : U16) (unit : Byte) (pdu : List Byte) (crc : U16) (s : State) : Out :=
  .next (s.wireArrival inst (unit :: (pdu ++ putLe16 crc)))

end Sys2Proof.Machine
end

