-- ==== Sys2Proof/Machine/Dispatch.lean ====
section
/-! DEFINITION. The dispatch: one arm per row of the opcode table. -/

namespace Sys2Proof.Machine

def exec (i : Instr) (s : State) : Host.Outcome State Fault Refusal :=
  match i with
  | .crcLoad v => Sys2Proof.Machine.execCrcLoad v s
  | .crcFeed b => Sys2Proof.Machine.execCrcFeed b s
  | .crcBlock buf len pre => Sys2Proof.Machine.execCrcBlock buf len pre s
  | .crcRead => Sys2Proof.Machine.execCrcRead s
  | .rtuCfgBaud inst b => Sys2Proof.Machine.execRtuCfgBaud inst b s
  | .rtuCfgSlave inst d => Sys2Proof.Machine.execRtuCfgSlave inst d s
  | .rtuBringup inst => Sys2Proof.Machine.execRtuBringup inst s
  | .rtuShutdown inst => Sys2Proof.Machine.execRtuShutdown inst s
  | .rtuIsDown inst => Sys2Proof.Machine.execRtuIsDown inst s
  | .rtuTx inst unit pdu len => Sys2Proof.Machine.execRtuTx inst unit pdu len s
  | .rtuRx inst tmo => Sys2Proof.Machine.execRtuRx inst tmo s
  | .rtuRxIsBcast inst => Sys2Proof.Machine.execRtuRxIsBcast inst s
  | .rtuRxAvail inst => Sys2Proof.Machine.execRtuRxAvail inst s
  | .rtuStatus inst => Sys2Proof.Machine.execRtuStatus inst s
  | .pduServe pdu len bcast => Sys2Proof.Machine.execPduServe pdu len bcast s
  | .pduExc fc x => Sys2Proof.Machine.execPduExc fc x s
  | .pduBuildRead unit fc a q => Sys2Proof.Machine.execPduBuildRead unit fc a q s
  | .pduBuildWriteSingle fc a v => Sys2Proof.Machine.execPduBuildWriteSingle fc a v s
  | .pduBuildWriteMulti fc a q data => Sys2Proof.Machine.execPduBuildWriteMulti fc a q data s
  | .pduBuildLoopback data dlen => Sys2Proof.Machine.execPduBuildLoopback data dlen s
  | .pduBuildRaw data dlen => Sys2Proof.Machine.execPduBuildRaw data dlen s
  | .pduParseRsp ctx clen rsp len => Sys2Proof.Machine.execPduParseRsp ctx clen rsp len s
  | .addrSplit addr use => Sys2Proof.Machine.execAddrSplit addr use s
  | .readCoils body => Sys2Proof.Machine.execReadCoils body s
  | .readDiscreteInputs body => Sys2Proof.Machine.execReadDiscreteInputs body s
  | .readHoldingRegisters body => Sys2Proof.Machine.execReadHoldingRegisters body s
  | .readInputRegisters body => Sys2Proof.Machine.execReadInputRegisters body s
  | .writeSingleCoil body => Sys2Proof.Machine.execWriteSingleCoil body s
  | .writeSingleRegister body => Sys2Proof.Machine.execWriteSingleRegister body s
  | .diagnostics body => Sys2Proof.Machine.execDiagnostics body s
  | .writeMultipleCoils body => Sys2Proof.Machine.execWriteMultipleCoils body s
  | .writeMultipleRegisters body => Sys2Proof.Machine.execWriteMultipleRegisters body s
  | .readWriteMultipleRegisters body => Sys2Proof.Machine.execReadWriteMultipleRegisters body s
  | .vendor fc body => Sys2Proof.Machine.execVendor fc body s
  | .exceptionResponse fc x => Sys2Proof.Machine.execExceptionResponse fc x s
  | .rtuAdu inst unit pdu crc => Sys2Proof.Machine.execRtuAdu inst unit pdu crc s

end Sys2Proof.Machine
end

