-- ==== Sys2Proof/Machine/Inputs.lean ====
section
/-! DEFINITION. What each input of the host and the environment does (20_memory.md R60: each is one atomic action), and how
the word of an opcode-table row is presented to the block. -/

namespace Sys2Proof.Machine

/-- Bytes at the command port that are no command. "A host that issues a reserved code gets `refuse RESERVED_CMD`" (30_encoding.md
R69). Of a malformed command (another length, an operand byte outside its domain) the block can make no command either, and
it is refused the same way (00_scope.md R14, 92_eei_decisions.md D53 "The command must be decodable before its instance"), but
for a `use` outside its three values, which falls under R167's `otherwise` (notes/assumptions/2.md). -/
def rejectCommand (e : DecodeError) (s : State) : State :=
  match e with
  | .badUse => s.ret (.splitFail .localInvalid)
  | .reservedCommand _ => s.refuse .reservedCmd
  | .wrongLength _ => s.refuse .reservedCmd
  | .badRef => s.refuse .reservedCmd
  | .badBool => s.refuse .reservedCmd
  | .empty => s.refuse .reservedCmd
  | .pduTooLong => s.refuse .reservedCmd
  | .notExceptionResponse => s.refuse .reservedCmd
  | .notAdu => s.refuse .reservedCmd

/-- Bytes that are no instruction of their port, each with the effect the spec gives it: a request PDU of no bytes is not
dispatched, and one of more than `MAX_PDU` is refused BAD_LEN (46_pdu_dispatch.md R154); a response is decoded as far as it
can be alone (`parseAlone`); bytes on the wire arrive, whether they make an ADU or not (60_exceptions.md R175). -/
def reject (p : Port) (bytes : List Byte) (e : DecodeError) (s : State) : State :=
  match p with
  | .command => rejectCommand e s
  | .request => if bytes = [] then s.ret .noReply else s.refuse .badLen
  | .response => s.ret (.parse (parseAlone bytes) .none)
  | .wire inst => s.wireArrival inst bytes

/-- Decode what stands at a port and run it. -/
def present (p : Port) (bytes : List Byte) (s : State) : Out :=
  match decode p bytes with
  | .ok i => exec i s
  | .error e => .next (reject p bytes e s)

/-- The host's read of one byte of `RXBUF` (10_state.md R36): below `RX_PDU_LEN` after an `OK` receive, else READ_UNWRITTEN
(R46). DEDUCED: of an instance that does not exist it is refused BAD_INST, as 93_implementation_defined.md U12 treats every
such instance number; R172 names framer commands only (notes/assumptions/28.md). -/
def readRxbuf (inst index : Nat) (s : State) : Out :=
  match s.framers[inst]? with
  | none => .next (s.refuse .badInst)
  | some i =>
    match i.readable[index]? with
    | some b => .next (s.ret (.byte b))
    | none => .fault .readUnwritten

/-- The host gives one of its byte buffers new contents. -/
def State.setBuffer (n : U16) (bytes : List Byte) (s : State) : State :=
  { s with mem := (s.mem.drop n).writes (bufAddr n 0) (bytes.take bufferSpan) }

/-- The host gives one of its element buffers new contents. -/
def State.setData (n : U16) (e : Elems) (s : State) : State := { s with data := assocPut n.toNat e s.data }

/-- Reset (70_reset_and_hazards.md R185): the whole block, every instance and its environment. The parameters and what the host
owns stay (R186 "reset leaves them as the host has them", R188; notes/assumptions/14.md). -/
def State.resetBlock (s : State) : State :=
  { State.resetWith s.params s.framers.length s.host with mem := s.mem, data := s.data, inputs := s.inputs }

/-- One input. -/
def runInput (inp : Input) (s : State) : Out :=
  match inp with
  | .port p bytes => present p bytes s
  | .env inst e => .next (s.act inst (Framer.event e))
  | .controller inst => .next (s.act inst (Framer.control s.params))
  | .readRxbuf inst index => readRxbuf inst index s
  | .setBuffer n bytes => .next (s.setBuffer n bytes)
  | .setData n e => .next (s.setData n e)
  | .pokeTables ps => .next { s with host := s.host.pokes ps }
  | .answer a => .next { s with host := { s.host with answers := s.host.answers ++ [a] } }
  | .reset => .next s.resetBlock

/-- The oldest pending input; with none, the block waits (R185 "it waits for the host's first command"). -/
def stepInputs (s : State) : Out :=
  match s.inputs with
  | [] => .next s
  | inp :: rest => runInput inp { s with inputs := rest }

/-- The input that presents an opcode-table word. -/
def tableWordInput (nbits w : Nat) : Input := .port (tableInput nbits w).1 (tableInput nbits w).2

end Sys2Proof.Machine
end

