-- ==== Sys2Proof/Machine/Step.lean ====
section
/-! DEFINITION. The step, and the presentation of one instruction to it. -/

namespace Sys2Proof.Machine

/-- One atomic action of the block, its host or its environment (20_memory.md R60). -/
def step (s : State) : Host.Outcome State Fault Refusal := stepInputs s

/-- The state whose next step runs the instruction whose first `nbits` bits are `w`: it is presented before every pending
input. -/
def State.withFetchWord (s : State) (nbits w : Nat) : State := { s with inputs := tableWordInput nbits w :: s.inputs }

end Sys2Proof.Machine
end

