-- ==== Sys2Proof/Safety.lean ====
section
/-! DEFINITION. What the claims are stated in: the invariant of the machine, a run without a host-contract violation, and the
premise TIMING_HONEST and the fairness duties (60_exceptions.md R177, R178). -/

namespace Sys2Proof.Machine

/-! ### The invariant of one instance -/

/-- `OP` is the command of `PHASE` (10_state.md R22, R23), and a command runs only while up (R30, 41_rtu_config.md R109). -/
abbrev Framer.SequencingOk (i : Framer) : Prop :=
  i.op = i.phase.command ∧ (i.op ≠ .none → i.down = false)

/-- An instance that is up is configured (R108), the intervals are those of `CFG_BAUD` (R25), and while up they are programmed
into the timers (R106, R108). -/
abbrev Framer.ConfigOk (i : Framer) : Prop :=
  (i.down = false → i.cfgBaud ≠ 0) ∧
  (i.cfgBaud = 0 → i.t1p5Us = 0 ∧ i.t3p5Us = 0) ∧
  (i.cfgBaud ≠ 0 →
    i.t1p5Us.toNat = (timing i.cfgBaud.toNat).1 ∧ i.t3p5Us.toNat = (timing i.cfgBaud.toNat).2) ∧
  (i.down = false → i.interval1 = i.t1p5Us ∧ i.interval3 = i.t3p5Us)

/-- `EV_RX` stands for a byte in `RXFIFO` (42_rtu_rx.md R114), `EV_TX_EMPTY` for an empty `TXQ` (60_exceptions.md R178), and a
timer that runs has not raised its flag (R175, R176). -/
abbrev Framer.FlagsOk (i : Framer) : Prop :=
  (i.evRx = true → i.rxfifo ≠ []) ∧
  (i.evTxEmpty = true → i.txq = []) ∧
  (i.tmr1 = .running → i.evT1p5 = false) ∧
  (i.tmr3 = .running → i.evT3p5 = false)

/-- `RXBUF` never overflows (R120), nothing is stored before the unit id (R116), and while the body is captured `RX_CRC` is the
CRC of the unit id and the stored bytes (R123). -/
abbrev Framer.CaptureOk (i : Framer) : Prop :=
  i.rxbuf.length ≤ Config.rxbufCap ∧
  (i.phase = .rxWaitStart → i.rxbuf = [] ∧ i.frameOk = true) ∧
  (i.phase = .rxBody ∨ i.phase = .rxEof → i.rxCrc = crc16 (i.rxUnit :: i.rxbuf) Config.crcPreload)

/-- `RX_PDU_LEN` is 0 after a failed receive and two less than `RXLEN` after a good one; `BCAST` is set only by an `OK` receive
of unit 0 (R124, R125). The last two clauses speak of registers that R32 defines at the completion and the model keeps until
the next RTU_RX (notes/assumptions/32.md). -/
abbrev Framer.ReceivedOk (i : Framer) : Prop :=
  i.rxPduLen ≤ Config.maxPdu ∧
  (i.rxStatus ≠ .ok → i.rxPduLen = 0 ∧ i.bcast = false) ∧
  (i.op ≠ .rx → i.rxPduLen ≠ 0 → i.rxPduLen + 2 = i.rxbuf.length) ∧
  (i.op ≠ .rx → i.bcast = true → i.rxUnit = Config.broadcastId)

/-- `DE` is 1 exactly from RTU_TX entry to the end of the drain wait, and only with the line present (43_rtu_tx.md R136). Bytes
wait in `TXQ` only then; what of `TX_ADU` is no longer in `TXQ` ends `WIRE_OUT` (R131). -/
abbrev Framer.TransmitOk (p : Params) (i : Framer) : Prop :=
  i.de = (p.dePresent && decide (i.phase = .txWaitDone)) ∧
  (i.phase ≠ .txWaitDone → i.txq = []) ∧
  (i.phase = .txWaitDone → i.txq <:+ i.txAdu ∧ i.txAdu.take (i.txAdu.length - i.txq.length) <:+ i.wireOut) ∧
  (i.phase = .txGuard → i.txAdu <:+ i.wireOut)

/-- The invariant of one instance. -/
abbrev Framer.Inv (p : Params) (i : Framer) : Prop :=
  i.SequencingOk ∧ i.ConfigOk ∧ i.FlagsOk ∧ i.CaptureOk ∧ i.ReceivedOk ∧ i.TransmitOk p

/-! ### The invariant of the machine -/

/-- The tables have the configured sizes (10_state.md R42). -/
abbrev HostState.Sized (p : Params) (h : HostState) : Prop :=
  h.coils.length = p.coils.size ∧
  h.discreteInputs.length = p.discreteInputs.size ∧
  h.inputRegisters.length = p.inputRegisters.size ∧
  h.holdingRegisters.length = p.holdingRegisters.size

/-- The domains of the parameters (00_scope.md R8): `SIZE` is 0 to 65536 for each table. -/
abbrev ParamsBounded (p : Params) : Prop :=
  p.coils.size ≤ 65536 ∧ p.discreteInputs.size ≤ 65536 ∧ p.inputRegisters.size ≤ 65536 ∧ p.holdingRegisters.size ≤ 65536

/-- The invariant: every instance's, memory and the element buffers in canonical form, tables of the configured sizes, parameters
in their domains and at least one instance (R8). -/
abbrev State.Inv (s : State) : Prop :=
  (∀ i ∈ s.framers, i.Inv s.params) ∧ s.mem.wf ∧ assocWf s.data ∧ s.host.Sized s.params ∧ ParamsBounded s.params ∧ s.framers ≠ []

/-! ### Runs -/

/-- No host-contract violation so far: a claim about a run takes it as a premise, since the spec gives a refused run no meaning
(00_scope.md R14, 60_exceptions.md R172). -/
abbrev State.Clean (s : State) : Prop := s.refused = false

/-- Run pending inputs one after the other, stopping at a fault or a refusal of the model. -/
def runInputs : List Input → State → Out
  | [], s => .next s
  | inp :: rest, s => Out.andThen (runInput inp s) (runInputs rest)

/-! ### Operand buffers, families, stored bytes -/

/-- The operand buffer begins with these bytes: the host's buffer holds them, or they begin what may be read of the instance's
`RXBUF` (20_memory.md R49, 10_state.md R46). -/
abbrev State.Holds (r : BufRef) (bs : List Byte) (s : State) : Prop :=
  match r with
  | .host n => ∀ k < bs.length, s.mem.read (bufAddr n k) = bs[k]?
  | .rx n => bs = [] ∨ ∃ i ∈ s.framers[n.toNat]?, bs <+: i.readable

/-- The operand buffer is "shorter than its stated length" (60_exceptions.md R172): one of its first `n` bytes holds no value,
it is the `RXBUF` of an instance that does not exist, or `n` is more than the 255 bytes of an `RXBUF` (20_memory.md R49;
notes/assumptions/3.md). -/
abbrev State.Short (r : BufRef) (n : Nat) (s : State) : Prop :=
  match r with
  | .host k => ∃ j < n, s.mem.read (bufAddr k j) = none
  | .rx k =>
    (s.framers[k.toNat]? = none ∧ 0 < n) ∨
      ∃ i ∈ s.framers[k.toNat]?, i.readable.length < n ∧ Config.rxbufCap < n

/-- A PDU buffer operand is shorter than its stated length: so is the buffer, or the length is more than `MAX_PDU`, the capacity of
a PDU buffer of the host (20_memory.md R49). -/
abbrev State.ShortPdu (r : BufRef) (n : Nat) (s : State) : Prop :=
  s.Short r n ∨ (r.isHost = true ∧ Config.maxPdu < n)

/-- A PDU buffer operand begins with these bytes, and as a buffer of the host can hold them. -/
abbrev State.HoldsPdu (r : BufRef) (bs : List Byte) (s : State) : Prop :=
  s.Holds r bs ∧ (r.isHost = true → bs.length ≤ Config.maxPdu)

/-- The first `n` bytes of an instance's `RXBUF`, which has them, are not all readable (10_state.md R46, 60_exceptions.md R173). -/
abbrev State.Unreadable (r : BufRef) (n : Nat) (s : State) : Prop :=
  match r with
  | .host _ => False
  | .rx k => ∃ i ∈ s.framers[k.toNat]?, i.readable.length < n ∧ n ≤ Config.rxbufCap

/-- The families of the opcode table. -/
inductive Family where
  | crc | framer | codec | request | response | adu
  deriving DecidableEq, Repr

/-- The family of an instruction (30_encoding.md R68, R70, R73, R84). -/
def family : Instr → Family
  | .crcLoad _ => .crc
  | .crcFeed _ => .crc
  | .crcBlock _ _ _ => .crc
  | .crcRead => .crc
  | .rtuCfgBaud _ _ => .framer
  | .rtuCfgSlave _ _ => .framer
  | .rtuBringup _ => .framer
  | .rtuShutdown _ => .framer
  | .rtuIsDown _ => .framer
  | .rtuTx _ _ _ _ => .framer
  | .rtuRx _ _ => .framer
  | .rtuRxIsBcast _ => .framer
  | .rtuRxAvail _ => .framer
  | .rtuStatus _ => .framer
  | .pduServe _ _ _ => .codec
  | .pduExc _ _ => .codec
  | .pduBuildRead _ _ _ _ => .codec
  | .pduBuildWriteSingle _ _ _ => .codec
  | .pduBuildWriteMulti _ _ _ _ => .codec
  | .pduBuildLoopback _ _ => .codec
  | .pduBuildRaw _ _ => .codec
  | .pduParseRsp _ _ _ _ => .codec
  | .addrSplit _ _ => .codec
  | .readCoils _ => .request
  | .readDiscreteInputs _ => .request
  | .readHoldingRegisters _ => .request
  | .readInputRegisters _ => .request
  | .writeSingleCoil _ => .request
  | .writeSingleRegister _ => .request
  | .diagnostics _ => .request
  | .writeMultipleCoils _ => .request
  | .writeMultipleRegisters _ => .request
  | .readWriteMultipleRegisters _ => .request
  | .vendor _ _ => .request
  | .exceptionResponse _ _ => .response
  | .rtuAdu _ _ _ _ => .adu

/-- The instance an instruction works on. -/
def target : Instr → Option Nat
  | .rtuCfgBaud inst _ => some inst.toNat
  | .rtuCfgSlave inst _ => some inst.toNat
  | .rtuBringup inst => some inst.toNat
  | .rtuShutdown inst => some inst.toNat
  | .rtuIsDown inst => some inst.toNat
  | .rtuTx inst _ _ _ => some inst.toNat
  | .rtuRx inst _ => some inst.toNat
  | .rtuRxIsBcast inst => some inst.toNat
  | .rtuRxAvail inst => some inst.toNat
  | .rtuStatus inst => some inst.toNat
  | .rtuAdu inst _ _ _ => some inst.toNat
  | .crcLoad _ => none
  | .crcFeed _ => none
  | .crcBlock _ _ _ => none
  | .crcRead => none
  | .pduServe _ _ _ => none
  | .pduExc _ _ => none
  | .pduBuildRead _ _ _ _ => none
  | .pduBuildWriteSingle _ _ _ => none
  | .pduBuildWriteMulti _ _ _ _ => none
  | .pduBuildLoopback _ _ => none
  | .pduBuildRaw _ _ => none
  | .pduParseRsp _ _ _ _ => none
  | .addrSplit _ _ => none
  | .readCoils _ => none
  | .readDiscreteInputs _ => none
  | .readHoldingRegisters _ => none
  | .readInputRegisters _ => none
  | .writeSingleCoil _ => none
  | .writeSingleRegister _ => none
  | .diagnostics _ => none
  | .writeMultipleCoils _ => none
  | .writeMultipleRegisters _ => none
  | .readWriteMultipleRegisters _ => none
  | .vendor _ _ => none
  | .exceptionResponse _ _ => none

/-- The instance an input works on; `none` also for the reset of the block, which works on all. -/
def Input.target : Input → Option Nat
  | .port (.wire inst) _ => some inst.toNat
  | .port p bytes =>
    match decode p bytes with
    | .ok i => Sys2Proof.Machine.target i
    | .error _ => none
  | .env inst _ => some inst
  | .controller inst => some inst
  | .readRxbuf _ _ => none
  | .setBuffer _ _ => none
  | .setData _ _ => none
  | .pokeTables _ => none
  | .answer _ => none
  | .reset => none

/-- The bytes a codec command or a request with this result has written into the response buffer (notes/assumptions/4.md). -/
def storedBytes : Result → List Byte
  | .handler (.ok rsp) => rsp
  | .response rsp => rsp
  | .excPdu rsp => rsp
  | .build _ req => req
  | .excResponse rsp _ => rsp
  | _ => []

/-- Which capability a call uses. -/
def HostCall.isGet : HostCall → Bool
  | .get _ _ _ => true
  | .set _ _ _ _ => false
  | .vendor _ _ => false

/-- See `isGet`. -/
def HostCall.isSet : HostCall → Bool
  | .get _ _ _ => false
  | .set _ _ _ _ => true
  | .vendor _ _ => false

/-- See `isGet`. -/
def HostCall.isVendor : HostCall → Bool
  | .get _ _ _ => false
  | .set _ _ _ _ => false
  | .vendor _ _ => true

/-! ### The shapes of the request handlers' rules -/

/-- The state with a handler's result and nothing else changed: "performs no table I/O" (44_pdu_read.md R138). -/
def State.answered (h : Handled) (s : State) : State := { s with result := .handler h }

/-- The state after a handler's `Ok`: the host after its call, the response written, the result. -/
def State.answeredOk (h : HostState) (rsp : List Byte) (s : State) : State :=
  { s with host := h, mem := s.mem.writes (bufAddr responseBuffer 0) rsp, result := .handler (.ok rsp) }

/-- The state after a host capability answered `Exc(X)`. -/
def State.answeredExc (h : HostState) (x : Byte) (s : State) : State :=
  { s with host := h, result := .handler (.exc x) }

/-- The state after a build command that built `req` (47_pdu_master.md R161 to R165): the request in the response buffer and in
the result. -/
def State.builtOk (req : List Byte) (s : State) : State :=
  { s with mem := s.mem.writes (bufAddr responseBuffer 0) req, result := .build .ok req }

/-- The rule of a read request (R141, R143) for an instruction, its table, its quantity limit and its response. -/
def ReadRule (instr : List Byte → Instr) (t : TableId) (qmax : Nat) (rsp : Nat → List U16 → List Byte) : Prop :=
  ∀ (s : State) (body : List Byte),
    ((s.params.table t).hasGet = false → exec (instr body) s = .next (s.answered (.exc 0x01))) ∧
    ((s.params.table t).hasGet = true →
      (body.length ≠ 4 → exec (instr body) s = .next (s.answered (.exc 0x03))) ∧
      ∀ a q : U16, body = putBe16 a ++ putBe16 q →
        (q.toNat < 1 ∨ qmax < q.toNat → exec (instr body) s = .next (s.answered (.exc 0x03))) ∧
        (1 ≤ q.toNat → q.toNat ≤ qmax → (s.params.table t).size < a.toNat + q.toNat →
          exec (instr body) s = .next (s.answered (.exc 0x02))) ∧
        (1 ≤ q.toNat → q.toNat ≤ qmax → a.toNat + q.toNat ≤ (s.params.table t).size →
          (∀ vs h, hostGet t a.toNat q.toNat s.host = (.ok vs, h) →
            exec (instr body) s = .next (s.answeredOk h (rsp q.toNat vs))) ∧
          (∀ x h, hostGet t a.toNat q.toNat s.host = (.error x, h) →
            exec (instr body) s = .next (s.answeredExc h x))))

/-- The rule of a write-single request (45_pdu_write.md R146, R147) for an instruction, its function code, its table, the legal
values and the element a value stands for. -/
def WriteSingleRule (premise : State → Prop) (instr : List Byte → Instr) (fc : Byte) (t : TableId) (legal : U16 → Prop)
    (element : U16 → U16) : Prop :=
  ∀ (s : State) (body : List Byte), premise s →
    ((s.params.table t).hasSet = false → exec (instr body) s = .next (s.answered (.exc 0x01))) ∧
    ((s.params.table t).hasSet = true →
      (body.length ≠ 4 → exec (instr body) s = .next (s.answered (.exc 0x03))) ∧
      ∀ a v : U16, body = putBe16 a ++ putBe16 v →
        (¬legal v → exec (instr body) s = .next (s.answered (.exc 0x03))) ∧
        (legal v → (s.params.table t).size < a.toNat + 1 → exec (instr body) s = .next (s.answered (.exc 0x02))) ∧
        (legal v → a.toNat + 1 ≤ (s.params.table t).size →
          (∀ h, hostSet t a.toNat 1 [element v] s.host = (none, h) →
            exec (instr body) s = .next (s.answeredOk h (fc :: (putBe16 a ++ putBe16 v)))) ∧
          (∀ x h, hostSet t a.toNat 1 [element v] s.host = (some x, h) →
            exec (instr body) s = .next (s.answeredExc h x))))

/-- The rule of a write-multiple request (R148, R149) for an instruction, its function code, its table, its quantity limit, the
byte count a quantity needs and the elements the data stands for. -/
def WriteMultiRule (instr : List Byte → Instr) (fc : Byte) (t : TableId) (qmax : Nat) (count : Nat → Nat)
    (elements : List Byte → Nat → List U16) : Prop :=
  ∀ (s : State) (body : List Byte),
    ((s.params.table t).hasSet = false → exec (instr body) s = .next (s.answered (.exc 0x01))) ∧
    ((s.params.table t).hasSet = true →
      (body.length < 5 → exec (instr body) s = .next (s.answered (.exc 0x03))) ∧
      ∀ (a q : U16) (n : Byte) (data : List Byte), body = putBe16 a ++ putBe16 q ++ [n] ++ data →
        (q.toNat < 1 ∨ qmax < q.toNat ∨ n.toNat ≠ count q.toNat ∨ data.length ≠ n.toNat →
          exec (instr body) s = .next (s.answered (.exc 0x03))) ∧
        (1 ≤ q.toNat → q.toNat ≤ qmax → n.toNat = count q.toNat → data.length = n.toNat →
          ((s.params.table t).size < a.toNat + q.toNat → exec (instr body) s = .next (s.answered (.exc 0x02))) ∧
          (a.toNat + q.toNat ≤ (s.params.table t).size →
            (∀ h, hostSet t a.toNat q.toNat (elements data q.toNat) s.host = (none, h) →
              exec (instr body) s = .next (s.answeredOk h (fc :: (putBe16 a ++ putBe16 q)))) ∧
            (∀ x h, hostSet t a.toNat q.toNat (elements data q.toNat) s.host = (some x, h) →
              exec (instr body) s = .next (s.answeredExc h x)))))

/-! ### TIMING_HONEST -/

/-- An input with the time at which it happens, in microseconds. `begins` says of a byte's arrival that the byte begins a frame. -/
structure TimedInput where
  time : Nat
  input : Input
  begins : Bool
  deriving DecidableEq, Repr

/-- When an instance's two timers were last started, in microseconds. -/
structure Clock where
  start1 : Nat
  start3 : Nat
  deriving DecidableEq, Repr

/-- `TimerStart(T1P5)` of instance `n` happens: a byte arrives (R175). -/
def startsTimer1 (n : Nat) : Input → Bool
  | .env m (.byte _) => decide (m = n)
  | .port (.wire inst) _ => decide (inst.toNat = n)
  | _ => false

/-- `TimerStart(T3P5)` of instance `n` happens: a byte arrives, or the drain wait ends (43_rtu_tx.md R132). -/
def startsTimer3 (n : Nat) (inp : Input) (before after : State) : Bool :=
  startsTimer1 n inp ||
    (decide (inp = .controller n) && decide (before.framers[n]?.map Framer.phase = some .txWaitDone) &&
      decide (after.framers[n]?.map Framer.phase = some .txGuard))

/-- When the timers of instance `n` were last started, after an input. -/
def Clock.after (n : Nat) (x : TimedInput) (before after : State) (c : Clock) : Clock where
  start1 := if startsTimer1 n x.input then x.time else c.start1
  start3 := if startsTimer3 n x.input before after then x.time else c.start3

/-- What TIMING_HONEST (R177) asks of one input of instance `n`. "`EXPIRE_T1P5` (`EXPIRE_T3P5`)" happens "only after at least
`T1P5_US` (`T3P5_US`) µs with no `BYTE` event since the timer's start" (a byte starts both timers anew); a byte that does not
begin a frame arrives less than `T1P5_US` after the byte before it, which was the last to start the T1P5 timer. A whole frame as
one input has no times of its own: it is given as its events. -/
def TimedInput.honest (n : Nat) (c : Clock) (i : Framer) (x : TimedInput) : Bool :=
  match x.input with
  | .env m (.byte _) => decide (m = n → x.begins = false → x.time < c.start1 + i.t1p5Us.toNat)
  | .env m .expireT1p5 => decide (m = n → c.start1 + i.t1p5Us.toNat ≤ x.time)
  | .env m .expireT3p5 => decide (m = n → c.start3 + i.t3p5Us.toNat ≤ x.time)
  | .port (.wire inst) _ => decide (inst.toNat ≠ n)
  | _ => true

/-- TIMING_HONEST (R177) for instance `n` over the timed inputs of a run from a state, from a time on: both halves of the premise
hold of every input, and time does not run backwards. -/
def timingHonest (n : Nat) : Clock → Nat → List TimedInput → State → Bool
  | _, _, [], _ => true
  | c, now, x :: rest, s =>
    decide (now ≤ x.time) &&
    (match s.framers[n]? with
      | none => true
      | some i => x.honest n c i) &&
    (match runInput x.input s with
      | .next t => timingHonest n (c.after n x s t) x.time rest t
      | .fault _ => true
      | .refused _ => true)

/-! ### Fairness -/

/-- An endless run: its states and the inputs between them. -/
structure Run where
  state : Nat → State
  input : Nat → Input
  step : ∀ k, runInput (input k) (state k) = .next (state (k + 1))

/-- Weak fairness of an action: one that is enabled from some time on for ever happens after that time. -/
def weaklyFair (enabled happens : Nat → Prop) : Prop := ∀ k, (∀ j, k ≤ j → enabled j) → ∃ j, k ≤ j ∧ happens j

/-- Instance `n` at time `k` of a run has a property. -/
def Run.at (r : Run) (n k : Nat) (P : Framer → Prop) : Prop := ∃ i, (r.state k).framers[n]? = some i ∧ P i

/-- The duties of the environment and the controller (00_scope.md R18 "The only liveness assumption is weak fairness of environment
events that the duties make due"): "a `RUNNING` timer eventually expires if no `TimerStart` restarts it" (60_exceptions.md
R177), "an enabled `TX_STEP` eventually happens" (R178), and an enabled controller step is "due under fairness" (42_rtu_rx.md
R114). Byte arrivals and timeouts carry no duty. -/
def Run.Fair (r : Run) : Prop :=
  ∀ n,
    weaklyFair (fun k => r.at n k (fun i => i.tmr1 = .running) ∧ startsTimer1 n (r.input k) = false)
      (fun k => r.input k = .env n .expireT1p5) ∧
    weaklyFair
      (fun k => r.at n k (fun i => i.tmr3 = .running) ∧ startsTimer3 n (r.input k) (r.state k) (r.state (k + 1)) = false)
      (fun k => r.input k = .env n .expireT3p5) ∧
    weaklyFair (fun k => r.at n k (fun i => i.txq ≠ [])) (fun k => r.input k = .env n .txStep) ∧
    weaklyFair (fun k => r.at n k (fun i => (i.control (r.state k).params).isSome)) (fun k => r.input k = .controller n)

end Sys2Proof.Machine
end

