-- ==== Sys2Proof/Machine/Engine.lean ====
section
/-! DEFINITION. The contract of the host's engines, as sequences of commands: the macros of 30_encoding.md R91 under
47_pdu_master.md R168, and the slave cycle of 70_reset_and_hazards.md R191. The engines themselves are "surrounding software"
(00_scope.md R7); the model's step does not use this file. What the other agents do while a macro waits on the bus, or while
the slave serves a request, is its argument, a list of inputs, and every one of them happens. -/

namespace Sys2Proof.Machine

/-! ### Waiting for the instance -/

/-- A framer command of the instance is in progress. -/
def State.running (inst : U16) (s : State) : Bool := s.framers[inst.toNat]?.any fun i => decide (i.op ≠ .none)

/-- The inputs that may happen while an engine's operation on an instance waits: no command to that instance, which the engine's
mutex holds back (R168 item 6 "at most one operation at a time per instance"), and no reset of the block. -/
def Input.besides (inst : U16) (inp : Input) : Bool :=
  match inp with
  | .port .command bytes =>
    match decode .command bytes with
    | .ok i => decide (Sys2Proof.Machine.target i ≠ some inst.toNat)
    | .error _ => true
  | .reset => false
  | _ => true

/-- Inputs that may happen beside an engine's operation, one after the other; one that the engine's mutex holds back does not
happen. -/
def runBeside (inst : U16) (inputs : List Input) (s : State) : Out := runInputs (inputs.filter (Input.besides inst)) s

/-- Let inputs happen until the instance is idle. The second part is what of them is then still to come. -/
def awaitIdle (inst : U16) : List Input → State → Out × List Input
  | [], s => (.next s, [])
  | inp :: rest, s =>
    if s.running inst = false then (.next s, inp :: rest)
    else
      match runInput inp s with
      | .next t => awaitIdle inst rest t
      | .fault f => (.fault f, rest)
      | .refused f => (.refused f, rest)

/-- Issue a blocking framer command, wait until it completes, and go on after the inputs still to come, which happen between its
return and the engine's next command; whatever they return to others, the engine goes on with the result its own command
returned. Where it is still in progress after the inputs given, the state as it is. -/
def blocking (c : Instr) (inst : U16) (wait : List Input) (s : State) (f : State → Out) : Out :=
  Out.andThen (exec c s) fun entered =>
    let waited := awaitIdle inst (wait.filter (Input.besides inst)) entered
    Out.andThen waited.1 fun t =>
      if t.running inst then .next t
      else Out.andThen (runInputs waited.2 t) fun u => f (u.ret t.result)

/-- The slave's and the master's RTU_TX of the `n` bytes in the response buffer. -/
def sendResponseBuffer (inst : U16) (unit : Byte) (n : Nat) : Instr :=
  .rtuTx inst unit (.host responseBuffer) (BitVec.ofNat 16 n)

/-! ### The master's operations -/

/-- The operations of the source's master engine (R91) with the operands their commands need. -/
inductive MasterOp where
  | read (addr : U32) (q : U16)
  | write (addr : U32) (q data : U16)
  | writeSingle (addr : U32) (v : U16)
  | loopback (data : BufRef) (dlen : U16)
  | sendRaw (data : BufRef) (dlen : U16)
  | recvRaw
  deriving DecidableEq, Repr

/-- What an operation runs on: the instance, the addressed unit, the receive timeout, a buffer of the engine's own for the
request (the "context" of PDU_PARSE_RSP; R49 "owned by the caller"), and what else happens while it transmits and
receives. -/
structure Exchange where
  inst : U16
  unit : Byte
  tmo : U32
  own : U16
  txWait : List Input
  rxWait : List Input
  deriving DecidableEq, Repr

/-- Go on with the function code and address ADDR_SPLIT returned; another result ends the operation. -/
def withSplit (addr : U32) (use : AddrUse) (s : State) (f : Byte → U16 → Instr) : Out :=
  Out.andThen (exec (.addrSplit addr use) s) fun t =>
    match t.result with
    | .split fc a => exec (f fc a) t
    | _ => .next t

/-- "It validates before any I/O, with ADDR_SPLIT and the build command" (R168 item 1). A loopback to unit 0 "is `M_LOCAL_INVALID`
too" (item 4). `recv_raw` has nothing to build. -/
def MasterOp.build (op : MasterOp) (unit : Byte) (s : State) : Out :=
  match op with
  | .read addr q => withSplit addr .read s fun fc a => .pduBuildRead unit fc a q
  | .write addr q data => withSplit addr .write s fun fc a => .pduBuildWriteMulti fc a q data
  | .writeSingle addr v => withSplit addr .writeSingle s fun fc a => .pduBuildWriteSingle fc a v
  | .loopback data dlen =>
    if unit = Config.broadcastId then .next s.notBuilt else exec (.pduBuildLoopback data dlen) s
  | .sendRaw data dlen => exec (.pduBuildRaw data dlen) s
  | .recvRaw => .next s

/-- Build the request, keep a copy of it and go on with its length; an `M_LOCAL_INVALID` result (or a refusal) "ends the
operation, and the result never reaches the transport" (item 1). -/
def MasterOp.request (op : MasterOp) (x : Exchange) (s : State) (f : Nat → State → Out) : Out :=
  Out.andThen (op.build x.unit s) fun t =>
    match t.result with
    | .build .ok req => f req.length (t.setBuffer x.own req)
    | _ => .next t

/-- RTU_TX of the request. Its status does not change what follows (R91 lists the commands without a condition). -/
def Exchange.send (x : Exchange) (n : Nat) (s : State) (f : State → Out) : Out :=
  blocking (sendResponseBuffer x.inst x.unit n) x.inst x.txWait s f

/-- RTU_RX: a status other than `OK` "is the operation's result, unchanged" and "No retry is made" (item 5). -/
def Exchange.receive (x : Exchange) (s : State) (f : Nat → State → Out) : Out :=
  blocking (.rtuRx x.inst x.tmo) x.inst x.rxWait s fun t =>
    match t.result with
    | .rxOk _ _ pdu => f pdu.length t
    | _ => .next t

/-- RTU_CFG_SLAVE "Before an RTU_RX that expects a reply from unit u" (item 2). -/
def Exchange.accept (x : Exchange) (s : State) (f : State → Out) : Out :=
  Out.andThen (exec (.rtuCfgSlave x.inst x.unit) s) f

/-- RTU_RX and PDU_PARSE_RSP of the PDU received against the request of `n` bytes. -/
def Exchange.reply (x : Exchange) (n : Nat) (s : State) : Out :=
  x.receive s fun len => exec (.pduParseRsp (.host x.own) (BitVec.ofNat 16 n) (.rx x.inst) (BitVec.ofNat 16 len))

/-- After a write: "no receive attempted, result forced to success" to unit 0 (item 3), else the reply. -/
def Exchange.confirm (x : Exchange) (n : Nat) (s : State) : Out :=
  if x.unit = Config.broadcastId then .next (s.ret (.parse .ok .none)) else x.accept s (x.reply n)

/-- A whole operation (R91, R168). It begins only while no command of the instance is in progress (item 6). -/
def MasterOp.run (op : MasterOp) (x : Exchange) (s : State) : Out :=
  if s.running x.inst then .next s
  else
    match op with
    | .read _ _ => op.request x s fun n t => x.accept t fun u => x.send n u (x.reply n)
    | .write _ _ _ => op.request x s fun n t => x.send n t (x.confirm n)
    | .writeSingle _ _ => op.request x s fun n t => x.send n t (x.confirm n)
    | .loopback _ _ => op.request x s fun n t => x.send n t fun u => x.accept u (x.reply n)
    | .sendRaw _ _ => op.request x s fun n t => x.send n t .next
    | .recvRaw => x.receive s fun _ => .next

/-! ### The slave cycle -/

/-- The inputs that may happen while the slave serves a request: those beside its commands, and RTU_CFG_SLAVE of its own instance
(R193 "Changing `SLAVE_ID` between a slave's receive and its reply changes only the unit id of the reply's ADU"). -/
def Input.whileServing (inst : U16) (inp : Input) : Bool :=
  match inp with
  | .port .command bytes =>
    match decode .command bytes with
    | .ok (.rtuCfgSlave _ _) => true
    | _ => inp.besides inst
  | _ => inp.besides inst

/-- R191 steps 4 and 6: RTU_RX_AVAIL, and RTU_TX of the response with unit `SLAVE_ID` "immediately" after it, only if no byte has
arrived. The bytes of the response are the slave's (20_memory.md R49 "owned by the caller"): what others stored in the
response buffer since PDU_SERVE does not go out. An event between the two commands is one that comes right after RTU_TX's entry:
that entry reads and changes nothing an event does. -/
def answerUnlessStale (inst : U16) (rsp : List Byte) (s : State) : Out :=
  match s.framers[inst.toNat]? with
  | none => .next (s.refuse .badInst)
  | some i =>
    Out.andThen (exec (.rtuRxAvail inst) s) fun t =>
      if t.result = .flag true then .next t
      else exec (sendResponseBuffer inst i.slaveId rsp.length) (t.respond rsp)

/-- The slave cycle after an `OK` receive (R191 steps 2 to 6), up to RTU_TX's return to the controller: PDU_SERVE of the PDU
received, with the broadcast flag; what else happens meanwhile, bytes that arrive among it; and the response of PDU_SERVE,
"discarded unsent" where a byte has arrived. The next turn's RTU_RX takes the bytes (42_rtu_rx.md R117). -/
def slaveReply (inst : U16) (serving : List Input) (s : State) : Out :=
  match s.framers[inst.toNat]? with
  | none => .next (s.refuse .badInst)
  | some i =>
    Out.andThen (exec (.rtuRxIsBcast inst) s) fun s1 =>
      Out.andThen (exec (.pduServe (.rx inst) (BitVec.ofNat 16 i.rxPduLen) (decide (s1.result = .flag true))) s1) fun s2 =>
        Out.andThen (runInputs (serving.filter (Input.whileServing inst)) s2) fun s3 =>
          match s2.result with
          | .response rsp => answerUnlessStale inst rsp s3
          | _ => .next s3

/-- What happens beside one turn of the slave cycle: while RTU_RX waits, while the request is served, while RTU_TX waits. -/
structure SlaveTurn where
  rxWait : List Input
  serving : List Input
  txWait : List Input
  deriving DecidableEq, Repr

/-- One turn of the slave cycle: RTU_RX with `tmo=5000` (step 1); "if s != OK then continue", so that "A receive error is not
answered"; the reply, and the wait for its RTU_TX. -/
def slaveCycle (inst : U16) (turn : SlaveTurn) (s : State) : Out :=
  if s.running inst then .next s
  else
    blocking (.rtuRx inst Config.slaveTimeout) inst turn.rxWait s fun t =>
      match t.result with
      | .rxOk _ _ _ => Out.andThen (slaveReply inst turn.serving t) (runBeside inst turn.txWait)
      | _ => .next t

/-- "loop while running" (R191), one turn after the other; it ends between turns, "once the current blocking receive completes". -/
def slaveLoop (inst : U16) : List SlaveTurn → State → Out
  | [], s => .next s
  | turn :: rest, s => Out.andThen (slaveCycle inst turn s) (slaveLoop inst rest)

end Sys2Proof.Machine
end

