-- ==== Sys2Proof/Certificates/Slice0/Obligations.lean ====
section
/-! DEFINITION. The statements for the provers, in the order of the spec's files: CRC engine, timing and configuration,
receive, transmit, reset and invariants, request handlers, dispatch, master side, encodings. Each docstring names the rule
of spec/ it formalises; a value the model chose is named with its log entry. -/

open Sys2Proof Sys2Proof.Machine

/-! ### CRC (40_crc.md) -/

/-- R94, the composition law, and its use for the unit id and the PDU of an ADU. -/
def Obligations.CrcComposition : Prop :=
  (∀ (a b : List Byte) (p : U16), crc16 (a ++ b) p = crc16 b (crc16 a p)) ∧
  (∀ (unit : Byte) (pdu : List Byte), crc16 ([unit] ++ pdu) 0xFFFF = crc16 pdu (crc16 [unit] 0xFFFF))

/-- R95, the residual-zero property: the CRC appended low byte first cancels itself. -/
def Obligations.CrcResidualZero : Prop :=
  ∀ (s : List Byte) (p : U16),
    crc16 (s ++ [(crc16 s p).extractLsb' 0 8, (crc16 s p).extractLsb' 8 8]) p = 0

/-- R96, R97, R99: CRC_LOAD, CRC_FEED and CRC_READ complete in every state; each changes `CRC_ACC` as its rule says and nothing
else of the block; feeding the accumulator its own two bytes, low byte first, leaves 0; after reset CRC_READ gives 0xFFFF. -/
def Obligations.CrcLoadFeedRead : Prop :=
  (∀ (s : State) (v : U16), exec (.crcLoad v) s = .next { s with crcAcc := v, result := .done }) ∧
  (∀ (s : State) (b : Byte), exec (.crcFeed b) s = .next { s with crcAcc := crcByte s.crcAcc b, result := .done }) ∧
  (∀ s : State,
    Out.andThen (exec (.crcFeed (s.crcAcc.extractLsb' 0 8)) s) (exec (.crcFeed (s.crcAcc.extractLsb' 8 8))) =
      .next { s with crcAcc := 0, result := .done }) ∧
  (∀ s : State, exec .crcRead s = .next { s with result := .crc s.crcAcc }) ∧
  exec .crcRead State.reset = .next { State.reset with result := .crc 0xFFFF }

/-- CRC_BLOCK (R98): a buffer that holds the bytes leaves their CRC in `CRC_ACC` and returns it; a buffer that is too short is
refused and changes nothing; `len = 0` returns the preload whatever the buffer. That an `RXBUF` may be the buffer, that the one
of an instance that does not exist holds no byte, that a length above the 255 bytes of one is too long for it (R49), and the
fault where its bytes may not be read (R46) are the model's reading (notes/assumptions/3.md). -/
def Obligations.CrcBlockComputesCrc : Prop :=
  ∀ (s : State) (buf : BufRef) (len pre : U16),
    (∀ bs : List Byte, bs.length = len.toNat → s.Holds buf bs →
      exec (.crcBlock buf len pre) s = .next { s with crcAcc := crc16 bs pre, result := .crc (crc16 bs pre) }) ∧
    (s.Short buf len.toNat →
      exec (.crcBlock buf len pre) s = .next { s with refused := true, result := .refused .badBuffer }) ∧
    exec (.crcBlock buf 0 pre) s = .next { s with crcAcc := pre, result := .crc pre } ∧
    (s.Unreadable buf len.toNat → exec (.crcBlock buf len pre) s = .fault .readUnwritten)

/-- R100: a CRC engine command over the host's buffers completes in every state, whatever any framer is doing, changes no framer
register, and does the same whatever the framer registers are. -/
def Obligations.CrcEngineIndependentOfFramers : Prop :=
  ∀ (s : State) (fs : List Framer) (i : Instr), family i = .crc → (∀ k len pre, i ≠ .crcBlock (.rx k) len pre) →
    ∃ t, exec i s = .next t ∧ t.framers = s.framers ∧ exec i { s with framers := fs } = .next { t with framers := fs }

/-- The frame of each family. R35: a CRC command writes `CRC_ACC` alone and a framer command or a frame on the wire never does;
R48, R154: a codec command, a request and a response write no framer register and not `CRC_ACC`. `result` and the mark
`REFUSED` may change with any command; no command changes the parameters, the element buffers or the pending inputs. -/
def Obligations.EachFamilyChangesOnlyItsOwnState : Prop :=
  ∀ (i : Instr) (s t : State), exec i s = .next t →
    (family i = .crc → t = { s with crcAcc := t.crcAcc, result := t.result, refused := t.refused }) ∧
    (family i = .framer ∨ family i = .adu →
      t = { s with framers := t.framers, result := t.result, refused := t.refused }) ∧
    (family i = .codec ∨ family i = .request ∨ family i = .response →
      t = { s with mem := t.mem, host := t.host, result := t.result, refused := t.refused })

/-! ### Timing arithmetic and configuration (41_rtu_config.md) -/

/-- R101, R102, R103: the two intervals of every baud rate, the fixed values above 19200, and that they fit in 32 bits, the
largest being those of 1 baud. -/
def Obligations.TimingIntervals : Prop :=
  (∀ b, 1 ≤ b → b ≤ 19200 → timing b = (3 * (11000000 / b) / 2, 7 * (11000000 / b) / 2)) ∧
  (∀ b, 19200 < b → charTimeUs b = 500 ∧ timing b = (750, 1750)) ∧
  charTimeUs 19200 = 572 ∧ timing 19200 = (858, 2002) ∧
  charTimeUs 1 = 11000000 ∧ timing 1 = (16500000, 38500000) ∧
  (∀ b, 1 ≤ b → b < 2 ^ 32 →
    0 < charTimeUs b ∧ charTimeUs b ≤ charTimeUs 1 ∧ (timing b).1 ≤ (timing 1).1 ∧ (timing b).2 ≤ (timing 1).2 ∧
    (timing b).1 < 2 ^ 32 ∧ (timing b).2 < 2 ^ 32)

/-- R105, the busy rule: a state-changing framer command while `OP != NONE` is refused and changes no register; the four
queries run at any time and change nothing but the result. R172 BAD_INST: every framer command to an instance that does not
exist is refused. -/
def Obligations.FramerCommandsRefuseBusyAndBadInstance : Prop :=
  ∀ (s : State) (inst : U16),
    (∀ i, s.framers[inst.toNat]? = some i → i.op ≠ .none →
      (∀ b, exec (.rtuCfgBaud inst b) s = .next { s with refused := true, result := .refused .busy }) ∧
      (∀ d, exec (.rtuCfgSlave inst d) s = .next { s with refused := true, result := .refused .busy }) ∧
      exec (.rtuBringup inst) s = .next { s with refused := true, result := .refused .busy } ∧
      exec (.rtuShutdown inst) s = .next { s with refused := true, result := .refused .busy } ∧
      (∀ unit pdu len, exec (.rtuTx inst unit pdu len) s = .next { s with refused := true, result := .refused .busy }) ∧
      (∀ tmo, exec (.rtuRx inst tmo) s = .next { s with refused := true, result := .refused .busy })) ∧
    (∀ i, s.framers[inst.toNat]? = some i →
      ∀ q ∈ [Instr.rtuIsDown inst, .rtuRxIsBcast inst, .rtuRxAvail inst, .rtuStatus inst],
        ∃ r, exec q s = .next { s with result := r } ∧ r ≠ .refused .busy) ∧
    (s.framers[inst.toNat]? = none →
      ∀ c : Instr, family c = .framer → target c = some inst.toNat →
        exec c s = .next { s with refused := true, result := .refused .badInst })

/-- R106: RTU_CFG_BAUD on an idle instance. -/
def Obligations.RtuCfgBaudSetsRateAndIntervals : Prop :=
  ∀ (s : State) (inst : U16) (i : Framer) (b : U32), s.framers[inst.toNat]? = some i →
    (i.op ≠ .none → exec (.rtuCfgBaud inst b) s = .next { s with refused := true, result := .refused .busy }) ∧
    (i.op = .none →
      (b = 0 → exec (.rtuCfgBaud inst b) s = .next { s with result := .status .badArg }) ∧
      (b ≠ 0 →
        exec (.rtuCfgBaud inst b) s = .next
          { s with
            framers := s.framers.set inst.toNat
              { i with
                cfgBaud := b
                t1p5Us := BitVec.ofNat 32 (timing b.toNat).1
                t3p5Us := BitVec.ofNat 32 (timing b.toNat).2
                interval1 := if i.down then i.interval1 else BitVec.ofNat 32 (timing b.toNat).1
                interval3 := if i.down then i.interval3 else BitVec.ofNat 32 (timing b.toNat).2 }
            result := .status .ok }))

/-- R107, R109: RTU_CFG_SLAVE and RTU_SHUTDOWN. -/
def Obligations.RtuCfgSlaveAndShutdown : Prop :=
  ∀ (s : State) (inst : U16) (i : Framer), s.framers[inst.toNat]? = some i →
    (i.op ≠ .none →
      (∀ d, exec (.rtuCfgSlave inst d) s = .next { s with refused := true, result := .refused .busy }) ∧
      exec (.rtuShutdown inst) s = .next { s with refused := true, result := .refused .busy }) ∧
    (i.op = .none →
      (∀ d, exec (.rtuCfgSlave inst d) s = .next
        { s with framers := s.framers.set inst.toNat { i with slaveId := d }, result := .status .ok }) ∧
      exec (.rtuShutdown inst) s = .next
        { s with framers := s.framers.set inst.toNat { i with down := true }, result := .status .ok })

/-- R108: RTU_BRINGUP programs the timers, clears all four flags and takes the instance up; bytes in `RXFIFO` are kept. -/
def Obligations.RtuBringupTakesUp : Prop :=
  ∀ (s : State) (inst : U16) (i : Framer), s.framers[inst.toNat]? = some i →
    (i.op ≠ .none → exec (.rtuBringup inst) s = .next { s with refused := true, result := .refused .busy }) ∧
    (i.op = .none →
      (i.cfgBaud = 0 → exec (.rtuBringup inst) s = .next { s with result := .status .notConfigured }) ∧
      (i.cfgBaud ≠ 0 →
        exec (.rtuBringup inst) s = .next
          { s with
            framers := s.framers.set inst.toNat
              { i with interval1 := i.t1p5Us, interval3 := i.t3p5Us, evf := 0b0000, down := false }
            result := .status .ok }))

/-- R110 to R113: the four queries, at any time. -/
def Obligations.QueriesReportRegisters : Prop :=
  ∀ (s : State) (inst : U16) (i : Framer), s.framers[inst.toNat]? = some i →
    exec (.rtuIsDown inst) s = .next { s with result := .flag i.down } ∧
    exec (.rtuRxIsBcast inst) s = .next { s with result := .flag i.bcast } ∧
    (i.rxfifo ≠ [] → exec (.rtuRxAvail inst) s = .next { s with result := .flag true }) ∧
    (i.rxfifo = [] → exec (.rtuRxAvail inst) s = .next { s with result := .flag false }) ∧
    exec (.rtuStatus inst) s = .next
      { s with result := .framerStatus i.phase i.op i.cfgBaud i.t1p5Us i.t3p5Us i.slaveId }

/-! ### Receive (42_rtu_rx.md) -/

/-- R116: the entry of RTU_RX. On an instance that is down it completes with `DOWN` (R125). -/
def Obligations.RtuRxEntry : Prop :=
  ∀ (s : State) (inst : U16) (tmo : U32) (i : Framer), s.framers[inst.toNat]? = some i →
    (i.op ≠ .none → exec (.rtuRx inst tmo) s = .next { s with refused := true, result := .refused .busy }) ∧
    (i.op = .none → i.down = true →
      exec (.rtuRx inst tmo) s = .next
        { s with
          framers := s.framers.set inst.toNat
            { i with rxStatus := .down, rxPduLen := 0, bcast := false, op := .none, phase := .idle }
          result := .rxFail inst.toNat .down }) ∧
    (i.op = .none → i.down = false →
      exec (.rtuRx inst tmo) s = .next
        { s with
          framers := s.framers.set inst.toNat
            { i with
              op := .rx
              rxTmo := tmo
              rxbuf := []
              frameOk := true
              rxCrc := 0xFFFF
              evf := i.evf &&& 0b1101
              phase := .rxWaitStart } })

/-- R117: in phase RX_WAIT_START the controller waits for a byte and takes it as the unit id. -/
def Obligations.RxWaitStartTakesUnitId : Prop :=
  ∀ (s : State) (n : Nat) (i : Framer), s.framers[n]? = some i → i.phase = .rxWaitStart →
    (i.rxfifo = [] → runInput (.controller n) s = .next s) ∧
    (∀ b rest, i.rxfifo = b :: rest →
      runInput (.controller n) s = .next
        { s with
          framers := s.framers.set n
            { i with
              evf := i.evf &&& 0b1101
              rxfifo := rest
              rxUnit := b
              rxCrc := crcByte 0xFFFF b
              phase := .rxBody } })

/-- R119, R120: in phase RX_BODY every available byte is stored while there is room and discarded after; with none available
the phase ends when EV_T1P5 is set and waits while it is not. The premise on the length of `RXBUF` is part of the invariant
(StepKeepsInvariant). -/
def Obligations.RxBodyDrainsThenEnds : Prop :=
  ∀ (s : State) (n : Nat) (i : Framer), s.framers[n]? = some i → i.phase = .rxBody → i.rxbuf.length ≤ 255 →
    (i.rxfifo ≠ [] →
      runInput (.controller n) s = .next
        { s with
          framers := s.framers.set n
            { i with
              evf := i.evf &&& 0b1101
              rxfifo := []
              rxbuf := i.rxbuf ++ i.rxfifo.take (255 - i.rxbuf.length)
              rxCrc := crc16 (i.rxfifo.take (255 - i.rxbuf.length)) i.rxCrc
              frameOk := i.frameOk && decide (i.rxbuf.length + i.rxfifo.length ≤ 255) } }) ∧
    (i.rxfifo = [] → i.evf.getLsbD 2 = true →
      runInput (.controller n) s = .next { s with framers := s.framers.set n { i with phase := .rxEof } }) ∧
    (i.rxfifo = [] → i.evf.getLsbD 2 = false → runInput (.controller n) s = .next s)

/-- R122: bytes that arrive in phase RX_EOF are discarded and the receive ends with FRAME_NOK. The premise `OP = RX` is part of
the invariant. -/
def Obligations.RxEofNoiseEndsFrameNok : Prop :=
  ∀ (s : State) (n : Nat) (i : Framer), s.framers[n]? = some i → i.phase = .rxEof → i.op = .rx → i.rxfifo ≠ [] →
    runInput (.controller n) s = .next
      { s with
        framers := s.framers.set n
          { i with
            evf := i.evf &&& 0b1101
            rxfifo := []
            frameOk := false
            rxStatus := .frameNok
            rxPduLen := 0
            bcast := false
            op := .none
            phase := .idle }
        result := .rxFail n .frameNok }

/-- R121, R123, R124, R125: with no byte available, phase RX_EOF waits for EV_T3P5 and then validates: FRAME_NOK, CRC_FAIL,
SLAVE_ID, OK in this order, each completing with the registers and the result R125 gives. The premises `OP = RX` and that
`RX_CRC` is the CRC of the unit id and the stored bytes are part of the invariant. -/
def Obligations.RxEofValidates : Prop :=
  ∀ (s : State) (n : Nat) (i : Framer), s.framers[n]? = some i → i.phase = .rxEof → i.op = .rx → i.rxfifo = [] →
    i.rxCrc = crc16 (i.rxUnit :: i.rxbuf) 0xFFFF →
    let fails (st : Status) : State :=
      { s with
        framers := s.framers.set n
          { i with rxStatus := st, rxPduLen := 0, bcast := false, op := .none, phase := .idle }
        result := .rxFail n st }
    (i.evf.getLsbD 3 = false → runInput (.controller n) s = .next s) ∧
    (i.evf.getLsbD 3 = true →
      (i.frameOk = false ∨ i.rxbuf.length < 3 → runInput (.controller n) s = .next (fails .frameNok)) ∧
      (i.frameOk = true → 3 ≤ i.rxbuf.length → crc16 (i.rxUnit :: i.rxbuf) 0xFFFF ≠ 0 →
        runInput (.controller n) s = .next (fails .crcFail)) ∧
      (i.frameOk = true → 3 ≤ i.rxbuf.length → crc16 (i.rxUnit :: i.rxbuf) 0xFFFF = 0 →
        i.rxUnit ≠ i.slaveId → i.rxUnit ≠ 0 → runInput (.controller n) s = .next (fails .slaveId)) ∧
      (i.frameOk = true → 3 ≤ i.rxbuf.length → crc16 (i.rxUnit :: i.rxbuf) 0xFFFF = 0 →
        i.rxUnit = i.slaveId ∨ i.rxUnit = 0 →
        runInput (.controller n) s = .next
          { s with
            framers := s.framers.set n
              { i with
                rxStatus := .ok
                rxPduLen := i.rxbuf.length - 2
                bcast := decide (i.rxUnit = 0)
                op := .none
                phase := .idle }
            result := .rxOk n i.rxUnit (i.rxbuf.take (i.rxbuf.length - 2)) }))

/-- R118: the OS timeout ends a receive that waits for its first byte with a non-zero `RX_TMO`. That an event that is not enabled
leaves the state as it is, is the model's (notes/assumptions/16.md). -/
def Obligations.RxTimeoutOnlyWhileWaiting : Prop :=
  ∀ (s : State) (n : Nat) (i : Framer), s.framers[n]? = some i →
    (i.phase = .rxWaitStart → i.op = .rx → i.rxTmo ≠ 0 → i.rxfifo = [] →
      runInput (.env n .rxTimeout) s = .next
        { s with
          framers := s.framers.set n
            { i with rxStatus := .timeout, rxPduLen := 0, bcast := false, op := .none, phase := .idle }
          result := .rxFail n .timeout }) ∧
    (i.phase ≠ .rxWaitStart ∨ i.rxTmo = 0 ∨ i.rxfifo ≠ [] → runInput (.env n .rxTimeout) s = .next s)

/-- A frame with a right CRC, for the instance's own id or for unit 0, arriving at an instance that waits in RX_WAIT_START with
nothing received yet, is received whole: R70 and R117 to R125 together, the controller taking every enabled step between
events (the model's reading of RTU_ADU, notes/assumptions/22.md). -/
def Obligations.GoodFrameIsReceived : Prop :=
  ∀ (s : State) (inst : U16) (i : Framer) (unit : Byte) (pdu : List Byte),
    s.framers[inst.toNat]? = some i → i.phase = .rxWaitStart → i.op = .rx → i.frameOk = true → i.rxbuf = [] →
    i.rxfifo = [] → 1 ≤ pdu.length → pdu.length ≤ 253 → unit = i.slaveId ∨ unit = 0 →
    exec (.rtuAdu inst unit pdu (aduCrc unit pdu)) s = .next
      { s with
        framers := s.framers.set inst.toNat
          { i with
            phase := .idle
            op := .none
            evf := (i.evf &&& 0b0001) ||| 0b1100
            bcast := decide (unit = 0)
            rxUnit := unit
            rxbuf := pdu ++ putLe16 (aduCrc unit pdu)
            rxCrc := 0
            rxStatus := .ok
            rxPduLen := pdu.length
            tmr1 := .stopped
            tmr3 := .stopped }
        result := .rxOk inst.toNat unit pdu }

/-- The same arrival with any other CRC ends CRC_FAIL, and with a right CRC for another unit ends SLAVE_ID; at an instance with
no receive in progress the bytes wait in `RXFIFO` (R175). Model's reading of RTU_ADU: notes/assumptions/22.md. -/
def Obligations.BadFrameIsRejected : Prop :=
  ∀ (s : State) (inst : U16) (i : Framer) (unit : Byte) (pdu : List Byte) (crc : U16),
    s.framers[inst.toNat]? = some i → 1 ≤ pdu.length → pdu.length ≤ 253 →
    let fails (st : Status) : State :=
      { s with
        framers := s.framers.set inst.toNat
          { i with
            phase := .idle
            op := .none
            evf := (i.evf &&& 0b0001) ||| 0b1100
            bcast := false
            rxUnit := unit
            rxbuf := pdu ++ putLe16 crc
            rxCrc := crc16 (unit :: (pdu ++ putLe16 crc)) 0xFFFF
            rxStatus := st
            rxPduLen := 0
            tmr1 := .stopped
            tmr3 := .stopped }
        result := .rxFail inst.toNat st }
    (i.phase = .rxWaitStart → i.op = .rx → i.frameOk = true → i.rxbuf = [] → i.rxfifo = [] →
      (crc ≠ aduCrc unit pdu → exec (.rtuAdu inst unit pdu crc) s = .next (fails .crcFail)) ∧
      (crc = aduCrc unit pdu → unit ≠ i.slaveId → unit ≠ 0 →
        exec (.rtuAdu inst unit pdu crc) s = .next (fails .slaveId))) ∧
    (i.phase = .idle →
      exec (.rtuAdu inst unit pdu crc) s = .next
        { s with
          framers := s.framers.set inst.toNat
            { i with
              rxfifo := i.rxfifo ++ unit :: (pdu ++ putLe16 crc)
              evf := (i.evf &&& 0b0001) ||| 0b1110
              tmr1 := .stopped
              tmr3 := .stopped } })

/-- R127 with its premise on the timers: under the invariant, a receive past its unit id ends once each timer that has not
already set its flag expires and no further byte comes. The premise that each timer runs or has set its flag is R127's own
inference; RTU_BRINGUP over waiting bytes can break it (notes/assumptions/19.md). -/
def Obligations.ReceiveEndsAfterSilence : Prop :=
  ∀ (s : State) (n : Nat) (i : Framer), s.framers[n]? = some i → i.Inv s.params →
    i.phase = .rxBody ∨ i.phase = .rxEof →
    i.tmr1 = .running ∨ i.evT1p5 = true → i.tmr3 = .running ∨ i.evT3p5 = true →
    ∃ t j, runInputs [.controller n, .env n .expireT1p5, .controller n, .env n .expireT3p5, .controller n] s = .next t ∧
      t.framers[n]? = some j ∧ j.phase = .idle ∧ j.op = .none ∧
      t.result = if j.rxStatus = .ok then .rxOk n j.rxUnit (j.rxbuf.take j.rxPduLen) else .rxFail n j.rxStatus

/-! ### Environment events and transmit (60_exceptions.md, 43_rtu_tx.md) -/

/-- What the byte-arrival hook (R175), the timer expiries (R176) and the transmitter (R178) do. That an event that is not enabled
leaves the state as it is, is the model's (notes/assumptions/16.md). -/
def Obligations.EnvironmentEvents : Prop :=
  ∀ (s : State) (n : Nat) (i : Framer), s.framers[n]? = some i →
    (∀ b, runInput (.env n (.byte b)) s = .next
      { s with
        framers := s.framers.set n
          { i with
            rxfifo := i.rxfifo ++ [b], evf := (i.evf ||| 0b0010) &&& 0b0011, tmr1 := .running, tmr3 := .running } }) ∧
    (i.tmr1 = .running → runInput (.env n .expireT1p5) s = .next
      { s with framers := s.framers.set n { i with tmr1 := .stopped, evf := i.evf ||| 0b0100 } }) ∧
    (i.tmr1 = .stopped → runInput (.env n .expireT1p5) s = .next s) ∧
    (i.tmr3 = .running → runInput (.env n .expireT3p5) s = .next
      { s with framers := s.framers.set n { i with tmr3 := .stopped, evf := i.evf ||| 0b1000 } }) ∧
    (i.tmr3 = .stopped → runInput (.env n .expireT3p5) s = .next s) ∧
    (∀ b rest, i.txq = b :: rest → runInput (.env n .txStep) s = .next
      { s with
        framers := s.framers.set n
          { i with
            wireOut := i.wireOut ++ [b]
            txq := rest
            evf := if rest = [] then i.evf ||| 0b0001 else i.evf } }) ∧
    (i.txq = [] → runInput (.env n .txStep) s = .next s)

/-- RTU_TX (R130): BUSY, BAD_BUFFER, BAD_ARG, DOWN in this order (R174, notes/assumptions/8.md), each status
written to `TX_STATUS` (notes/assumptions/24.md), then the entry. The `RXBUF` operand and its fault are notes/assumptions/3.md. -/
def Obligations.RtuTxEntry : Prop :=
  ∀ (s : State) (inst : U16) (unit : Byte) (pdu : BufRef) (len : U16) (i : Framer), s.framers[inst.toNat]? = some i →
    (i.op ≠ .none → exec (.rtuTx inst unit pdu len) s = .next { s with refused := true, result := .refused .busy }) ∧
    (i.op = .none → s.Short pdu len.toNat →
      exec (.rtuTx inst unit pdu len) s = .next { s with refused := true, result := .refused .badBuffer }) ∧
    (i.op = .none → ¬s.Short pdu len.toNat →
      (len.toNat < 1 ∨ 253 < len.toNat →
        exec (.rtuTx inst unit pdu len) s = .next
          { s with
            framers := s.framers.set inst.toNat { i with txStatus := .badArg }, result := .tx inst.toNat .badArg }) ∧
      (1 ≤ len.toNat → len.toNat ≤ 253 →
        (i.down = true →
          exec (.rtuTx inst unit pdu len) s = .next
            { s with
              framers := s.framers.set inst.toNat { i with txStatus := .down }, result := .tx inst.toNat .down }) ∧
        (i.down = false →
          (s.Unreadable pdu len.toNat → exec (.rtuTx inst unit pdu len) s = .fault .readUnwritten) ∧
          (∀ p : List Byte, p.length = len.toNat → s.Holds pdu p →
            let frame := [unit] ++ p ++
              [(crc16 ([unit] ++ p) 0xFFFF).extractLsb' 0 8, (crc16 ([unit] ++ p) 0xFFFF).extractLsb' 8 8]
            exec (.rtuTx inst unit pdu len) s = .next
              { s with
                framers := s.framers.set inst.toNat
                  { i with
                    txUnit := unit
                    txAdu := frame
                    op := .tx
                    de := if s.params.dePresent then true else i.de
                    evf := i.evf &&& 0b1110
                    txq := i.txq ++ frame
                    phase := .txWaitDone } }))))

/-- R132, R133: the two transmit phases of the controller. The premise `OP = TX` of the second is part of the invariant. That
`TX_UNIT` and `TX_ADU` stay when `OP = TX` ends is the model's choice (notes/assumptions/32.md). -/
def Obligations.TxDrainAndGuard : Prop :=
  ∀ (s : State) (n : Nat) (i : Framer), s.framers[n]? = some i →
    (i.phase = .txWaitDone →
      ((s.params.txIrq = true ∧ i.evf.getLsbD 0 = true) ∨ (s.params.txIrq = false ∧ i.txq = []) →
        runInput (.controller n) s = .next
          { s with
            framers := s.framers.set n
              { i with
                de := if s.params.dePresent then false else i.de
                evf := i.evf &&& 0b0111
                tmr3 := .running
                phase := .txGuard } }) ∧
      ((s.params.txIrq = true ∧ i.evf.getLsbD 0 = false) ∨ (s.params.txIrq = false ∧ i.txq ≠ []) →
        runInput (.controller n) s = .next s)) ∧
    (i.phase = .txGuard → i.op = .tx →
      (i.evf.getLsbD 3 = true →
        runInput (.controller n) s = .next
          { s with
            framers := s.framers.set n { i with txStatus := .ok, op := .none, phase := .idle }
            result := .tx n .ok }) ∧
      (i.evf.getLsbD 3 = false → runInput (.controller n) s = .next s))

/-- A whole transmission (R130 to R136): after RTU_TX on an idle instance that is up, the transmitter's steps, the drain wait,
the guard's expiry and the guard put exactly the ADU on the wire and leave the instance idle with `TX_STATUS = OK` and the
driver-enable line released, with and without `TX_IRQ` and `DE_PRESENT`. That `TXQ` is empty before is part of the
invariant. That `TX_UNIT` and `TX_ADU`, which R34 defines only while `OP = TX`, keep the frame's values after it is the model's
choice (notes/assumptions/32.md). -/
def Obligations.TransmissionPutsAduOnWire : Prop :=
  ∀ (s : State) (inst : U16) (unit : Byte) (buf : BufRef) (len : U16) (i : Framer) (p : List Byte),
    s.framers[inst.toNat]? = some i → i.op = .none → i.down = false → i.txq = [] →
    1 ≤ len.toNat → len.toNat ≤ 253 → p.length = len.toNat → s.Holds buf p →
    Out.andThen (exec (.rtuTx inst unit buf len) s)
      (runInputs (List.replicate (len.toNat + 3) (Input.env inst.toNat .txStep) ++
        [.controller inst.toNat, .env inst.toNat .expireT3p5, .controller inst.toNat])) = .next
      { s with
        framers := s.framers.set inst.toNat
          { i with
            txUnit := unit
            txAdu := unit :: (p ++ putLe16 (aduCrc unit p))
            wireOut := i.wireOut ++ unit :: (p ++ putLe16 (aduCrc unit p))
            evf := i.evf ||| 0b1001
            tmr3 := .stopped
            de := if s.params.dePresent then false else i.de
            txStatus := .ok
            op := .none
            phase := .idle }
        result := .tx inst.toNat .ok }

/-! ### Reset, the invariant and the whole machine (10_state.md, 70_reset_and_hazards.md) -/

/-- R45, R185, R186: the reset of the block gives every register and environment of every instance the value of R45's table,
clears `REFUSED`, and leaves the host's tables as they are; no command is in progress. The programmed intervals and `result`,
for which R45 gives no value, are left out (notes/assumptions/15.md). -/
def Obligations.ResetGivesEveryRegisterItsValue : Prop :=
  ∀ s : State, ∃ t, runInput .reset s = .next t ∧
    t.crcAcc = 0xFFFF ∧ t.refused = false ∧ t.params = s.params ∧ t.host = s.host ∧
    t.framers.length = s.framers.length ∧
    ∀ i ∈ t.framers,
      i.phase = .idle ∧ i.op = .none ∧ i.cfgBaud = 0 ∧ i.t1p5Us = 0 ∧ i.t3p5Us = 0 ∧ i.slaveId = 0 ∧ i.evf = 0b0000 ∧
      i.bcast = false ∧ i.down = true ∧ i.de = false ∧ i.rxUnit = 0 ∧ i.rxbuf = [] ∧ i.rxPduLen = 0 ∧ i.rxTmo = 0 ∧
      i.rxCrc = 0xFFFF ∧ i.frameOk = true ∧ i.rxStatus = .ok ∧ i.txStatus = .ok ∧ i.txUnit = 0 ∧ i.txAdu = [] ∧
      i.rxfifo = [] ∧ i.txq = [] ∧ i.tmr1 = .stopped ∧ i.tmr3 = .stopped ∧ i.wireOut = []

/-- R186: what the host observes right after the reset of the block. -/
def Obligations.ObservationsAfterReset : Prop :=
  ∀ (s t : State) (inst : U16), inst.toNat < s.framers.length → runInput .reset s = .next t →
    (∃ u, exec (.rtuIsDown inst) t = .next u ∧ u.result = .flag true) ∧
    (∀ tmo, ∃ u, exec (.rtuRx inst tmo) t = .next u ∧ u.result = .rxFail inst.toNat .down) ∧
    (∀ unit pdu len, 1 ≤ len.toNat → len.toNat ≤ 253 → ¬t.Short pdu len.toNat →
      ∃ u, exec (.rtuTx inst unit pdu len) t = .next u ∧ u.result = .tx inst.toNat .down) ∧
    (∃ u, exec (.rtuBringup inst) t = .next u ∧ u.result = .status .notConfigured) ∧
    (∀ b, b ≠ 0 → ∃ u, Out.andThen (exec (.rtuCfgBaud inst b) t) (exec (.rtuBringup inst)) = .next u ∧
      u.result = .status .ok) ∧
    (∃ u, exec (.rtuRxIsBcast inst) t = .next u ∧ u.result = .flag false) ∧
    (∃ u, exec (.rtuRxAvail inst) t = .next u ∧ u.result = .flag false) ∧
    (∃ u, exec .crcRead t = .next u ∧ u.result = .crc 0xFFFF) ∧
    (∃ u, exec (.rtuStatus inst) t = .next u ∧ u.result = .framerStatus .idle .none 0 0 0 0)

/-- The state after reset has the invariant. -/
def Obligations.ResetHasInvariant : Prop := State.reset.Inv

/-- Every step keeps the invariant: `OP` is the command of `PHASE` (R23); an instance that is up is configured and its intervals
are those of its baud rate (R25, R108); `EV_RX` stands for waiting bytes and a running timer has not set its flag (R114,
R176); `RXBUF` does not overflow and `RX_CRC` is the CRC of what was captured (R120, R123); `RX_PDU_LEN` and `BCAST` follow
the last receive (R125); `DE` is 1 exactly during the drain wait and what left `TXQ` is on the wire (R131, R136); the host's
stores stay canonical, its tables keep their sizes (R42), and the parameters stay in their domains, with at least one
instance (R8). What it says of the receive registers after a receive rests on the model's keeping them
(notes/assumptions/32.md). -/
def Obligations.StepKeepsInvariant : Prop :=
  ∀ s t : State, s.Inv → step s = .next t → t.Inv

/-- R188: no step changes the parameters or the number of instances. -/
def Obligations.StepKeepsParameters : Prop :=
  ∀ s t : State, step s = .next t → t.params = s.params ∧ t.framers.length = s.framers.length

/-- R47, R183: an input that works on one instance leaves every other as it was, and what an environment event or a controller
step does to its instance depends on nothing but that instance and the parameters. -/
def Obligations.InstancesShareNothing : Prop :=
  (∀ (inp : Input) (s t : State) (m : Nat), runInput inp s = .next t → inp ≠ .reset → inp.target ≠ some m →
    t.framers[m]? = s.framers[m]?) ∧
  (∀ (inp : Input) (s s' t t' : State) (n : Nat), (inp = .controller n ∨ ∃ e, inp = .env n e) →
    s.params = s'.params → s.framers[n]? = s'.framers[n]? → runInput inp s = .next t → runInput inp s' = .next t' →
    t.framers[n]? = t'.framers[n]?)

/-- R46: nothing but the reset clears the mark REFUSED. -/
def Obligations.RefusedMarkStays : Prop :=
  ∀ s t : State, step s = .next t → s.refused = true → (∀ rest, s.inputs ≠ .reset :: rest) → t.refused = true

/-- R14, R172: the input that sets the mark REFUSED changes no block state: only the mark and the result change, and for
VENDOR_OVERLONG the host's own state, which the callback may have changed (notes/assumptions/23.md). A refusal of the spec is a
next state (notes/assumptions/7.md): no step of the model is refused. -/
def Obligations.RefusalChangesNothingElse : Prop :=
  (∀ (inp : Input) (s t : State), runInput inp s = .next t → s.refused = false → t.refused = true →
    ∃ r, t.result = .refused r ∧
      (r ≠ .vendorOverlong → t = { s with refused := true, result := .refused r }) ∧
      (r = .vendorOverlong → t = { s with host := t.host, refused := true, result := .refused r })) ∧
  (∀ (s : State) (r : Refusal), step s ≠ .refused r)

/-! ### Request handlers (44_pdu_read.md, 45_pdu_write.md, 46_pdu_dispatch.md) -/

/-- READ_COILS (R141) and READ_DISCRETE_INPUTS (R142). A request PDU runs its handler as an instruction
(notes/assumptions/20.md), and the response lands in the model's response buffer (notes/assumptions/4.md). -/
def Obligations.ReadBitsHandlers : Prop :=
  ReadRule .readCoils .coils 2000 (fun q vs => 0x01 :: BitVec.ofNat 8 ((q + 7) / 8) :: pack (vs.map wordBool) q) ∧
  ReadRule .readDiscreteInputs .discreteInputs 2000
    (fun q vs => 0x02 :: BitVec.ofNat 8 ((q + 7) / 8) :: pack (vs.map wordBool) q)

/-- READ_HOLDING_REGISTERS (R143) and READ_INPUT_REGISTERS (R144). The instruction and the response buffer are the model's
(notes/assumptions/20.md, 4.md). -/
def Obligations.ReadRegistersHandlers : Prop :=
  ReadRule .readHoldingRegisters .holdingRegisters 125 (fun q vs => 0x03 :: BitVec.ofNat 8 (2 * q) :: wordsBe vs q) ∧
  ReadRule .readInputRegisters .inputRegisters 125 (fun q vs => 0x04 :: BitVec.ofNat 8 (2 * q) :: wordsBe vs q)

/-- WRITE_SINGLE_COIL (R146), and WRITE_SINGLE_REGISTER (R147) where `SUPPORT_FC06`; without it, function code 0x06 is a vendor
code. The instruction and the response buffer are the model's (notes/assumptions/20.md, 4.md). -/
def Obligations.WriteSingleHandlers : Prop :=
  WriteSingleRule (fun _ => True) .writeSingleCoil 0x05 .coils (fun v => v = 0xFF00 ∨ v = 0x0000)
    (fun v => if v = 0xFF00 then 1 else 0) ∧
  WriteSingleRule (fun s => s.params.supportFc06 = true) .writeSingleRegister 0x06 .holdingRegisters (fun _ => True)
    (fun v => v) ∧
  (∀ (s : State) (body : List Byte), s.params.supportFc06 = false →
    exec (.writeSingleRegister body) s = exec (.vendor 0x06 body) s)

/-- WRITE_MULTIPLE_COILS (R148) and WRITE_MULTIPLE_REGISTERS (R149). The instruction and the response buffer are the model's
(notes/assumptions/20.md, 4.md). -/
def Obligations.WriteMultipleHandlers : Prop :=
  WriteMultiRule .writeMultipleCoils 0x0F .coils 1968 (fun q => (q + 7) / 8)
    (fun d q => (unpack d q).map fun b => if b then 1 else 0) ∧
  WriteMultiRule .writeMultipleRegisters 0x10 .holdingRegisters 123 (fun q => 2 * q) unwordsBe

/-- READ_WRITE_MULTIPLE_REGISTERS (R150): every check before the write, the write before the read, a write not undone. The
instruction and the response buffer are the model's (notes/assumptions/20.md, 4.md). -/
def Obligations.ReadWriteMultipleHandler : Prop :=
  ∀ (s : State) (body : List Byte),
    let t := s.params.holdingRegisters
    let run := exec (.readWriteMultipleRegisters body) s
    (t.hasGet = false ∨ t.hasSet = false → run = .next (s.answered (.exc 0x01))) ∧
    (t.hasGet = true → t.hasSet = true →
      (body.length < 9 → run = .next (s.answered (.exc 0x03))) ∧
      ∀ (ra rq wa wq : U16) (n : Byte) (data : List Byte),
        body = putBe16 ra ++ putBe16 rq ++ putBe16 wa ++ putBe16 wq ++ [n] ++ data →
        (wq.toNat < 1 ∨ 121 < wq.toNat ∨ n.toNat ≠ 2 * wq.toNat ∨ data.length ≠ n.toNat ∨ rq.toNat < 1 ∨ 125 < rq.toNat →
          run = .next (s.answered (.exc 0x03))) ∧
        (1 ≤ wq.toNat → wq.toNat ≤ 121 → n.toNat = 2 * wq.toNat → data.length = n.toNat → 1 ≤ rq.toNat →
          rq.toNat ≤ 125 →
          (t.size < wa.toNat + wq.toNat ∨ t.size < ra.toNat + rq.toNat → run = .next (s.answered (.exc 0x02))) ∧
          (wa.toNat + wq.toNat ≤ t.size → ra.toNat + rq.toNat ≤ t.size →
            (∀ x h, hostSet .holdingRegisters wa.toNat wq.toNat (unwordsBe data wq.toNat) s.host = (some x, h) →
              run = .next (s.answeredExc h x)) ∧
            (∀ h, hostSet .holdingRegisters wa.toNat wq.toNat (unwordsBe data wq.toNat) s.host = (none, h) →
              (∀ x h', hostGet .holdingRegisters ra.toNat rq.toNat h = (.error x, h') →
                run = .next (s.answeredExc h' x)) ∧
              (∀ vs h', hostGet .holdingRegisters ra.toNat rq.toNat h = (.ok vs, h') →
                run = .next
                  (s.answeredOk h' (0x17 :: BitVec.ofNat 8 (2 * rq.toNat) :: wordsBe vs rq.toNat)))))))

/-- DIAGNOSTICS (R158): the loopback echoes the request byte for byte; no table is touched. The instruction and the response
buffer are the model's (notes/assumptions/20.md, 4.md). -/
def Obligations.DiagnosticsHandler : Prop :=
  ∀ (s : State) (body : List Byte),
    (body.length < 2 → exec (.diagnostics body) s = .next (s.answered (.exc 0x03))) ∧
    (∀ (sub : U16) (data : List Byte), body = putBe16 sub ++ data →
      (sub ≠ 0x0000 → exec (.diagnostics body) s = .next (s.answered (.exc 0x01))) ∧
      (sub = 0x0000 → exec (.diagnostics body) s = .next (s.answeredOk s.host (0x08 :: body))))

/-- VENDOR (R159): the first matching entry is called with the whole request. The instruction and the response buffer are the
model's (notes/assumptions/20.md, 4.md), and so is that a refused response leaves what the callback did to the host
(notes/assumptions/23.md). -/
def Obligations.VendorHandler : Prop :=
  ∀ (s : State) (fc : Byte) (body : List Byte),
    (fc ∉ s.params.vendor → exec (.vendor fc body) s = .next (s.answered (.exc 0x01))) ∧
    (∀ k, s.params.vendor[k]? = some fc → (∀ j < k, s.params.vendor[j]? ≠ some fc) →
      (∀ x h, hostVendor k (fc :: body) s.host = (.error x, h) →
        exec (.vendor fc body) s = .next (s.answeredExc h x)) ∧
      (∀ h, hostVendor k (fc :: body) s.host = (.ok [], h) →
        exec (.vendor fc body) s = .next { s with host := h, result := .handler .noResponse }) ∧
      (∀ rsp h, hostVendor k (fc :: body) s.host = (.ok rsp, h) → 1 ≤ rsp.length → rsp.length ≤ 253 →
        exec (.vendor fc body) s = .next (s.answeredOk h rsp)) ∧
      (∀ rsp h, hostVendor k (fc :: body) s.host = (.ok rsp, h) → 253 < rsp.length →
        exec (.vendor fc body) s = .next
          { s with host := h, refused := true, result := .refused .vendorOverlong }))

/-- PDU_SERVE (R154, R145, R151) reads the request, does not dispatch a broadcast read, runs the handler of the function code,
encodes its result, and suppresses the reply to a broadcast, whose writes are applied all the same. The model's own: the
`RXBUF` operand (notes/assumptions/3.md), the response buffer (4.md), the handler run as an instruction (20.md), and the host's
state after VENDOR_OVERLONG (23.md). -/
def Obligations.PduServeDispatches : Prop :=
  ∀ (s : State) (buf : BufRef) (len : U16) (bcast : Bool),
    let run := exec (.pduServe buf len bcast) s
    (253 < len.toNat → run = .next { s with refused := true, result := .refused .badLen }) ∧
    (len.toNat ≤ 253 →
      (s.Short buf len.toNat → run = .next { s with refused := true, result := .refused .badBuffer }) ∧
      (s.Unreadable buf len.toNat → run = .fault .readUnwritten) ∧
      (len = 0 → run = .next { s with result := .noReply }) ∧
      (∀ (fc : Byte) (body : List Byte), body.length + 1 = len.toNat → s.Holds buf (fc :: body) →
        (bcast = true → fc ∈ [0x01, 0x02, 0x03, 0x04, 0x17] → run = .next { s with result := .noReply }) ∧
        (bcast = false ∨ fc ∉ [0x01, 0x02, 0x03, 0x04, 0x17] →
          ∃ u t, exec (requestOf fc body) s = .next u ∧ run = .next t ∧
            (∀ rsp, u.result = .handler (.ok rsp) →
              (bcast = true → run = .next { s with host := u.host, result := .noReply }) ∧
              (bcast = false → run = .next
                { s with
                  host := u.host, mem := s.mem.writes (bufAddr responseBuffer 0) rsp, result := .response rsp })) ∧
            (∀ x, u.result = .handler (.exc x) →
              (bcast = true → run = .next { s with host := u.host, result := .noReply }) ∧
              (bcast = false → run = .next
                { s with
                  host := u.host
                  mem := s.mem.writes (bufAddr responseBuffer 0) [fc ||| 0x80, x]
                  result := .response [fc ||| 0x80, x] })) ∧
            (u.result = .handler .noResponse → run = .next { s with host := u.host, result := .noReply }) ∧
            (∀ r, u.result = .refused r → run = .next u))))

/-- R152: an instruction makes at most one `HostGet`, at most one `HostSet` and at most one `HostVendor`; a get or set is
issued only where the table has the capability and the range lies inside it, with exactly the quantity's number of elements
to set; a vendor call names a matching entry of `VENDOR`. -/
def Obligations.HostCallsAreFewAndInRange : Prop :=
  ∀ (i : Instr) (s t : State), exec i s = .next t →
    ∃ new, t.host.calls = s.host.calls ++ new ∧
      (new.filter HostCall.isGet).length ≤ 1 ∧
      (new.filter HostCall.isSet).length ≤ 1 ∧
      (new.filter HostCall.isVendor).length ≤ 1 ∧
      (∀ tb a q, HostCall.get tb a q ∈ new → (s.params.table tb).hasGet = true ∧ 1 ≤ q ∧ a + q ≤ (s.params.table tb).size) ∧
      (∀ tb a q v, HostCall.set tb a q v ∈ new →
        (s.params.table tb).hasSet = true ∧ 1 ≤ q ∧ a + q ≤ (s.params.table tb).size ∧ v.length = q) ∧
      (∀ k req, HostCall.vendor k req ∈ new → req ≠ [] ∧ s.params.vendor[k]? = some (req.headD 0))

/-- R153: with no other answer decided, the host answers a get with its table's contents, and a set writes exactly the range
(bit 0 of each value in a bit table) and answers `Ok`. -/
def Obligations.ReferenceHostReadsAndWritesTables : Prop :=
  ∀ (p : Params) (h : HostState) (tb : TableId) (a q : Nat), h.answers = [] → h.Sized p → a + q ≤ (p.table tb).size →
    (∃ vs, hostGet tb a q h = (.ok vs, { h with calls := h.calls ++ [.get tb a q] }) ∧ vs.length = q ∧
      ∀ k < q, vs[k]? = some (h.elem tb (a + k))) ∧
    (∀ v : List U16, v.length = q →
      ∃ h', hostSet tb a q v h = (none, h') ∧ h'.calls = h.calls ++ [.set tb a q v] ∧ h'.answers = [] ∧ h'.Sized p ∧
        (∀ k < q, h'.elem tb (a + k) = if tb.isBits then v.getD k 0 &&& 1 else v.getD k 0) ∧
        (∀ tb' k, tb' ≠ tb ∨ k < a ∨ a + q ≤ k → h'.elem tb' k = h.elem tb' k))

/-- R157: a handler ends with 0x01, 0x02 or 0x03 of its own, or with the very code a host capability answers (a vendor callback
with no answer decided gives the free value of notes/assumptions/12.md). Whichever capability a request calls, an answer
`Exc(X)` of it ends the handler with `Exc(X)`, and nothing is encoded (the log of the calls says which it was). That a request is
run as an instruction is notes/assumptions/20.md. -/
def Obligations.ExceptionCodesPassUnchanged : Prop :=
  (∀ (i : Instr) (s t : State) (x : Byte), family i = .request → exec i s = .next t → t.result = .handler (.exc x) →
    x ∈ [0x01, 0x02, 0x03] ∨ (∃ ans ∈ s.host.answers.take 2, ans.exc = x ∧ x ≠ 0) ∨
      (s.host.answers = [] ∧ x = (Config.vendorAnswer s.host.calls.length).exc)) ∧
  (∀ (i : Instr) (s t : State) (x : Byte) (h : HostState), family i = .request → exec i s = .next t →
    (∀ tb a q, t.host.calls = s.host.calls ++ [.get tb a q] → hostGet tb a q s.host = (.error x, h) →
      t = s.answeredExc h x) ∧
    (∀ tb a q v, t.host.calls = s.host.calls ++ [.set tb a q v] → hostSet tb a q v s.host = (some x, h) →
      t = s.answeredExc h x) ∧
    (∀ tb a q v tb' a' q' h', t.host.calls = s.host.calls ++ [.set tb a q v, .get tb' a' q'] →
      hostSet tb a q v s.host = (none, h') → hostGet tb' a' q' h' = (.error x, h) → t = s.answeredExc h x) ∧
    (∀ k req, t.host.calls = s.host.calls ++ [.vendor k req] → hostVendor k req s.host = (.error x, h) →
      t = s.answeredExc h x)) ∧
  (∀ (h : HostState) (ans : HostAnswer) (rest : List HostAnswer), h.answers = ans :: rest → ans.exc ≠ 0 →
    (∀ tb a q, (hostGet tb a q h).1 = .error ans.exc) ∧
    (∀ tb a q v, (hostSet tb a q v h).1 = some ans.exc) ∧
    (∀ k req, (hostVendor k req h).1 = .error ans.exc))

/-- PDU_EXC (R156) answers `[fc | 0x80, x]`; a function code whose bit 7 is set already is unchanged. The buffer the two bytes
land in is the model's (notes/assumptions/4.md). -/
def Obligations.PduExcEncodes : Prop :=
  ∀ (s : State) (fc x : Byte),
    exec (.pduExc fc x) s = .next
      { s with
        mem := s.mem.writes (bufAddr responseBuffer 0) [fc ||| 0x80, x], result := .excPdu [fc ||| 0x80, x] } ∧
    (fc.getLsbD 7 = true → fc ||| 0x80 = fc) ∧
    (fc ||| 0x80).getLsbD 7 = true

/-- EXCEPTION_RESPONSE, the model's reading (notes/assumptions/21.md): the two bytes of R84, and the taxonomy code the master
makes of them (R160, R166). -/
def Obligations.ExceptionResponseTranslates : Prop :=
  ∀ (s : State) (fc : BitVec 7) (x : Byte),
    ∃ t code, exec (.exceptionResponse fc x) s = .next t ∧
      t = { s with
        mem := s.mem.writes (bufAddr responseBuffer 0) [1#1 ++ fc, x], result := .excResponse [1#1 ++ fc, x] code } ∧
      (x = 0x01 → code = .illegalFunction) ∧ (x = 0x02 → code = .illegalDataAddress) ∧
      (x = 0x03 → code = .illegalDataValue) ∧ (x = 0x04 → code = .slaveDeviceFailure) ∧
      (x ∉ [0x01, 0x02, 0x03, 0x04] → code = .unknownException)

/-! ### Master side (47_pdu_master.md) -/

/-- PDU_BUILD_READ (R161) and PDU_BUILD_WRITE_SINGLE (R162) build the request exactly where their checks pass, and answer
M_LOCAL_INVALID with nothing else changed where one fails. The buffer the request lands in is the model's
(notes/assumptions/4.md). -/
def Obligations.BuildReadAndWriteSingle : Prop :=
  (∀ (s : State) (unit fc : Byte) (a q : U16),
    let legal := unit ≠ 0 ∧ 1 ≤ q.toNat ∧
      (((fc = 0x01 ∨ fc = 0x02) ∧ q.toNat ≤ 2000) ∨ ((fc = 0x03 ∨ fc = 0x04) ∧ q.toNat ≤ 125))
    (legal → exec (.pduBuildRead unit fc a q) s = .next (s.builtOk (fc :: (putBe16 a ++ putBe16 q)))) ∧
    (¬legal → exec (.pduBuildRead unit fc a q) s = .next { s with result := .build .localInvalid [] })) ∧
  (∀ (s : State) (fc : Byte) (a v : U16),
    let legal := (fc = 0x05 ∧ (v = 0xFF00 ∨ v = 0x0000)) ∨ fc = 0x06
    (legal → exec (.pduBuildWriteSingle fc a v) s = .next (s.builtOk (fc :: (putBe16 a ++ putBe16 v)))) ∧
    (¬legal → exec (.pduBuildWriteSingle fc a v) s = .next { s with result := .build .localInvalid [] }))

/-- PDU_BUILD_WRITE_MULTI (R163), BAD_BUFFER before the checks of the quantity and of the function code (R174). The
model's own: with a function code that names no kind of element, elements of either kind count (notes/assumptions/8.md), the
element buffer of the data operand (5.md) and the buffer the request lands in (4.md). -/
def Obligations.BuildWriteMulti : Prop :=
  ∀ (s : State) (fc : Byte) (a q data : U16),
    let run := exec (.pduBuildWriteMulti fc a q data) s
    (fc = 0x0F →
      ((s.dataBits data).length < q.toNat → run = .next { s with refused := true, result := .refused .badBuffer }) ∧
      (q.toNat ≤ (s.dataBits data).length →
        (q.toNat < 1 ∨ 1968 < q.toNat → run = .next { s with result := .build .localInvalid [] }) ∧
        (1 ≤ q.toNat → q.toNat ≤ 1968 →
          run = .next (s.builtOk
            ([0x0F] ++ putBe16 a ++ putBe16 q ++ [BitVec.ofNat 8 ((q.toNat + 7) / 8)] ++
              pack (s.dataBits data) q.toNat))))) ∧
    (fc = 0x10 →
      ((s.dataWords data).length < q.toNat → run = .next { s with refused := true, result := .refused .badBuffer }) ∧
      (q.toNat ≤ (s.dataWords data).length →
        (q.toNat < 1 ∨ 123 < q.toNat → run = .next { s with result := .build .localInvalid [] }) ∧
        (1 ≤ q.toNat → q.toNat ≤ 123 →
          run = .next (s.builtOk
            ([0x10] ++ putBe16 a ++ putBe16 q ++ [BitVec.ofNat 8 (2 * q.toNat)] ++
              wordsBe (s.dataWords data) q.toNat))))) ∧
    (fc ≠ 0x0F → fc ≠ 0x10 →
      (s.dataCount data < q.toNat → run = .next { s with refused := true, result := .refused .badBuffer }) ∧
      (q.toNat ≤ s.dataCount data → run = .next { s with result := .build .localInvalid [] })) ∧
    s.dataCount data = max (s.dataBits data).length (s.dataWords data).length

/-- PDU_BUILD_LOOPBACK (R164) and PDU_BUILD_RAW (R165), BAD_BUFFER before the check of the length (R174), whatever the
length is (notes/assumptions/8.md). The model's own: the `RXBUF` operand and its fault (notes/assumptions/3.md), and the buffer
the request lands in (4.md). -/
def Obligations.BuildLoopbackAndRaw : Prop :=
  ∀ (s : State) (data : BufRef) (dlen : U16),
    (s.Short data dlen.toNat →
      exec (.pduBuildLoopback data dlen) s = .next { s with refused := true, result := .refused .badBuffer } ∧
      exec (.pduBuildRaw data dlen) s = .next { s with refused := true, result := .refused .badBuffer }) ∧
    (¬s.Short data dlen.toNat →
      (250 < dlen.toNat → exec (.pduBuildLoopback data dlen) s = .next { s with result := .build .localInvalid [] }) ∧
      (dlen.toNat ≤ 250 →
        (∀ d, d.length = dlen.toNat → s.Holds data d →
          exec (.pduBuildLoopback data dlen) s = .next (s.builtOk ([0x08, 0x00, 0x00] ++ d))) ∧
        (s.Unreadable data dlen.toNat → exec (.pduBuildLoopback data dlen) s = .fault .readUnwritten)) ∧
      (dlen.toNat < 1 ∨ 253 < dlen.toNat →
        exec (.pduBuildRaw data dlen) s = .next { s with result := .build .localInvalid [] }) ∧
      (1 ≤ dlen.toNat → dlen.toNat ≤ 253 →
        (∀ d, d.length = dlen.toNat → s.Holds data d → exec (.pduBuildRaw data dlen) s = .next (s.builtOk d)) ∧
        (s.Unreadable data dlen.toNat → exec (.pduBuildRaw data dlen) s = .fault .readUnwritten)))

/-- PDU_PARSE_RSP (R166). The model's own: a context or response that is too short (for a buffer of the host also one whose length
is more than 253), or a context shorter than the fields the rule reads from it, is refused (notes/assumptions/9.md), an
`RXBUF` operand whose bytes may not be read faults (3.md), and where one operand is short and the other may not be read the
context decides (31.md). -/
def Obligations.ParseRspDecodes : Prop :=
  (∀ (s : State) (ctx rsp : BufRef) (clen len : U16),
    (s.Unreadable ctx clen.toNat → exec (.pduParseRsp ctx clen rsp len) s = .fault .readUnwritten) ∧
    (s.ShortPdu ctx clen.toNat →
      exec (.pduParseRsp ctx clen rsp len) s = .next { s with refused := true, result := .refused .badBuffer }) ∧
    (∀ c, c.length = clen.toNat → s.HoldsPdu ctx c →
      (s.Unreadable rsp len.toNat → exec (.pduParseRsp ctx clen rsp len) s = .fault .readUnwritten) ∧
      (s.ShortPdu rsp len.toNat ∨ (c = [] ∧ ∃ r, r.length = len.toNat ∧ s.HoldsPdu rsp r) →
        exec (.pduParseRsp ctx clen rsp len) s = .next { s with refused := true, result := .refused .badBuffer }))) ∧
  (∀ (s : State) (ctx rsp : BufRef) (clen len : U16) (c r : List Byte) (fc : Byte),
    c.length = clen.toNat → s.HoldsPdu ctx c → r.length = len.toNat → s.HoldsPdu rsp r → c.head? = some fc →
    let answers (code : MasterCode) (d : ParseData) : Prop :=
      exec (.pduParseRsp ctx clen rsp len) s = .next { s with result := .parse code d }
    let short : Prop :=
      exec (.pduParseRsp ctx clen rsp len) s = .next { s with refused := true, result := .refused .badBuffer }
    let q := (be16 c 3).toNat
    (r = [] → answers .malformedResponse .none) ∧
    (∀ f, r.head? = some f → f.getLsbD 7 = true →
      (r.length = 1 → answers .malformedResponse .none) ∧
      (∀ x, r[1]? = some x →
        (x = 0x01 → answers .illegalFunction .none) ∧ (x = 0x02 → answers .illegalDataAddress .none) ∧
        (x = 0x03 → answers .illegalDataValue .none) ∧ (x = 0x04 → answers .slaveDeviceFailure .none) ∧
        (x ∉ [0x01, 0x02, 0x03, 0x04] → answers .unknownException .none))) ∧
    (∀ f, r.head? = some f → f.getLsbD 7 = false →
      (f ≠ fc → answers .malformedResponse .none) ∧
      (f = fc →
        (fc ∈ [0x01, 0x02, 0x03, 0x04] → c.length < 5 → short) ∧
        (fc = 0x01 ∨ fc = 0x02 → 5 ≤ c.length →
          (r.length ≠ 2 + (q + 7) / 8 ∨ (r.getD 1 0).toNat ≠ (q + 7) / 8 → answers .malformedResponse .none) ∧
          (r.length = 2 + (q + 7) / 8 → (r.getD 1 0).toNat = (q + 7) / 8 →
            answers .ok (.bits (unpack (r.drop 2) q)))) ∧
        (fc = 0x03 ∨ fc = 0x04 → 5 ≤ c.length →
          (r.length ≠ 2 + 2 * q ∨ (r.getD 1 0).toNat ≠ 2 * q → answers .malformedResponse .none) ∧
          (r.length = 2 + 2 * q → (r.getD 1 0).toNat = 2 * q → answers .ok (.words (unwordsBe (r.drop 2) q)))) ∧
        (fc ∈ [0x05, 0x06, 0x0F, 0x10] → 5 ≤ c.length →
          (r.length ≠ 5 ∨ r.drop 1 ≠ (c.take 5).drop 1 → answers .malformedResponse .none) ∧
          (r.length = 5 → r.drop 1 = (c.take 5).drop 1 → answers .ok .none)) ∧
        (fc ∈ [0x05, 0x06, 0x0F, 0x10] → c.length < 5 →
          (r.length ≠ 5 → answers .malformedResponse .none) ∧ (r.length = 5 → short)) ∧
        (fc = 0x08 → (r ≠ c → answers .malformedResponse .none) ∧ (r = c → answers .ok .none)) ∧
        (fc ∉ [0x01, 0x02, 0x03, 0x04, 0x05, 0x06, 0x08, 0x0F, 0x10] → answers .ok (.raw r)))))

/-- R167: ADDR_SPLIT, every use and selector. -/
def Obligations.AddrSplitSelects : Prop :=
  ∀ (s : State) (addr : U32),
    let sel := addr.extractLsb' 16 16
    let a : U16 := addr.extractLsb' 0 16 - 1
    let gives (use : AddrUse) (fc : Byte) : Prop := exec (.addrSplit addr use) s = .next { s with result := .split fc a }
    let fails (use : AddrUse) : Prop :=
      exec (.addrSplit addr use) s = .next { s with result := .splitFail .localInvalid }
    (sel = 0 → gives .read 0x01 ∧ gives .write 0x0F ∧ gives .writeSingle 0x05) ∧
    (sel = 1 → gives .read 0x02 ∧ fails .write ∧ fails .writeSingle) ∧
    (sel = 3 → gives .read 0x04 ∧ fails .write ∧ fails .writeSingle) ∧
    (sel = 4 → gives .read 0x03 ∧ gives .write 0x10 ∧ gives .writeSingle 0x06) ∧
    (sel ∉ [0, 1, 3, 4] → fails .read ∧ fails .write ∧ fails .writeSingle) ∧
    (addr.extractLsb' 0 16 = 0 → a = 0xFFFF) ∧ (addr.extractLsb' 0 16 = 1 → a = 0)

/-- R139, R140: what `pack` and `words_be` produce, bit by bit and byte by byte, and that unpacking gives back what was
packed. -/
def Obligations.PackingRoundTrips : Prop :=
  (∀ (bits : List Bool) (q : Nat),
    (pack bits q).length = (q + 7) / 8 ∧
    (∀ j < (q + 7) / 8, ∀ k < 8,
      ((pack bits q).getD j 0).getLsbD k = (decide (8 * j + k < q) && bits.getD (8 * j + k) false)) ∧
    (bits.length = q → unpack (pack bits q) q = bits)) ∧
  (∀ (d : List Byte) (q : Nat),
    (unpack d q).length = q ∧ ∀ i < q, (unpack d q)[i]? = some ((d.getD (i / 8) 0).getLsbD (i % 8))) ∧
  (∀ (v : List U16) (q : Nat),
    (wordsBe v q).length = 2 * q ∧
    (∀ i < q, (wordsBe v q)[2 * i]? = some ((v.getD i 0).extractLsb' 8 8) ∧
      (wordsBe v q)[2 * i + 1]? = some ((v.getD i 0).extractLsb' 0 8)) ∧
    (v.length = q → unwordsBe (wordsBe v q) q = v)) ∧
  (∀ (d : List Byte) (q : Nat),
    (unwordsBe d q).length = q ∧
    ∀ i < q, (unwordsBe d q)[i]? = some ((d.getD (2 * i) 0 : Byte) ++ (d.getD (2 * i + 1) 0 : Byte)))

/-- A master's read request, served by a slave whose host answers from its tables, and parsed against the request, gives
exactly the table's elements, for holding registers and for coils (R141, R143, R153, R161, R166; §8 "encode then decode
round-trips"). The handler runs by itself (notes/assumptions/20.md) and the bytes land in the model's response buffer
(notes/assumptions/4.md). -/
def Obligations.MasterReadsWhatSlaveHolds : Prop :=
  ∀ (s : State) (unit : Byte) (a q : U16), unit ≠ 0 → s.host.answers = [] → 1 ≤ q.toNat →
    (q.toNat ≤ 125 → s.params.holdingRegisters.hasGet = true →
      a.toNat + q.toNat ≤ s.params.holdingRegisters.size →
      ∃ req rsp s1 s2, exec (.pduBuildRead unit 0x03 a q) s = .next s1 ∧ s1.result = .build .ok (0x03 :: req) ∧
        exec (.readHoldingRegisters req) s1 = .next s2 ∧ s2.result = .handler (.ok rsp) ∧ rsp.length ≤ 253 ∧
        ∀ (m : State) (ctx buf : BufRef), m.Holds ctx (0x03 :: req) → m.Holds buf rsp →
          exec (.pduParseRsp ctx (BitVec.ofNat 16 (req.length + 1)) buf (BitVec.ofNat 16 rsp.length)) m = .next
            { m with
              result := .parse .ok
                (.words ((List.range q.toNat).map fun k => s.host.holdingRegisters.getD (a.toNat + k) 0)) }) ∧
    (q.toNat ≤ 2000 → s.params.coils.hasGet = true → a.toNat + q.toNat ≤ s.params.coils.size →
      ∃ req rsp s1 s2, exec (.pduBuildRead unit 0x01 a q) s = .next s1 ∧ s1.result = .build .ok (0x01 :: req) ∧
        exec (.readCoils req) s1 = .next s2 ∧ s2.result = .handler (.ok rsp) ∧ rsp.length ≤ 253 ∧
        ∀ (m : State) (ctx buf : BufRef), m.Holds ctx (0x01 :: req) → m.Holds buf rsp →
          exec (.pduParseRsp ctx (BitVec.ofNat 16 (req.length + 1)) buf (BitVec.ofNat 16 rsp.length)) m = .next
            { m with
              result := .parse .ok
                (.bits ((List.range q.toNat).map fun k => s.host.coils.getD (a.toNat + k) false)) })

/-! ### Memory, encodings, the step, the host's reads, the slave cycle -/

/-- The frame of memory: a CRC command, a framer command and a frame on the wire leave every byte of every buffer; a codec
command, a request and a response store exactly the bytes their result returns, from the first address of the response
buffer on (the model's choice of buffer, notes/assumptions/4.md), and leave every other byte. -/
def Obligations.MemoryFrame : Prop :=
  ∀ (i : Instr) (s t : State), exec i s = .next t →
    (family i = .crc ∨ family i = .framer ∨ family i = .adu → ∀ k, t.mem.read k = s.mem.read k) ∧
    (family i = .codec ∨ family i = .request ∨ family i = .response →
      ∀ k, t.mem.read k =
        if bufAddr responseBuffer 0 ≤ k ∧ k < bufAddr responseBuffer 0 + (storedBytes t.result).length
        then (storedBytes t.result)[k - bufAddr responseBuffer 0]? else s.mem.read k)

/-- Decoding is a left inverse of encoding, for every well-formed instruction of every port. -/
def Obligations.DecodeOfEncode : Prop := ∀ i : Instr, i.wf = true → decode i.port (encode i) = .ok i

/-- Bytes written out from the spec's own encodings (R68, R70, R74 to R84 and 95_test_vectors.md) decode to the instructions
they stand for. The bytes of a command's `inst` and of a buffer reference are the model's layout (notes/assumptions/2.md,
3.md). -/
def Obligations.SpecWordsDecode : Prop :=
  decode .command [0x01, 0xFF, 0xFF] = .ok (.crcLoad 0xFFFF) ∧
  decode .command [0x02, 0x44] = .ok (.crcFeed 0x44) ∧
  decode .command [0x10, 0x00, 0x00, 0x00, 0x00, 0x4B, 0x00] = .ok (.rtuCfgBaud 0 19200) ∧
  decode .command [0x16, 0x00, 0x01, 0x00, 0x00, 0x13, 0x88] = .ok (.rtuRx 1 5000) ∧
  decode .command [0x22, 0x01, 0x03, 0x00, 0x00, 0x00, 0x04] = .ok (.pduBuildRead 1 0x03 0 4) ∧
  decode .command [0x28, 0x00, 0x04, 0x00, 0x0A, 0x00] = .ok (.addrSplit 0x0004000A .read) ∧
  decode .request [0x03, 0x00, 0x00, 0x00, 0x04] = .ok (.readHoldingRegisters [0x00, 0x00, 0x00, 0x04]) ∧
  decode .request [0x0F, 0x00, 0x02, 0x00, 0x0A, 0x02, 0xFF, 0x03] =
    .ok (.writeMultipleCoils [0x00, 0x02, 0x00, 0x0A, 0x02, 0xFF, 0x03]) ∧
  decode .request [0x08, 0x00, 0x00, 0xA5, 0x37] = .ok (.diagnostics [0x00, 0x00, 0xA5, 0x37]) ∧
  decode .request [0x41, 0x12] = .ok (.vendor 0x41 [0x12]) ∧
  decode .response [0x81, 0x02] = .ok (.exceptionResponse 0x01 0x02) ∧
  decode (.wire 0) [0x01, 0x03, 0x00, 0x00, 0x00, 0x04, 0x44, 0x09] =
    .ok (.rtuAdu 0 0x01 [0x03, 0x00, 0x00, 0x00, 0x04] 0x0944)

/-- A step performs the oldest pending input. When the bytes at a port decode to an instruction, the step is its meaning on the
state without that input; with nothing pending the block waits (R185). The list of pending inputs is the model's
(notes/assumptions/1.md). Bytes that are no instruction of their port do not stop the step (notes/assumptions/2.md): no command
is refused RESERVED_CMD, but for an undefined `use` of ADDR_SPLIT (R167 "otherwise"); a request of no bytes is not dispatched
and one that is too long is refused BAD_LEN (R154); a response is translated as far as it can be alone (21.md); bytes on the
wire arrive (22.md). -/
def Obligations.StepRunsDecodedInstruction : Prop :=
  (∀ (s : State) (p : Port) (bytes : List Byte) (rest : List Input) (i : Instr),
    s.inputs = .port p bytes :: rest → decode p bytes = .ok i → step s = exec i { s with inputs := rest }) ∧
  (∀ (s : State) (rest : List Input) (i : Instr), i.wf = true → s.inputs = .port i.port (encode i) :: rest →
    step s = exec i { s with inputs := rest }) ∧
  (∀ (s : State) (inp : Input) (rest : List Input), s.inputs = inp :: rest →
    step s = runInput inp { s with inputs := rest }) ∧
  (∀ s : State, s.inputs = [] → step s = .next s) ∧
  (∀ (s t : State) (p : Port) (bytes : List Byte) (rest : List Input) (e : DecodeError),
    s.inputs = .port p bytes :: rest → t = { s with inputs := rest } → decode p bytes = .error e →
    (p = .command → e = .badUse → step s = .next { t with result := .splitFail .localInvalid }) ∧
    (p = .command → e ≠ .badUse → step s = .next { t with refused := true, result := .refused .reservedCmd }) ∧
    (p = .request → bytes = [] → step s = .next { t with result := .noReply }) ∧
    (p = .request → bytes ≠ [] → step s = .next { t with refused := true, result := .refused .badLen }) ∧
    (p = .response →
      (∀ r0 x more, bytes = r0 :: x :: more → r0.getLsbD 7 = true →
        step s = .next { t with result := .parse (masterCode x) .none }) ∧
      (bytes.length < 2 ∨ (bytes.headD 0).getLsbD 7 = false →
        step s = .next { t with result := .parse .malformedResponse .none })) ∧
    (∀ inst, p = .wire inst →
      step s = .next (t.act inst.toNat fun i => some (i.frame t.params bytes))))

/-- R69: every command code outside R68 is refused, whatever follows it, and changes nothing but the mark. -/
def Obligations.ReservedCommandIsRefused : Prop :=
  ∀ (s : State) (c : Byte) (operands : List Byte),
    c ∉ [0x01, 0x02, 0x03, 0x04, 0x10, 0x11, 0x12, 0x13, 0x14, 0x15, 0x16, 0x17, 0x18, 0x19, 0x20, 0x21, 0x22, 0x23, 0x24,
      0x25, 0x26, 0x27, 0x28] →
    runInput (.port .command (c :: operands)) s = .next { s with refused := true, result := .refused .reservedCmd }

/-- The host reads a byte of `RXBUF` below `RX_PDU_LEN` after an `OK` completion and faults everywhere else (R46, R173). That a
receive in progress ends what may be read is deduced (notes/assumptions/17.md), and the refusal BAD_INST for an instance that
does not exist is the model's (notes/assumptions/28.md). The premise is a part of the invariant. -/
def Obligations.HostReadsOnlyReceivedBytes : Prop :=
  ∀ (s : State) (n k : Nat),
    (∀ i, s.framers[n]? = some i → i.ReceivedOk →
      (i.op ≠ .rx → i.rxStatus = .ok → k < i.rxPduLen →
        ∃ b, i.rxbuf[k]? = some b ∧ runInput (.readRxbuf n k) s = .next { s with result := .byte b }) ∧
      (i.op = .rx ∨ i.rxStatus ≠ .ok ∨ i.rxPduLen ≤ k → runInput (.readRxbuf n k) s = .fault .readUnwritten)) ∧
    (s.framers[n]? = none →
      runInput (.readRxbuf n k) s = .next { s with refused := true, result := .refused .badInst })

/-- R191, R192: the slave cycle, with whatever else happens while RTU_RX waits, between its return and the next command, while
the request is served and while RTU_TX waits. RTU_RX with a timeout of 5000 begins it, and only an `OK` receive is served. After
one, a broadcast is never answered, and a broadcast read reaches no handler; a reply is not sent once another byte has arrived,
before PDU_SERVE or while the request is served, and that byte stays for the next receive; otherwise the response, normal or
exception (R154), is handed to RTU_TX with unit `SLAVE_ID`, and a handler without a response sends nothing. -/
def Obligations.SlaveCycleSuppressesReplies : Prop :=
  (∀ (s e t u : State) (inst : U16) (turn : SlaveTurn) (left : List Input), s.running inst = false →
    exec (.rtuRx inst 5000) s = .next e →
    awaitIdle inst (turn.rxWait.filter (Input.besides inst)) e = (.next t, left) → t.running inst = false →
    runInputs left t = .next u →
    (∀ n st, t.result = .rxFail n st → slaveCycle inst turn s = .next { u with result := .rxFail n st }) ∧
    (∀ n id pdu, t.result = .rxOk n id pdu →
      slaveCycle inst turn s =
        Out.andThen (slaveReply inst turn.serving { u with result := .rxOk n id pdu }) (runBeside inst turn.txWait))) ∧
  ∀ (s : State) (inst : U16) (i : Framer), s.framers[inst.toNat]? = some i →
    (∀ (serving : List Input) (s1 s2 : State),
      exec (.pduServe (.rx inst) (BitVec.ofNat 16 i.rxPduLen) i.bcast) { s with result := .flag i.bcast } = .next s1 →
      runInputs (serving.filter (Input.whileServing inst)) s1 = .next s2 →
      (i.bcast = true → slaveReply inst serving s = .next s2) ∧
      (∀ j, s2.framers[inst.toNat]? = some j → j.rxfifo ≠ [] →
        ∃ t, slaveReply inst serving s = .next t ∧ t.framers = s2.framers)) ∧
    (∀ b t, slaveReply inst [.env inst.toNat (.byte b)] s = .next t →
      t.framers = s.framers.set inst.toNat
        { i with
          rxfifo := i.rxfifo ++ [b]
          evf := (i.evf ||| 0b0010) &&& 0b0011
          tmr1 := .running
          tmr3 := .running }) ∧
    (i.bcast = true ∨ i.rxfifo ≠ [] → ∀ t, slaveReply inst [] s = .next t → t.framers = s.framers) ∧
    (∀ fc body, i.readable = fc :: body → i.rxPduLen = body.length + 1 → i.rxPduLen ≤ 253 →
      (i.bcast = true → fc ∈ [0x01, 0x02, 0x03, 0x04, 0x17] →
        ∃ t, slaveReply inst [] s = .next t ∧ t.host = s.host ∧ t.framers = s.framers) ∧
      (i.bcast = false → i.rxfifo = [] → i.op = .none → i.down = false →
        ∀ u, exec (requestOf fc body) s = .next u →
          let sends (rsp : List Byte) : Prop :=
            ∃ t, slaveReply inst [] s = .next t ∧ t.host = u.host ∧
              t.framers = s.framers.set inst.toNat
                { i with
                  txUnit := i.slaveId
                  txAdu := i.slaveId :: (rsp ++ putLe16 (aduCrc i.slaveId rsp))
                  op := .tx
                  de := if s.params.dePresent then true else i.de
                  evf := i.evf &&& 0b1110
                  txq := i.txq ++ i.slaveId :: (rsp ++ putLe16 (aduCrc i.slaveId rsp))
                  phase := .txWaitDone }
          (∀ rsp, u.result = .handler (.ok rsp) → 1 ≤ rsp.length → rsp.length ≤ 253 → sends rsp) ∧
          (∀ x, u.result = .handler (.exc x) → sends [fc ||| 0x80, x]) ∧
          (u.result = .handler .noResponse →
            ∃ t, slaveReply inst [] s = .next t ∧ t.host = u.host ∧ t.framers = s.framers)))
end

