-- ==== Sys2Proof/Laws/Codec.lean ====
section
/-! SUPPORT. Lemmas about the byte-order helpers and the packings: what comes out of what was put in, and lengths. -/

namespace Sys2Proof

@[simp] theorem word_hi_lo (v : U16) : word (hiByte v) (loByte v) = v := by
  apply BitVec.eq_of_getLsbD_eq
  intro i hi
  simp only [word, hiByte, loByte, BitVec.getLsbD_append, BitVec.getLsbD_extractLsb']
  by_cases h : i < 8
  · simp [h]
  · have h1 : i - 8 < 8 := by omega
    have h2 : 8 + (i - 8) = i := by omega
    simp [h, h1, h2]

@[simp] theorem hiByte_word (h l : Byte) : hiByte (word h l) = h := by
  apply BitVec.eq_of_getLsbD_eq
  intro i hi
  have h1 : ¬ 8 + i < 8 := by omega
  simp only [word, hiByte, BitVec.getLsbD_append, BitVec.getLsbD_extractLsb', hi]
  simp

@[simp] theorem loByte_word (h l : Byte) : loByte (word h l) = l := by
  apply BitVec.eq_of_getLsbD_eq
  intro i hi
  simp only [word, loByte, BitVec.getLsbD_append, BitVec.getLsbD_extractLsb', hi]
  simp [hi]

@[simp] theorem putBe16_length (v : U16) : (putBe16 v).length = 2 := rfl

@[simp] theorem putLe16_length (v : U16) : (putLe16 v).length = 2 := rfl

@[simp] theorem putBe32_length (v : U32) : (putBe32 v).length = 4 := rfl

@[simp] theorem pairBody_length (a v : U16) : (pairBody a v).length = 4 := rfl

/-- A u32 from its four bytes. -/
@[simp] theorem dword_bytes (v : U32) :
    dword (v.extractLsb' 24 8) (v.extractLsb' 16 8) (v.extractLsb' 8 8) (v.extractLsb' 0 8) = v := by
  apply BitVec.eq_of_getLsbD_eq
  intro i hi
  simp only [dword, BitVec.getLsbD_append, BitVec.getLsbD_extractLsb']
  by_cases h1 : i < 8
  · simp [h1]
  · by_cases h2 : i - 8 < 8
    · have e : 8 + (i - 8) = i := by omega
      simp [h1, h2, e]
    · by_cases h3 : i - 8 - 8 < 8
      · have e : 16 + (i - 8 - 8) = i := by omega
        simp [h1, h2, h3, e]
      · have h4 : i - 8 - 8 - 8 < 8 := by omega
        have e : 24 + (i - 8 - 8 - 8) = i := by omega
        simp [h1, h2, h3, h4, e]

/-- A buffer reference from its three bytes. -/
@[simp] theorem getRef_putRef (r : BufRef) :
    getRef ((putRef r).getD 0 0) ((putRef r).getD 1 0) ((putRef r).getD 2 0) = some r := by
  cases r <;> simp [putRef, putBe16, getRef]

/-- A kind byte other than 0 and 1 refers to no buffer. -/
theorem getRef_eq_none (k h l : Byte) : getRef k h l = none ↔ k ≠ 0 ∧ k ≠ 1 := by
  unfold getRef; split_ifs <;> simp_all

/-- A buffer reference is three bytes that read back as it. -/
theorem putRef_eq (r : BufRef) : ∃ k h l, putRef r = [k, h, l] ∧ getRef k h l = some r := by
  cases r with
  | host n => exact ⟨_, _, _, rfl, getRef_putRef (.host n)⟩
  | rx n => exact ⟨_, _, _, rfl, getRef_putRef (.rx n)⟩

@[simp] theorem putRef_length (r : BufRef) : (putRef r).length = 3 := by cases r <;> rfl

@[simp] theorem getBool_putBool (b : Bool) : getBool (putBool b) = some b := by cases b <;> rfl

@[simp] theorem getUse_putUse (u : AddrUse) : getUse (putUse u) = some u := by cases u <;> rfl

/-- `be16` reads the two bytes at its offset. -/
theorem be16_cons_cons (h l : Byte) (d : List Byte) : be16 (h :: l :: d) 0 = word h l := rfl

theorem be16_cons_succ (b : Byte) (d : List Byte) (i : Nat) : be16 (b :: d) (i + 1) = be16 d i := rfl

/-- The first and second u16 field of a `{address, quantity}` payload. -/
@[simp] theorem be16_pair_first (fc : Byte) (a v : U16) (d : List Byte) : be16 (fc :: (pairBody a v ++ d)) 1 = a :=
  word_hi_lo a

@[simp] theorem be16_pair_second (fc : Byte) (a v : U16) (d : List Byte) : be16 (fc :: (pairBody a v ++ d)) 3 = v :=
  word_hi_lo v

@[simp] theorem be16_pair_first' (fc : Byte) (a v : U16) : be16 (fc :: pairBody a v) 1 = a := word_hi_lo a

@[simp] theorem be16_pair_second' (fc : Byte) (a v : U16) : be16 (fc :: pairBody a v) 3 = v := word_hi_lo v

/-- Four bytes are an address and a quantity. -/
theorem eq_pairBody (d : List Byte) (h : d.length = 4) : ∃ a v, d = pairBody a v := by
  match d, h with
  | [b0, b1, b2, b3], _ => exact ⟨word b0 b1, word b2 b3, by simp [pairBody, putBe16]⟩

end Sys2Proof

namespace Sys2Proof.Machine

theorem ceil8_le (q n : Nat) (h : q ≤ 8 * n) : ceil8 q ≤ n := by unfold ceil8; omega

theorem packByte_fold_getLsbD (f : Nat → Bool) (n k : Nat) (hn : n ≤ 8) :
    ((List.range n).foldl (fun acc j => if f j then acc ||| (1#8 <<< j) else acc) 0#8).getLsbD k =
      (decide (k < n) && f k) := by
  induction n with
  | zero => simp
  | succ n ih =>
    rw [List.range_succ, List.foldl_append]
    simp only [List.foldl_cons, List.foldl_nil]
    have hone : (1#8 <<< n).getLsbD k = decide (k = n) := by
      rw [BitVec.getLsbD_shiftLeft]
      by_cases hk : k = n
      · subst hk; simp; omega
      · by_cases h1 : k < n
        · simp [h1, hk]
        · have h2 : k - n ≠ 0 := by omega
          simp [hk, h2]
    by_cases hf : f n = true
    · rw [if_pos hf, BitVec.getLsbD_or, ih (by omega), hone]
      by_cases hk : k = n
      · subst hk; simp [hf]
      · have : decide (k < n + 1) = decide (k < n) := by simp; omega
        rw [this]; simp [hk]
    · rw [if_neg hf, ih (by omega)]
      by_cases hk : k = n
      · subst hk; simp [hf]
      · have : decide (k < n + 1) = decide (k < n) := by simp; omega
        rw [this]

/-- Bit `k` of `packByte f` is `f k`. -/
theorem packByte_getLsbD (f : Nat → Bool) (k : Nat) : (packByte f).getLsbD k = (decide (k < 8) && f k) :=
  packByte_fold_getLsbD f 8 k (Nat.le_refl 8)

@[simp] theorem pack_length (bits : List Bool) (q : Nat) : (pack bits q).length = ceil8 q := by simp [pack]

@[simp] theorem unpack_length (d : List Byte) (q : Nat) : (unpack d q).length = q := by simp [unpack]

@[simp] theorem unwordsBe_length (d : List Byte) (q : Nat) : (unwordsBe d q).length = q := by simp [unwordsBe]

@[simp] theorem wordsBe_length (v : List U16) (q : Nat) : (wordsBe v q).length = 2 * q := by
  simp [wordsBe, List.length_flatMap, Nat.mul_comm]

end Sys2Proof.Machine
end

