-- ==== Sys2Proof/Laws/Crc.lean ====
section
/-! SUPPORT. Lemmas about the CRC-16 function (40_crc.md R92): its equations, and what eight shifts do to a register whose
low or high byte is clear. -/

namespace Sys2Proof

@[simp] theorem crc16_nil (p : U16) : crc16 [] p = p := rfl

@[simp] theorem crc16_cons (b : Byte) (s : List Byte) (p : U16) : crc16 (b :: s) p = crc16 s (crcByte p b) := rfl

theorem crcBits_add (m n : Nat) (c : U16) : crcBits (m + n) c = crcBits n (crcBits m c) := by
  induction m generalizing c with
  | zero => simp [crcBits]
  | succ m ih => rw [Nat.succ_add]; exact ih _

/-- A register whose low `n` bits are clear is only shifted. -/
theorem crcBits_eight_high (h : Byte) : crcBits 8 (h ++ 0#8) = h.setWidth 16 := by
  revert h; decide

theorem crcBit_even (c : U16) (h : c.getLsbD 0 = false) : crcBit c = c >>> 1 := if_neg (Bool.eq_false_iff.mp h)

theorem crcBit_odd (c : U16) (h : c.getLsbD 0 = true) : crcBit c = (c >>> 1) ^^^ Config.crcPoly := if_pos h

theorem shift_eq_of_bit (c d : U16) (h0 : c.getLsbD 0 = d.getLsbD 0) (h : c >>> 1 = d >>> 1) : c = d := by
  apply BitVec.eq_of_getLsbD_eq
  intro i hi
  cases i with
  | zero => exact h0
  | succ i =>
    have := congrArg (fun x : U16 => x.getLsbD i) h
    simpa [Nat.add_comm] using this

/-- One shift loses nothing: the polynomial's top bit tells which branch was taken. -/
theorem crcBit_injective (c d : U16) (h : crcBit c = crcBit d) : c = d := by
  have top : ∀ x : U16, (x >>> 1).getLsbD 15 = false := fun x => by simp
  cases hc : c.getLsbD 0 <;> cases hd : d.getLsbD 0
  · rw [crcBit_even c hc, crcBit_even d hd] at h
    exact shift_eq_of_bit c d (hc.trans hd.symm) h
  · rw [crcBit_even c hc, crcBit_odd d hd] at h
    have := congrArg (fun x : U16 => x.getLsbD 15) h
    simp only [BitVec.getLsbD_xor, top, Config.crcPoly] at this
    exact absurd this (by decide)
  · rw [crcBit_odd c hc, crcBit_even d hd] at h
    have := congrArg (fun x : U16 => x.getLsbD 15) h
    simp only [BitVec.getLsbD_xor, top, Config.crcPoly] at this
    exact absurd this (by decide)
  · rw [crcBit_odd c hc, crcBit_odd d hd] at h
    exact shift_eq_of_bit c d (hc.trans hd.symm) (by
      have := congrArg (· ^^^ Config.crcPoly) h
      simpa [BitVec.xor_assoc] using this)

theorem crcBits_injective (n : Nat) (c d : U16) (h : crcBits n c = crcBits n d) : c = d := by
  induction n generalizing c d with
  | zero => exact h
  | succ n ih => exact crcBit_injective _ _ (ih _ _ h)

end Sys2Proof
end

