-- ==== Sys2Proof/Laws/Memory.lean ====
section
/-! SUPPORT. The laws of the stores: what a read gives after a write, and that every operation keeps the canonical form. -/

namespace Sys2Proof.Machine

theorem assocGet_assocPut {α : Type} (k k' : Nat) (v : α) (m : List (Nat × α)) :
    assocGet k (assocPut k' v m) = if k = k' then some v else assocGet k m := by
  induction m with
  | nil =>
    by_cases h : k = k'
    · simp [assocPut, assocGet, h]
    · simp [assocPut, assocGet, h, Ne.symm h]
  | cons c r ih =>
    obtain ⟨j, w⟩ := c
    simp only [assocPut]
    by_cases h1 : k' < j
    · by_cases h : k = k'
      · simp [h1, assocGet, h]
      · simp [h1, assocGet, h, Ne.symm h]
    · by_cases h2 : k' = j
      · subst h2
        by_cases h : k = k'
        · simp [assocGet, h]
        · simp [assocGet, h, Ne.symm h]
      · rw [if_neg h1, if_neg h2]
        simp only [assocGet, ih]
        by_cases h3 : j = k
        · rw [if_pos h3, if_pos h3, if_neg (by omega)]
        · rw [if_neg h3, if_neg h3]

theorem assocPut_keys {α : Type} (k : Nat) (v : α) (m : List (Nat × α)) (j : Nat)
    (h : j ∈ (assocPut k v m).map Prod.fst) : j = k ∨ j ∈ m.map Prod.fst := by
  induction m with
  | nil => simpa [assocPut] using h
  | cons c r ih =>
    obtain ⟨i, w⟩ := c
    simp only [assocPut] at h
    split_ifs at h
    · simpa using h
    · simp only [List.map_cons, List.mem_cons] at h ⊢; tauto
    · simp only [List.map_cons, List.mem_cons] at h ⊢
      rcases h with h | h
      · exact .inr (.inl h)
      · rcases ih h with h | h <;> simp [h]

theorem assocPut_wf {α : Type} (k : Nat) (v : α) (m : List (Nat × α)) (h : assocWf m) : assocWf (assocPut k v m) := by
  induction m with
  | nil => simp [assocPut, assocWf]
  | cons c r ih =>
    obtain ⟨i, w⟩ := c
    simp only [assocWf, List.map_cons, List.pairwise_cons] at h
    simp only [assocPut]
    split_ifs with h1 h2
    · simp only [assocWf, List.map_cons, List.pairwise_cons, List.mem_cons]
      refine ⟨?_, h⟩
      rintro a (rfl | ha)
      · exact h1
      · exact Nat.lt_trans h1 (h.1 a ha)
    · subst h2; exact List.pairwise_cons.mpr h
    · refine List.pairwise_cons.mpr ⟨fun a ha => ?_, ih h.2⟩
      rcases assocPut_keys k v r a ha with rfl | ha
      · omega
      · exact h.1 a ha

theorem assocGet_filter {α : Type} (p : Nat → Bool) (k : Nat) (m : List (Nat × α)) :
    assocGet k (m.filter fun c => p c.1) = if p k then assocGet k m else none := by
  induction m with
  | nil => simp [assocGet]
  | cons c r ih =>
    obtain ⟨j, w⟩ := c
    by_cases hj : p j = true
    · rw [List.filter_cons_of_pos (by simpa using hj)]
      simp only [assocGet, ih]
      split_ifs <;> simp_all
    · rw [List.filter_cons_of_neg (by simpa using hj), ih]
      simp only [assocGet]
      split_ifs <;> simp_all

/-! ### Memory -/

theorem Memory.nil_wf : Memory.wf ([] : Memory) := List.Pairwise.nil

theorem Memory.write_wf (m : Memory) (a : Nat) (b : Byte) (h : m.wf) : (m.write a b).wf := assocPut_wf a b m h

theorem Memory.writes_wf (m : Memory) (a : Nat) (bs : List Byte) (h : m.wf) : (m.writes a bs).wf := by
  induction bs generalizing m a with
  | nil => exact h
  | cons b bs ih => exact ih _ _ (m.write_wf a b h)

theorem Memory.drop_wf (m : Memory) (n : U16) (h : m.wf) : (m.drop n).wf :=
  List.Pairwise.sublist (List.filter_sublist.map _) h

theorem Memory.read_write (m : Memory) (a k : Nat) (b : Byte) :
    (m.write a b).read k = if k = a then some b else m.read k := assocGet_assocPut k a b m

/-- A read after a write of a block of bytes: the byte written there, or what stood there before. -/
theorem Memory.read_writes (m : Memory) (a k : Nat) (bs : List Byte) :
    (m.writes a bs).read k = if a ≤ k ∧ k < a + bs.length then bs[k - a]? else m.read k := by
  induction bs generalizing m a with
  | nil => rw [if_neg (by simp)]; rfl
  | cons b bs ih =>
    simp only [Memory.writes, ih, Memory.read_write, List.length_cons]
    by_cases h1 : k = a
    · subst h1; simp
    · by_cases h2 : a + 1 ≤ k ∧ k < a + 1 + bs.length
      · have h3 : a ≤ k ∧ k < a + (bs.length + 1) := by omega
        have h4 : k - a = (k - (a + 1)) + 1 := by omega
        simp [h2, h3, h4]
      · have h3 : ¬(a ≤ k ∧ k < a + (bs.length + 1)) := by omega
        rw [if_neg h2, if_neg h3, if_neg h1]

theorem Memory.read_drop (m : Memory) (n : U16) (k : Nat) :
    (m.drop n).read k = if bufAddr n 0 ≤ k ∧ k < bufAddr n bufferSpan then none else m.read k := by
  have h := assocGet_filter (fun j => !(decide (bufAddr n 0 ≤ j) && decide (j < bufAddr n bufferSpan))) k m
  simp only [Memory.read, Memory.drop, h]
  split_ifs <;> simp_all

/-- `reads` gives the bytes that stand at the addresses, and gives them exactly when all are there. -/
theorem Memory.reads_eq_some (m : Memory) (a n : Nat) (bs : List Byte) :
    m.reads a n = some bs ↔ bs.length = n ∧ ∀ k (h : k < bs.length), m.read (a + k) = some bs[k] := by
  induction n generalizing a bs with
  | zero =>
    simp only [Memory.reads, Option.some.injEq]
    constructor
    · rintro rfl; simp
    · rintro ⟨h, -⟩; exact (List.length_eq_zero_iff.mp h).symm
  | succ n ih =>
    simp only [Memory.reads]
    cases hr : m.read a with
    | none =>
      simp only [reduceCtorEq, false_iff, not_and]
      intro hl hk
      have := hk 0 (by omega)
      simp [hr] at this
    | some b =>
      simp only [Option.map_eq_some_iff]
      constructor
      · rintro ⟨r, h, rfl⟩
        obtain ⟨h1, h2⟩ := (ih _ _).mp h
        refine ⟨by simp [h1], ?_⟩
        rintro (_ | k) hk
        · simpa using hr
        · have := h2 k (by simpa using hk)
          simpa [Nat.add_assoc, Nat.add_comm, Nat.add_left_comm] using this
      · rintro ⟨h1, h2⟩
        cases bs with
        | nil => simp at h1
        | cons c bs =>
          have h0 := h2 0 (by simp)
          simp only [Nat.add_zero, hr, List.getElem_cons_zero, Option.some.injEq] at h0
          subst h0
          refine ⟨bs, (ih _ _).mpr ⟨by simpa using h1, fun k hk => ?_⟩, rfl⟩
          have := h2 (k + 1) (by simpa using hk)
          simpa [Nat.add_assoc, Nat.add_comm, Nat.add_left_comm] using this

/-- `reads` fails exactly when some byte is missing. -/
theorem Memory.reads_eq_none (m : Memory) (a n : Nat) :
    m.reads a n = none ↔ ∃ k < n, m.read (a + k) = none := by
  induction n generalizing a with
  | zero => simp [Memory.reads]
  | succ n ih =>
    simp only [Memory.reads]
    cases hr : m.read a with
    | none => exact ⟨fun _ => ⟨0, by omega, by simpa using hr⟩, fun _ => rfl⟩
    | some b =>
      simp only [Option.map_eq_none_iff, ih]
      constructor
      · rintro ⟨k, hk, h⟩; exact ⟨k + 1, by omega, by simpa [Nat.add_assoc, Nat.add_comm, Nat.add_left_comm] using h⟩
      · rintro ⟨k, hk, h⟩
        cases k with
        | zero => simp [hr] at h
        | succ k => exact ⟨k, by omega, by simpa [Nat.add_assoc, Nat.add_comm, Nat.add_left_comm] using h⟩

end Sys2Proof.Machine
end

