-- ==== Sys2Proof/Laws/State.lean ====
section
/-! SUPPORT. One lemma per field per update of the state and of an instance, true by rfl: no later proof unfolds a record
update. -/

namespace Sys2Proof.Machine

/-! ### The state -/
@[simp] theorem State.ret_params (r : Result) (s : State) : (s.ret r).params = s.params := rfl
@[simp] theorem State.ret_framers (r : Result) (s : State) : (s.ret r).framers = s.framers := rfl
@[simp] theorem State.ret_crcAcc (r : Result) (s : State) : (s.ret r).crcAcc = s.crcAcc := rfl
@[simp] theorem State.ret_mem (r : Result) (s : State) : (s.ret r).mem = s.mem := rfl
@[simp] theorem State.ret_data (r : Result) (s : State) : (s.ret r).data = s.data := rfl
@[simp] theorem State.ret_host (r : Result) (s : State) : (s.ret r).host = s.host := rfl
@[simp] theorem State.ret_result (r : Result) (s : State) : (s.ret r).result = r := rfl
@[simp] theorem State.ret_refused (r : Result) (s : State) : (s.ret r).refused = s.refused := rfl
@[simp] theorem State.ret_inputs (r : Result) (s : State) : (s.ret r).inputs = s.inputs := rfl
@[simp] theorem State.refuse_params (r : Reason) (s : State) : (s.refuse r).params = s.params := rfl
@[simp] theorem State.refuse_framers (r : Reason) (s : State) : (s.refuse r).framers = s.framers := rfl
@[simp] theorem State.refuse_crcAcc (r : Reason) (s : State) : (s.refuse r).crcAcc = s.crcAcc := rfl
@[simp] theorem State.refuse_mem (r : Reason) (s : State) : (s.refuse r).mem = s.mem := rfl
@[simp] theorem State.refuse_data (r : Reason) (s : State) : (s.refuse r).data = s.data := rfl
@[simp] theorem State.refuse_host (r : Reason) (s : State) : (s.refuse r).host = s.host := rfl
@[simp] theorem State.refuse_result (r : Reason) (s : State) : (s.refuse r).result = .refused r := rfl
@[simp] theorem State.refuse_refused (r : Reason) (s : State) : (s.refuse r).refused = true := rfl
@[simp] theorem State.refuse_inputs (r : Reason) (s : State) : (s.refuse r).inputs = s.inputs := rfl
@[simp] theorem State.respond_params (bs : List Byte) (s : State) : (s.respond bs).params = s.params := rfl
@[simp] theorem State.respond_framers (bs : List Byte) (s : State) : (s.respond bs).framers = s.framers := rfl
@[simp] theorem State.respond_crcAcc (bs : List Byte) (s : State) : (s.respond bs).crcAcc = s.crcAcc := rfl
@[simp] theorem State.respond_mem (bs : List Byte) (s : State) : (s.respond bs).mem = s.mem.writes (bufAddr responseBuffer 0) bs := rfl
@[simp] theorem State.respond_data (bs : List Byte) (s : State) : (s.respond bs).data = s.data := rfl
@[simp] theorem State.respond_host (bs : List Byte) (s : State) : (s.respond bs).host = s.host := rfl
@[simp] theorem State.respond_result (bs : List Byte) (s : State) : (s.respond bs).result = s.result := rfl
@[simp] theorem State.respond_refused (bs : List Byte) (s : State) : (s.respond bs).refused = s.refused := rfl
@[simp] theorem State.respond_inputs (bs : List Byte) (s : State) : (s.respond bs).inputs = s.inputs := rfl
@[simp] theorem State.setFramer_params (n : Nat) (i : Framer) (s : State) : (s.setFramer n i).params = s.params := rfl
@[simp] theorem State.setFramer_framers (n : Nat) (i : Framer) (s : State) : (s.setFramer n i).framers = s.framers.set n i := rfl
@[simp] theorem State.setFramer_crcAcc (n : Nat) (i : Framer) (s : State) : (s.setFramer n i).crcAcc = s.crcAcc := rfl
@[simp] theorem State.setFramer_mem (n : Nat) (i : Framer) (s : State) : (s.setFramer n i).mem = s.mem := rfl
@[simp] theorem State.setFramer_data (n : Nat) (i : Framer) (s : State) : (s.setFramer n i).data = s.data := rfl
@[simp] theorem State.setFramer_host (n : Nat) (i : Framer) (s : State) : (s.setFramer n i).host = s.host := rfl
@[simp] theorem State.setFramer_result (n : Nat) (i : Framer) (s : State) : (s.setFramer n i).result = s.result := rfl
@[simp] theorem State.setFramer_refused (n : Nat) (i : Framer) (s : State) : (s.setFramer n i).refused = s.refused := rfl
@[simp] theorem State.setFramer_inputs (n : Nat) (i : Framer) (s : State) : (s.setFramer n i).inputs = s.inputs := rfl

/-! ### One instance -/
@[simp] theorem Framer.raise_phase (m : BitVec 4) (i : Framer) : (i.raise m).phase = i.phase := rfl
@[simp] theorem Framer.raise_op (m : BitVec 4) (i : Framer) : (i.raise m).op = i.op := rfl
@[simp] theorem Framer.raise_cfgBaud (m : BitVec 4) (i : Framer) : (i.raise m).cfgBaud = i.cfgBaud := rfl
@[simp] theorem Framer.raise_t1p5Us (m : BitVec 4) (i : Framer) : (i.raise m).t1p5Us = i.t1p5Us := rfl
@[simp] theorem Framer.raise_t3p5Us (m : BitVec 4) (i : Framer) : (i.raise m).t3p5Us = i.t3p5Us := rfl
@[simp] theorem Framer.raise_slaveId (m : BitVec 4) (i : Framer) : (i.raise m).slaveId = i.slaveId := rfl
@[simp] theorem Framer.raise_evf (m : BitVec 4) (i : Framer) : (i.raise m).evf = i.evf ||| m := rfl
@[simp] theorem Framer.raise_bcast (m : BitVec 4) (i : Framer) : (i.raise m).bcast = i.bcast := rfl
@[simp] theorem Framer.raise_down (m : BitVec 4) (i : Framer) : (i.raise m).down = i.down := rfl
@[simp] theorem Framer.raise_de (m : BitVec 4) (i : Framer) : (i.raise m).de = i.de := rfl
@[simp] theorem Framer.raise_rxUnit (m : BitVec 4) (i : Framer) : (i.raise m).rxUnit = i.rxUnit := rfl
@[simp] theorem Framer.raise_rxbuf (m : BitVec 4) (i : Framer) : (i.raise m).rxbuf = i.rxbuf := rfl
@[simp] theorem Framer.raise_frameOk (m : BitVec 4) (i : Framer) : (i.raise m).frameOk = i.frameOk := rfl
@[simp] theorem Framer.raise_rxCrc (m : BitVec 4) (i : Framer) : (i.raise m).rxCrc = i.rxCrc := rfl
@[simp] theorem Framer.raise_rxTmo (m : BitVec 4) (i : Framer) : (i.raise m).rxTmo = i.rxTmo := rfl
@[simp] theorem Framer.raise_rxStatus (m : BitVec 4) (i : Framer) : (i.raise m).rxStatus = i.rxStatus := rfl
@[simp] theorem Framer.raise_rxPduLen (m : BitVec 4) (i : Framer) : (i.raise m).rxPduLen = i.rxPduLen := rfl
@[simp] theorem Framer.raise_txUnit (m : BitVec 4) (i : Framer) : (i.raise m).txUnit = i.txUnit := rfl
@[simp] theorem Framer.raise_txAdu (m : BitVec 4) (i : Framer) : (i.raise m).txAdu = i.txAdu := rfl
@[simp] theorem Framer.raise_txStatus (m : BitVec 4) (i : Framer) : (i.raise m).txStatus = i.txStatus := rfl
@[simp] theorem Framer.raise_rxfifo (m : BitVec 4) (i : Framer) : (i.raise m).rxfifo = i.rxfifo := rfl
@[simp] theorem Framer.raise_tmr1 (m : BitVec 4) (i : Framer) : (i.raise m).tmr1 = i.tmr1 := rfl
@[simp] theorem Framer.raise_tmr3 (m : BitVec 4) (i : Framer) : (i.raise m).tmr3 = i.tmr3 := rfl
@[simp] theorem Framer.raise_interval1 (m : BitVec 4) (i : Framer) : (i.raise m).interval1 = i.interval1 := rfl
@[simp] theorem Framer.raise_interval3 (m : BitVec 4) (i : Framer) : (i.raise m).interval3 = i.interval3 := rfl
@[simp] theorem Framer.raise_txq (m : BitVec 4) (i : Framer) : (i.raise m).txq = i.txq := rfl
@[simp] theorem Framer.raise_wireOut (m : BitVec 4) (i : Framer) : (i.raise m).wireOut = i.wireOut := rfl
@[simp] theorem Framer.clear_phase (m : BitVec 4) (i : Framer) : (i.clear m).phase = i.phase := rfl
@[simp] theorem Framer.clear_op (m : BitVec 4) (i : Framer) : (i.clear m).op = i.op := rfl
@[simp] theorem Framer.clear_cfgBaud (m : BitVec 4) (i : Framer) : (i.clear m).cfgBaud = i.cfgBaud := rfl
@[simp] theorem Framer.clear_t1p5Us (m : BitVec 4) (i : Framer) : (i.clear m).t1p5Us = i.t1p5Us := rfl
@[simp] theorem Framer.clear_t3p5Us (m : BitVec 4) (i : Framer) : (i.clear m).t3p5Us = i.t3p5Us := rfl
@[simp] theorem Framer.clear_slaveId (m : BitVec 4) (i : Framer) : (i.clear m).slaveId = i.slaveId := rfl
@[simp] theorem Framer.clear_evf (m : BitVec 4) (i : Framer) : (i.clear m).evf = i.evf &&& ~~~m := rfl
@[simp] theorem Framer.clear_bcast (m : BitVec 4) (i : Framer) : (i.clear m).bcast = i.bcast := rfl
@[simp] theorem Framer.clear_down (m : BitVec 4) (i : Framer) : (i.clear m).down = i.down := rfl
@[simp] theorem Framer.clear_de (m : BitVec 4) (i : Framer) : (i.clear m).de = i.de := rfl
@[simp] theorem Framer.clear_rxUnit (m : BitVec 4) (i : Framer) : (i.clear m).rxUnit = i.rxUnit := rfl
@[simp] theorem Framer.clear_rxbuf (m : BitVec 4) (i : Framer) : (i.clear m).rxbuf = i.rxbuf := rfl
@[simp] theorem Framer.clear_frameOk (m : BitVec 4) (i : Framer) : (i.clear m).frameOk = i.frameOk := rfl
@[simp] theorem Framer.clear_rxCrc (m : BitVec 4) (i : Framer) : (i.clear m).rxCrc = i.rxCrc := rfl
@[simp] theorem Framer.clear_rxTmo (m : BitVec 4) (i : Framer) : (i.clear m).rxTmo = i.rxTmo := rfl
@[simp] theorem Framer.clear_rxStatus (m : BitVec 4) (i : Framer) : (i.clear m).rxStatus = i.rxStatus := rfl
@[simp] theorem Framer.clear_rxPduLen (m : BitVec 4) (i : Framer) : (i.clear m).rxPduLen = i.rxPduLen := rfl
@[simp] theorem Framer.clear_txUnit (m : BitVec 4) (i : Framer) : (i.clear m).txUnit = i.txUnit := rfl
@[simp] theorem Framer.clear_txAdu (m : BitVec 4) (i : Framer) : (i.clear m).txAdu = i.txAdu := rfl
@[simp] theorem Framer.clear_txStatus (m : BitVec 4) (i : Framer) : (i.clear m).txStatus = i.txStatus := rfl
@[simp] theorem Framer.clear_rxfifo (m : BitVec 4) (i : Framer) : (i.clear m).rxfifo = i.rxfifo := rfl
@[simp] theorem Framer.clear_tmr1 (m : BitVec 4) (i : Framer) : (i.clear m).tmr1 = i.tmr1 := rfl
@[simp] theorem Framer.clear_tmr3 (m : BitVec 4) (i : Framer) : (i.clear m).tmr3 = i.tmr3 := rfl
@[simp] theorem Framer.clear_interval1 (m : BitVec 4) (i : Framer) : (i.clear m).interval1 = i.interval1 := rfl
@[simp] theorem Framer.clear_interval3 (m : BitVec 4) (i : Framer) : (i.clear m).interval3 = i.interval3 := rfl
@[simp] theorem Framer.clear_txq (m : BitVec 4) (i : Framer) : (i.clear m).txq = i.txq := rfl
@[simp] theorem Framer.clear_wireOut (m : BitVec 4) (i : Framer) : (i.clear m).wireOut = i.wireOut := rfl
@[simp] theorem Framer.timerInit_phase (t1 t3 : U32) (i : Framer) : (i.timerInit t1 t3).phase = i.phase := rfl
@[simp] theorem Framer.timerInit_op (t1 t3 : U32) (i : Framer) : (i.timerInit t1 t3).op = i.op := rfl
@[simp] theorem Framer.timerInit_cfgBaud (t1 t3 : U32) (i : Framer) : (i.timerInit t1 t3).cfgBaud = i.cfgBaud := rfl
@[simp] theorem Framer.timerInit_t1p5Us (t1 t3 : U32) (i : Framer) : (i.timerInit t1 t3).t1p5Us = i.t1p5Us := rfl
@[simp] theorem Framer.timerInit_t3p5Us (t1 t3 : U32) (i : Framer) : (i.timerInit t1 t3).t3p5Us = i.t3p5Us := rfl
@[simp] theorem Framer.timerInit_slaveId (t1 t3 : U32) (i : Framer) : (i.timerInit t1 t3).slaveId = i.slaveId := rfl
@[simp] theorem Framer.timerInit_evf (t1 t3 : U32) (i : Framer) : (i.timerInit t1 t3).evf = i.evf := rfl
@[simp] theorem Framer.timerInit_bcast (t1 t3 : U32) (i : Framer) : (i.timerInit t1 t3).bcast = i.bcast := rfl
@[simp] theorem Framer.timerInit_down (t1 t3 : U32) (i : Framer) : (i.timerInit t1 t3).down = i.down := rfl
@[simp] theorem Framer.timerInit_de (t1 t3 : U32) (i : Framer) : (i.timerInit t1 t3).de = i.de := rfl
@[simp] theorem Framer.timerInit_rxUnit (t1 t3 : U32) (i : Framer) : (i.timerInit t1 t3).rxUnit = i.rxUnit := rfl
@[simp] theorem Framer.timerInit_rxbuf (t1 t3 : U32) (i : Framer) : (i.timerInit t1 t3).rxbuf = i.rxbuf := rfl
@[simp] theorem Framer.timerInit_frameOk (t1 t3 : U32) (i : Framer) : (i.timerInit t1 t3).frameOk = i.frameOk := rfl
@[simp] theorem Framer.timerInit_rxCrc (t1 t3 : U32) (i : Framer) : (i.timerInit t1 t3).rxCrc = i.rxCrc := rfl
@[simp] theorem Framer.timerInit_rxTmo (t1 t3 : U32) (i : Framer) : (i.timerInit t1 t3).rxTmo = i.rxTmo := rfl
@[simp] theorem Framer.timerInit_rxStatus (t1 t3 : U32) (i : Framer) : (i.timerInit t1 t3).rxStatus = i.rxStatus := rfl
@[simp] theorem Framer.timerInit_rxPduLen (t1 t3 : U32) (i : Framer) : (i.timerInit t1 t3).rxPduLen = i.rxPduLen := rfl
@[simp] theorem Framer.timerInit_txUnit (t1 t3 : U32) (i : Framer) : (i.timerInit t1 t3).txUnit = i.txUnit := rfl
@[simp] theorem Framer.timerInit_txAdu (t1 t3 : U32) (i : Framer) : (i.timerInit t1 t3).txAdu = i.txAdu := rfl
@[simp] theorem Framer.timerInit_txStatus (t1 t3 : U32) (i : Framer) : (i.timerInit t1 t3).txStatus = i.txStatus := rfl
@[simp] theorem Framer.timerInit_rxfifo (t1 t3 : U32) (i : Framer) : (i.timerInit t1 t3).rxfifo = i.rxfifo := rfl
@[simp] theorem Framer.timerInit_tmr1 (t1 t3 : U32) (i : Framer) : (i.timerInit t1 t3).tmr1 = i.tmr1 := rfl
@[simp] theorem Framer.timerInit_tmr3 (t1 t3 : U32) (i : Framer) : (i.timerInit t1 t3).tmr3 = i.tmr3 := rfl
@[simp] theorem Framer.timerInit_interval1 (t1 t3 : U32) (i : Framer) : (i.timerInit t1 t3).interval1 = t1 := rfl
@[simp] theorem Framer.timerInit_interval3 (t1 t3 : U32) (i : Framer) : (i.timerInit t1 t3).interval3 = t3 := rfl
@[simp] theorem Framer.timerInit_txq (t1 t3 : U32) (i : Framer) : (i.timerInit t1 t3).txq = i.txq := rfl
@[simp] theorem Framer.timerInit_wireOut (t1 t3 : U32) (i : Framer) : (i.timerInit t1 t3).wireOut = i.wireOut := rfl
@[simp] theorem Framer.timerStart1_phase (i : Framer) : i.timerStart1.phase = i.phase := rfl
@[simp] theorem Framer.timerStart1_op (i : Framer) : i.timerStart1.op = i.op := rfl
@[simp] theorem Framer.timerStart1_cfgBaud (i : Framer) : i.timerStart1.cfgBaud = i.cfgBaud := rfl
@[simp] theorem Framer.timerStart1_t1p5Us (i : Framer) : i.timerStart1.t1p5Us = i.t1p5Us := rfl
@[simp] theorem Framer.timerStart1_t3p5Us (i : Framer) : i.timerStart1.t3p5Us = i.t3p5Us := rfl
@[simp] theorem Framer.timerStart1_slaveId (i : Framer) : i.timerStart1.slaveId = i.slaveId := rfl
@[simp] theorem Framer.timerStart1_evf (i : Framer) : i.timerStart1.evf = i.evf := rfl
@[simp] theorem Framer.timerStart1_bcast (i : Framer) : i.timerStart1.bcast = i.bcast := rfl
@[simp] theorem Framer.timerStart1_down (i : Framer) : i.timerStart1.down = i.down := rfl
@[simp] theorem Framer.timerStart1_de (i : Framer) : i.timerStart1.de = i.de := rfl
@[simp] theorem Framer.timerStart1_rxUnit (i : Framer) : i.timerStart1.rxUnit = i.rxUnit := rfl
@[simp] theorem Framer.timerStart1_rxbuf (i : Framer) : i.timerStart1.rxbuf = i.rxbuf := rfl
@[simp] theorem Framer.timerStart1_frameOk (i : Framer) : i.timerStart1.frameOk = i.frameOk := rfl
@[simp] theorem Framer.timerStart1_rxCrc (i : Framer) : i.timerStart1.rxCrc = i.rxCrc := rfl
@[simp] theorem Framer.timerStart1_rxTmo (i : Framer) : i.timerStart1.rxTmo = i.rxTmo := rfl
@[simp] theorem Framer.timerStart1_rxStatus (i : Framer) : i.timerStart1.rxStatus = i.rxStatus := rfl
@[simp] theorem Framer.timerStart1_rxPduLen (i : Framer) : i.timerStart1.rxPduLen = i.rxPduLen := rfl
@[simp] theorem Framer.timerStart1_txUnit (i : Framer) : i.timerStart1.txUnit = i.txUnit := rfl
@[simp] theorem Framer.timerStart1_txAdu (i : Framer) : i.timerStart1.txAdu = i.txAdu := rfl
@[simp] theorem Framer.timerStart1_txStatus (i : Framer) : i.timerStart1.txStatus = i.txStatus := rfl
@[simp] theorem Framer.timerStart1_rxfifo (i : Framer) : i.timerStart1.rxfifo = i.rxfifo := rfl
@[simp] theorem Framer.timerStart1_tmr1 (i : Framer) : i.timerStart1.tmr1 = .running := rfl
@[simp] theorem Framer.timerStart1_tmr3 (i : Framer) : i.timerStart1.tmr3 = i.tmr3 := rfl
@[simp] theorem Framer.timerStart1_interval1 (i : Framer) : i.timerStart1.interval1 = i.interval1 := rfl
@[simp] theorem Framer.timerStart1_interval3 (i : Framer) : i.timerStart1.interval3 = i.interval3 := rfl
@[simp] theorem Framer.timerStart1_txq (i : Framer) : i.timerStart1.txq = i.txq := rfl
@[simp] theorem Framer.timerStart1_wireOut (i : Framer) : i.timerStart1.wireOut = i.wireOut := rfl
@[simp] theorem Framer.timerStart3_phase (i : Framer) : i.timerStart3.phase = i.phase := rfl
@[simp] theorem Framer.timerStart3_op (i : Framer) : i.timerStart3.op = i.op := rfl
@[simp] theorem Framer.timerStart3_cfgBaud (i : Framer) : i.timerStart3.cfgBaud = i.cfgBaud := rfl
@[simp] theorem Framer.timerStart3_t1p5Us (i : Framer) : i.timerStart3.t1p5Us = i.t1p5Us := rfl
@[simp] theorem Framer.timerStart3_t3p5Us (i : Framer) : i.timerStart3.t3p5Us = i.t3p5Us := rfl
@[simp] theorem Framer.timerStart3_slaveId (i : Framer) : i.timerStart3.slaveId = i.slaveId := rfl
@[simp] theorem Framer.timerStart3_evf (i : Framer) : i.timerStart3.evf = i.evf := rfl
@[simp] theorem Framer.timerStart3_bcast (i : Framer) : i.timerStart3.bcast = i.bcast := rfl
@[simp] theorem Framer.timerStart3_down (i : Framer) : i.timerStart3.down = i.down := rfl
@[simp] theorem Framer.timerStart3_de (i : Framer) : i.timerStart3.de = i.de := rfl
@[simp] theorem Framer.timerStart3_rxUnit (i : Framer) : i.timerStart3.rxUnit = i.rxUnit := rfl
@[simp] theorem Framer.timerStart3_rxbuf (i : Framer) : i.timerStart3.rxbuf = i.rxbuf := rfl
@[simp] theorem Framer.timerStart3_frameOk (i : Framer) : i.timerStart3.frameOk = i.frameOk := rfl
@[simp] theorem Framer.timerStart3_rxCrc (i : Framer) : i.timerStart3.rxCrc = i.rxCrc := rfl
@[simp] theorem Framer.timerStart3_rxTmo (i : Framer) : i.timerStart3.rxTmo = i.rxTmo := rfl
@[simp] theorem Framer.timerStart3_rxStatus (i : Framer) : i.timerStart3.rxStatus = i.rxStatus := rfl
@[simp] theorem Framer.timerStart3_rxPduLen (i : Framer) : i.timerStart3.rxPduLen = i.rxPduLen := rfl
@[simp] theorem Framer.timerStart3_txUnit (i : Framer) : i.timerStart3.txUnit = i.txUnit := rfl
@[simp] theorem Framer.timerStart3_txAdu (i : Framer) : i.timerStart3.txAdu = i.txAdu := rfl
@[simp] theorem Framer.timerStart3_txStatus (i : Framer) : i.timerStart3.txStatus = i.txStatus := rfl
@[simp] theorem Framer.timerStart3_rxfifo (i : Framer) : i.timerStart3.rxfifo = i.rxfifo := rfl
@[simp] theorem Framer.timerStart3_tmr1 (i : Framer) : i.timerStart3.tmr1 = i.tmr1 := rfl
@[simp] theorem Framer.timerStart3_tmr3 (i : Framer) : i.timerStart3.tmr3 = .running := rfl
@[simp] theorem Framer.timerStart3_interval1 (i : Framer) : i.timerStart3.interval1 = i.interval1 := rfl
@[simp] theorem Framer.timerStart3_interval3 (i : Framer) : i.timerStart3.interval3 = i.interval3 := rfl
@[simp] theorem Framer.timerStart3_txq (i : Framer) : i.timerStart3.txq = i.txq := rfl
@[simp] theorem Framer.timerStart3_wireOut (i : Framer) : i.timerStart3.wireOut = i.wireOut := rfl
@[simp] theorem Framer.streamWriteAll_phase (bs : List Byte) (i : Framer) : (i.streamWriteAll bs).phase = i.phase := rfl
@[simp] theorem Framer.streamWriteAll_op (bs : List Byte) (i : Framer) : (i.streamWriteAll bs).op = i.op := rfl
@[simp] theorem Framer.streamWriteAll_cfgBaud (bs : List Byte) (i : Framer) : (i.streamWriteAll bs).cfgBaud = i.cfgBaud := rfl
@[simp] theorem Framer.streamWriteAll_t1p5Us (bs : List Byte) (i : Framer) : (i.streamWriteAll bs).t1p5Us = i.t1p5Us := rfl
@[simp] theorem Framer.streamWriteAll_t3p5Us (bs : List Byte) (i : Framer) : (i.streamWriteAll bs).t3p5Us = i.t3p5Us := rfl
@[simp] theorem Framer.streamWriteAll_slaveId (bs : List Byte) (i : Framer) : (i.streamWriteAll bs).slaveId = i.slaveId := rfl
@[simp] theorem Framer.streamWriteAll_evf (bs : List Byte) (i : Framer) : (i.streamWriteAll bs).evf = i.evf := rfl
@[simp] theorem Framer.streamWriteAll_bcast (bs : List Byte) (i : Framer) : (i.streamWriteAll bs).bcast = i.bcast := rfl
@[simp] theorem Framer.streamWriteAll_down (bs : List Byte) (i : Framer) : (i.streamWriteAll bs).down = i.down := rfl
@[simp] theorem Framer.streamWriteAll_de (bs : List Byte) (i : Framer) : (i.streamWriteAll bs).de = i.de := rfl
@[simp] theorem Framer.streamWriteAll_rxUnit (bs : List Byte) (i : Framer) : (i.streamWriteAll bs).rxUnit = i.rxUnit := rfl
@[simp] theorem Framer.streamWriteAll_rxbuf (bs : List Byte) (i : Framer) : (i.streamWriteAll bs).rxbuf = i.rxbuf := rfl
@[simp] theorem Framer.streamWriteAll_frameOk (bs : List Byte) (i : Framer) : (i.streamWriteAll bs).frameOk = i.frameOk := rfl
@[simp] theorem Framer.streamWriteAll_rxCrc (bs : List Byte) (i : Framer) : (i.streamWriteAll bs).rxCrc = i.rxCrc := rfl
@[simp] theorem Framer.streamWriteAll_rxTmo (bs : List Byte) (i : Framer) : (i.streamWriteAll bs).rxTmo = i.rxTmo := rfl
@[simp] theorem Framer.streamWriteAll_rxStatus (bs : List Byte) (i : Framer) : (i.streamWriteAll bs).rxStatus = i.rxStatus := rfl
@[simp] theorem Framer.streamWriteAll_rxPduLen (bs : List Byte) (i : Framer) : (i.streamWriteAll bs).rxPduLen = i.rxPduLen := rfl
@[simp] theorem Framer.streamWriteAll_txUnit (bs : List Byte) (i : Framer) : (i.streamWriteAll bs).txUnit = i.txUnit := rfl
@[simp] theorem Framer.streamWriteAll_txAdu (bs : List Byte) (i : Framer) : (i.streamWriteAll bs).txAdu = i.txAdu := rfl
@[simp] theorem Framer.streamWriteAll_txStatus (bs : List Byte) (i : Framer) : (i.streamWriteAll bs).txStatus = i.txStatus := rfl
@[simp] theorem Framer.streamWriteAll_rxfifo (bs : List Byte) (i : Framer) : (i.streamWriteAll bs).rxfifo = i.rxfifo := rfl
@[simp] theorem Framer.streamWriteAll_tmr1 (bs : List Byte) (i : Framer) : (i.streamWriteAll bs).tmr1 = i.tmr1 := rfl
@[simp] theorem Framer.streamWriteAll_tmr3 (bs : List Byte) (i : Framer) : (i.streamWriteAll bs).tmr3 = i.tmr3 := rfl
@[simp] theorem Framer.streamWriteAll_interval1 (bs : List Byte) (i : Framer) : (i.streamWriteAll bs).interval1 = i.interval1 := rfl
@[simp] theorem Framer.streamWriteAll_interval3 (bs : List Byte) (i : Framer) : (i.streamWriteAll bs).interval3 = i.interval3 := rfl
@[simp] theorem Framer.streamWriteAll_txq (bs : List Byte) (i : Framer) : (i.streamWriteAll bs).txq = i.txq ++ bs := rfl
@[simp] theorem Framer.streamWriteAll_wireOut (bs : List Byte) (i : Framer) : (i.streamWriteAll bs).wireOut = i.wireOut := rfl
@[simp] theorem Framer.setDe_phase (p : Params) (v : Bool) (i : Framer) : (i.setDe p v).phase = i.phase := by
  unfold Framer.setDe; split <;> rfl
@[simp] theorem Framer.setDe_op (p : Params) (v : Bool) (i : Framer) : (i.setDe p v).op = i.op := by
  unfold Framer.setDe; split <;> rfl
@[simp] theorem Framer.setDe_cfgBaud (p : Params) (v : Bool) (i : Framer) : (i.setDe p v).cfgBaud = i.cfgBaud := by
  unfold Framer.setDe; split <;> rfl
@[simp] theorem Framer.setDe_t1p5Us (p : Params) (v : Bool) (i : Framer) : (i.setDe p v).t1p5Us = i.t1p5Us := by
  unfold Framer.setDe; split <;> rfl
@[simp] theorem Framer.setDe_t3p5Us (p : Params) (v : Bool) (i : Framer) : (i.setDe p v).t3p5Us = i.t3p5Us := by
  unfold Framer.setDe; split <;> rfl
@[simp] theorem Framer.setDe_slaveId (p : Params) (v : Bool) (i : Framer) : (i.setDe p v).slaveId = i.slaveId := by
  unfold Framer.setDe; split <;> rfl
@[simp] theorem Framer.setDe_evf (p : Params) (v : Bool) (i : Framer) : (i.setDe p v).evf = i.evf := by
  unfold Framer.setDe; split <;> rfl
@[simp] theorem Framer.setDe_bcast (p : Params) (v : Bool) (i : Framer) : (i.setDe p v).bcast = i.bcast := by
  unfold Framer.setDe; split <;> rfl
@[simp] theorem Framer.setDe_down (p : Params) (v : Bool) (i : Framer) : (i.setDe p v).down = i.down := by
  unfold Framer.setDe; split <;> rfl
@[simp] theorem Framer.setDe_de (p : Params) (v : Bool) (i : Framer) : (i.setDe p v).de = if p.dePresent then v else i.de := by
  unfold Framer.setDe; split <;> rfl
@[simp] theorem Framer.setDe_rxUnit (p : Params) (v : Bool) (i : Framer) : (i.setDe p v).rxUnit = i.rxUnit := by
  unfold Framer.setDe; split <;> rfl
@[simp] theorem Framer.setDe_rxbuf (p : Params) (v : Bool) (i : Framer) : (i.setDe p v).rxbuf = i.rxbuf := by
  unfold Framer.setDe; split <;> rfl
@[simp] theorem Framer.setDe_frameOk (p : Params) (v : Bool) (i : Framer) : (i.setDe p v).frameOk = i.frameOk := by
  unfold Framer.setDe; split <;> rfl
@[simp] theorem Framer.setDe_rxCrc (p : Params) (v : Bool) (i : Framer) : (i.setDe p v).rxCrc = i.rxCrc := by
  unfold Framer.setDe; split <;> rfl
@[simp] theorem Framer.setDe_rxTmo (p : Params) (v : Bool) (i : Framer) : (i.setDe p v).rxTmo = i.rxTmo := by
  unfold Framer.setDe; split <;> rfl
@[simp] theorem Framer.setDe_rxStatus (p : Params) (v : Bool) (i : Framer) : (i.setDe p v).rxStatus = i.rxStatus := by
  unfold Framer.setDe; split <;> rfl
@[simp] theorem Framer.setDe_rxPduLen (p : Params) (v : Bool) (i : Framer) : (i.setDe p v).rxPduLen = i.rxPduLen := by
  unfold Framer.setDe; split <;> rfl
@[simp] theorem Framer.setDe_txUnit (p : Params) (v : Bool) (i : Framer) : (i.setDe p v).txUnit = i.txUnit := by
  unfold Framer.setDe; split <;> rfl
@[simp] theorem Framer.setDe_txAdu (p : Params) (v : Bool) (i : Framer) : (i.setDe p v).txAdu = i.txAdu := by
  unfold Framer.setDe; split <;> rfl
@[simp] theorem Framer.setDe_txStatus (p : Params) (v : Bool) (i : Framer) : (i.setDe p v).txStatus = i.txStatus := by
  unfold Framer.setDe; split <;> rfl
@[simp] theorem Framer.setDe_rxfifo (p : Params) (v : Bool) (i : Framer) : (i.setDe p v).rxfifo = i.rxfifo := by
  unfold Framer.setDe; split <;> rfl
@[simp] theorem Framer.setDe_tmr1 (p : Params) (v : Bool) (i : Framer) : (i.setDe p v).tmr1 = i.tmr1 := by
  unfold Framer.setDe; split <;> rfl
@[simp] theorem Framer.setDe_tmr3 (p : Params) (v : Bool) (i : Framer) : (i.setDe p v).tmr3 = i.tmr3 := by
  unfold Framer.setDe; split <;> rfl
@[simp] theorem Framer.setDe_interval1 (p : Params) (v : Bool) (i : Framer) : (i.setDe p v).interval1 = i.interval1 := by
  unfold Framer.setDe; split <;> rfl
@[simp] theorem Framer.setDe_interval3 (p : Params) (v : Bool) (i : Framer) : (i.setDe p v).interval3 = i.interval3 := by
  unfold Framer.setDe; split <;> rfl
@[simp] theorem Framer.setDe_txq (p : Params) (v : Bool) (i : Framer) : (i.setDe p v).txq = i.txq := by
  unfold Framer.setDe; split <;> rfl
@[simp] theorem Framer.setDe_wireOut (p : Params) (v : Bool) (i : Framer) : (i.setDe p v).wireOut = i.wireOut := by
  unfold Framer.setDe; split <;> rfl

/-! ### Where an updated instance is found -/

theorem State.setFramer_same {s : State} {n : Nat} {i j : Framer} (h : s.framers[n]? = some i) :
    (s.setFramer n j).framers[n]? = some j := by
  have hn : n < s.framers.length := (List.getElem?_eq_some_iff.mp h).1
  simp [hn]

theorem State.setFramer_other {s : State} {n m : Nat} {j : Framer} (h : n ≠ m) :
    (s.setFramer n j).framers[m]? = s.framers[m]? := by
  simp [List.getElem?_set_ne h]

end Sys2Proof.Machine
end

