-- ==== Sys2Proof/Laws/Ops.lean ====
section
/-! SUPPORT. For each shared operation what it does, said once: `if the operation answers next, then …`, and the value it has
under each hypothesis. Later proofs cite these instead of unfolding the operation. -/

namespace Sys2Proof.Machine

@[simp] theorem Out.andThen_next (s : State) (f : State → Out) : Out.andThen (.next s) f = f s := rfl

@[simp] theorem Out.andThen_fault (r : Fault) (f : State → Out) : Out.andThen (.fault r) f = .fault r := rfl

@[simp] theorem Out.andThen_refused (r : Refusal) (f : State → Out) : Out.andThen (.refused r) f = .refused r := rfl

theorem Out.andThen_eq_next {o : Out} {f : State → Out} {t : State} (h : Out.andThen o f = .next t) :
    ∃ s, o = .next s ∧ f s = .next t := by
  cases o with
  | next s => exact ⟨s, rfl, h⟩
  | fault r => cases h
  | refused r => cases h

/-! ### Instances -/

theorem onFramer_some {inst : U16} {s : State} {f : Framer → Out} {i : Framer} (h : s.framers[inst.toNat]? = some i) :
    onFramer inst s f = f i := by simp only [onFramer, h]

theorem onFramer_none {inst : U16} {s : State} {f : Framer → Out} (h : s.framers[inst.toNat]? = none) :
    onFramer inst s f = .next (s.refuse .badInst) := by simp only [onFramer, h]

theorem onFramer_next {inst : U16} {s t : State} {f : Framer → Out} (h : onFramer inst s f = .next t) :
    t = s.refuse .badInst ∨ ∃ i, s.framers[inst.toNat]? = some i ∧ f i = .next t := by
  cases hi : s.framers[inst.toNat]? with
  | none => rw [onFramer_none hi] at h; cases h; exact .inl rfl
  | some i => rw [onFramer_some hi] at h; exact .inr ⟨i, rfl, h⟩

theorem onIdle_idle {inst : U16} {s : State} {f : Framer → Out} {i : Framer} (h : s.framers[inst.toNat]? = some i)
    (ho : i.op = .none) : onIdle inst s f = f i := by simp only [onIdle, onFramer_some h, ho, if_true]

theorem onIdle_busy {inst : U16} {s : State} {f : Framer → Out} {i : Framer} (h : s.framers[inst.toNat]? = some i)
    (ho : i.op ≠ .none) : onIdle inst s f = .next (s.refuse .busy) := by simp only [onIdle, onFramer_some h, ho, if_false]

theorem onIdle_next {inst : U16} {s t : State} {f : Framer → Out} (h : onIdle inst s f = .next t) :
    (∃ r, (r = .badInst ∨ r = .busy) ∧ t = s.refuse r) ∨
      ∃ i, s.framers[inst.toNat]? = some i ∧ i.op = .none ∧ f i = .next t := by
  rcases onFramer_next h with rfl | ⟨i, hi, h⟩
  · exact .inl ⟨_, .inl rfl, rfl⟩
  · by_cases ho : i.op = .none
    · rw [if_pos ho] at h; exact .inr ⟨i, hi, ho, h⟩
    · rw [if_neg ho] at h; cases h; exact .inl ⟨_, .inr rfl, rfl⟩

/-! ### Operand buffers -/

theorem fetch_holds {r : BufRef} {bs : List Byte} {n : Nat} {s : State} (hl : bs.length = n) (h : s.Holds r bs) :
    s.fetch r n = .bytes bs := by
  subst hl
  cases r with
  | host k =>
    have : s.mem.reads (bufAddr k 0) bs.length = some bs := by
      refine (Memory.reads_eq_some ..).mpr ⟨rfl, fun j hj => ?_⟩
      have := h j hj
      rw [List.getElem?_eq_getElem hj] at this
      simpa [bufAddr] using this
    simp only [State.fetch, this]
  | rx k =>
    cases hk : s.framers[k.toNat]? with
    | none =>
      obtain rfl : bs = [] := h.resolve_right fun ⟨i, hi, _⟩ => by rw [hk] at hi; cases hi
      simp only [State.fetch, hk]; rfl
    | some i =>
      have hp : bs <+: i.readable := by
        rcases h with rfl | ⟨j, hj, hp⟩
        · exact List.nil_prefix
        · rw [hk] at hj; cases hj; exact hp
      simp only [State.fetch, hk, hp.length_le, if_true]
      rw [← List.prefix_iff_eq_take.mp hp]

theorem fetch_short {r : BufRef} {n : Nat} {s : State} (h : s.Short r n) : s.fetch r n = .short := by
  cases r with
  | host k =>
    obtain ⟨j, hj, h⟩ := h
    have : s.mem.reads (bufAddr k 0) n = none :=
      (Memory.reads_eq_none ..).mpr ⟨j, hj, by simpa [bufAddr] using h⟩
    simp only [State.fetch, this]
  | rx k =>
    rcases h with ⟨hk, hn⟩ | ⟨i, hi, hl, hn⟩
    · simp only [State.fetch, hk, if_neg (Nat.pos_iff_ne_zero.mp hn)]
    · have hi : s.framers[k.toNat]? = some i := hi
      simp only [State.fetch, hi, if_neg (Nat.not_le.mpr hl), gt_iff_lt, hn, if_true]

theorem fetch_unreadable {r : BufRef} {n : Nat} {s : State} (h : s.Unreadable r n) : s.fetch r n = .unwritten := by
  cases r with
  | host k => exact h.elim
  | rx k =>
    obtain ⟨i, hi, hl, hn⟩ := h
    have hi : s.framers[k.toNat]? = some i := hi
    simp only [State.fetch, hi, if_neg (Nat.not_le.mpr hl), if_neg (Nat.not_lt.mpr hn)]

/-- Every operand buffer holds the bytes asked for, is too short, or may not be read. -/
theorem holds_or_short_or_unreadable (r : BufRef) (n : Nat) (s : State) :
    (∃ bs, bs.length = n ∧ s.Holds r bs) ∨ s.Short r n ∨ s.Unreadable r n := by
  cases r with
  | host k =>
    cases h : s.mem.reads (bufAddr k 0) n with
    | none =>
      obtain ⟨j, hj, h⟩ := (Memory.reads_eq_none ..).mp h
      exact .inr (.inl ⟨j, hj, by simpa [bufAddr] using h⟩)
    | some bs =>
      obtain ⟨hl, h⟩ := (Memory.reads_eq_some ..).mp h
      refine .inl ⟨bs, hl, fun j hj => ?_⟩
      rw [List.getElem?_eq_getElem hj, ← h j hj]
      simp [bufAddr]
  | rx k =>
    cases h : s.framers[k.toNat]? with
    | none =>
      rcases Nat.eq_zero_or_pos n with rfl | hn
      · exact .inl ⟨[], rfl, .inl rfl⟩
      · exact .inr (.inl (.inl ⟨h, hn⟩))
    | some i =>
      by_cases hn : n ≤ i.readable.length
      · exact .inl ⟨i.readable.take n, by simp [hn], .inr ⟨i, h, List.take_prefix _ _⟩⟩
      · by_cases hc : n ≤ Config.rxbufCap
        · exact .inr (.inr ⟨i, h, Nat.lt_of_not_le hn, hc⟩)
        · exact .inr (.inl (.inr ⟨i, h, Nat.lt_of_not_le hn, Nat.lt_of_not_le hc⟩))

theorem fetchPdu_holds {r : BufRef} {bs : List Byte} {n : Nat} {s : State} (hl : bs.length = n) (h : s.HoldsPdu r bs) :
    s.fetchPdu r n = .bytes bs := by
  cases r with
  | host k =>
    have hn : ¬n > Config.maxPdu := hl ▸ Nat.not_lt.mpr (h.2 rfl)
    simp only [State.fetchPdu, if_neg hn, fetch_holds hl h.1]
  | rx k => exact fetch_holds hl h.1

theorem fetchPdu_short {r : BufRef} {n : Nat} {s : State} (h : s.ShortPdu r n) : s.fetchPdu r n = .short := by
  cases r with
  | host k =>
    by_cases hn : n > Config.maxPdu
    · simp only [State.fetchPdu, if_pos hn]
    · simp only [State.fetchPdu, if_neg hn, fetch_short (h.resolve_right fun h => hn h.2)]
  | rx k => exact fetch_short (h.resolve_right fun h => Bool.noConfusion h.1)

theorem fetchPdu_unreadable {r : BufRef} {n : Nat} {s : State} (h : s.Unreadable r n) : s.fetchPdu r n = .unwritten := by
  cases r with
  | host k => exact h.elim
  | rx k => exact fetch_unreadable h

/-- Every PDU buffer operand holds the bytes asked for, is too short, or may not be read. -/
theorem pdu_holds_or_short_or_unreadable (r : BufRef) (n : Nat) (s : State) :
    (∃ bs, bs.length = n ∧ s.HoldsPdu r bs) ∨ s.ShortPdu r n ∨ s.Unreadable r n := by
  rcases holds_or_short_or_unreadable r n s with ⟨bs, hl, hb⟩ | hs | hu
  · by_cases hn : r.isHost = true ∧ Config.maxPdu < n
    · exact .inr (.inl (.inr hn))
    · exact .inl ⟨bs, hl, hb, fun h => hl ▸ Nat.not_lt.mp fun h' => hn ⟨h, h'⟩⟩
  · exact .inr (.inl (.inl hs))
  · exact .inr (.inr hu)

theorem withBytes_holds {r : BufRef} {bs : List Byte} {n : Nat} {s : State} {f : List Byte → Out} (hl : bs.length = n)
    (h : s.Holds r bs) : withBytes r n s f = f bs := by simp only [withBytes, withFetched, fetch_holds hl h]

theorem withBytes_short {r : BufRef} {n : Nat} {s : State} {f : List Byte → Out} (h : s.Short r n) :
    withBytes r n s f = .next (s.refuse .badBuffer) := by simp only [withBytes, withFetched, fetch_short h]

theorem withBytes_unreadable {r : BufRef} {n : Nat} {s : State} {f : List Byte → Out} (h : s.Unreadable r n) :
    withBytes r n s f = .fault .readUnwritten := by simp only [withBytes, withFetched, fetch_unreadable h]

theorem withBytes_next {r : BufRef} {n : Nat} {s t : State} {f : List Byte → Out} (h : withBytes r n s f = .next t) :
    t = s.refuse .badBuffer ∨ ∃ bs, bs.length = n ∧ s.Holds r bs ∧ f bs = .next t := by
  rcases holds_or_short_or_unreadable r n s with ⟨bs, hl, hb⟩ | hs | hu
  · rw [withBytes_holds hl hb] at h; exact .inr ⟨bs, hl, hb, h⟩
  · rw [withBytes_short hs] at h; cases h; exact .inl rfl
  · rw [withBytes_unreadable hu] at h; cases h

theorem withPdu_holds {r : BufRef} {bs : List Byte} {n : Nat} {s : State} {f : List Byte → Out} (hl : bs.length = n)
    (h : s.HoldsPdu r bs) : withPdu r n s f = f bs := by simp only [withPdu, withFetched, fetchPdu_holds hl h]

theorem withPdu_short {r : BufRef} {n : Nat} {s : State} {f : List Byte → Out} (h : s.ShortPdu r n) :
    withPdu r n s f = .next (s.refuse .badBuffer) := by simp only [withPdu, withFetched, fetchPdu_short h]

theorem withPdu_unreadable {r : BufRef} {n : Nat} {s : State} {f : List Byte → Out} (h : s.Unreadable r n) :
    withPdu r n s f = .fault .readUnwritten := by simp only [withPdu, withFetched, fetchPdu_unreadable h]

theorem withPdu_next {r : BufRef} {n : Nat} {s t : State} {f : List Byte → Out} (h : withPdu r n s f = .next t) :
    t = s.refuse .badBuffer ∨ ∃ bs, bs.length = n ∧ s.HoldsPdu r bs ∧ f bs = .next t := by
  rcases pdu_holds_or_short_or_unreadable r n s with ⟨bs, hl, hb⟩ | hs | hu
  · rw [withPdu_holds hl hb] at h; exact .inr ⟨bs, hl, hb, h⟩
  · rw [withPdu_short hs] at h; cases h; exact .inl rfl
  · rw [withPdu_unreadable hu] at h; cases h

/-- Bytes that an operand buffer holds, and every beginning of them, are there. -/
theorem not_short_of_holds {r : BufRef} {bs : List Byte} {n : Nat} {s : State} (hn : n ≤ bs.length) (h : s.Holds r bs) :
    ¬s.Short r n := by
  cases r with
  | host k =>
    rintro ⟨j, hj, hs⟩
    have hj : j < bs.length := Nat.lt_of_lt_of_le hj hn
    have := h j hj
    rw [hs, List.getElem?_eq_getElem hj] at this
    cases this
  | rx k =>
    have hpos (hn' : 0 < n) : bs ≠ [] := by rintro rfl; exact absurd (Nat.lt_of_lt_of_le hn' hn) (Nat.lt_irrefl 0)
    rintro (⟨hs, hp⟩ | ⟨j, hj, hl, hc⟩)
    · obtain ⟨i, hi, -⟩ := h.resolve_left (hpos hp)
      rw [hs] at hi; cases hi
    · obtain ⟨i, hi, hp⟩ := h.resolve_left (hpos (Nat.zero_lt_of_lt hc))
      obtain rfl : i = j := Option.some.inj (Eq.trans (Eq.symm hi) hj)
      exact absurd (Nat.le_trans hn hp.length_le) (Nat.not_le.mpr hl)

/-- Bytes that may not be read are there. -/
theorem not_short_of_unreadable {r : BufRef} {n : Nat} {s : State} (h : s.Unreadable r n) : ¬s.Short r n := fun hs => by
  have := (fetch_short hs).symm.trans (fetch_unreadable h)
  cases this

theorem unlessShort_short {r : BufRef} {n : Nat} {s : State} {f : Out} (h : s.Short r n) :
    unlessShort r n s f = .next (s.refuse .badBuffer) := by simp only [unlessShort, fetch_short h]

theorem unlessShort_ok {r : BufRef} {n : Nat} {s : State} {f : Out} (h : ¬s.Short r n) :
    unlessShort r n s f = f := by
  rcases holds_or_short_or_unreadable r n s with ⟨bs, hl, hb⟩ | hs | hu
  · simp only [unlessShort, fetch_holds hl hb]
  · exact absurd hs h
  · simp only [unlessShort, fetch_unreadable hu]

theorem unlessShort_next {r : BufRef} {n : Nat} {s t : State} {f : Out} (h : unlessShort r n s f = .next t) :
    t = s.refuse .badBuffer ∨ f = .next t := by
  by_cases hs : s.Short r n
  · rw [unlessShort_short hs] at h; cases h; exact .inl rfl
  · rw [unlessShort_ok hs] at h; exact .inr h

/-! ### The host's tables -/

@[simp] theorem HostState.setElem_answers (t : TableId) (a : Nat) (v : U16) (h : HostState) :
    (h.setElem t a v).answers = h.answers := by cases t <;> rfl

@[simp] theorem HostState.setElem_calls (t : TableId) (a : Nat) (v : U16) (h : HostState) :
    (h.setElem t a v).calls = h.calls := by cases t <;> rfl

theorem HostState.setElem_sized {p : Params} {t : TableId} {a : Nat} {v : U16} {h : HostState} (hs : h.Sized p) :
    (h.setElem t a v).Sized p := by
  cases t <;> simpa [HostState.Sized, HostState.setElem] using hs

@[simp] theorem HostState.setElems_answers (t : TableId) (a : Nat) (vs : List U16) (h : HostState) :
    (h.setElems t a vs).answers = h.answers := by
  induction vs generalizing a h with
  | nil => rfl
  | cons v vs ih => simp [HostState.setElems, ih]

@[simp] theorem HostState.setElems_calls (t : TableId) (a : Nat) (vs : List U16) (h : HostState) :
    (h.setElems t a vs).calls = h.calls := by
  induction vs generalizing a h with
  | nil => rfl
  | cons v vs ih => simp [HostState.setElems, ih]

theorem HostState.setElems_sized {p : Params} {t : TableId} {a : Nat} {vs : List U16} {h : HostState} (hs : h.Sized p) :
    (h.setElems t a vs).Sized p := by
  induction vs generalizing a h with
  | nil => exact hs
  | cons v vs ih => exact ih (HostState.setElem_sized hs)

@[simp] theorem HostState.pokes_answers (ps : List Poke) (h : HostState) : (h.pokes ps).answers = h.answers := by
  induction ps generalizing h with
  | nil => rfl
  | cons v vs ih => simp [HostState.pokes, ih]

@[simp] theorem HostState.pokes_calls (ps : List Poke) (h : HostState) : (h.pokes ps).calls = h.calls := by
  induction ps generalizing h with
  | nil => rfl
  | cons v vs ih => simp [HostState.pokes, ih]

theorem HostState.pokes_sized {p : Params} {ps : List Poke} {h : HostState} (hs : h.Sized p) : (h.pokes ps).Sized p := by
  induction ps generalizing h with
  | nil => exact hs
  | cons v vs ih => exact ih (HostState.setElem_sized hs)

@[simp] theorem HostState.called_answers (c : HostCall) (h : HostState) : (h.called c).answers = h.answers.tail := rfl

@[simp] theorem HostState.called_calls (c : HostCall) (h : HostState) : (h.called c).calls = h.calls ++ [c] := rfl

theorem HostState.called_sized {p : Params} {c : HostCall} {h : HostState} (hs : h.Sized p) : (h.called c).Sized p := hs

/-- What a get leaves of the host: the call noted, one answer taken, the tables' sizes as they were. -/
theorem hostGet_after (t : TableId) (a q : Nat) (h : HostState) :
    (hostGet t a q h).2.calls = h.calls ++ [.get t a q] ∧ (hostGet t a q h).2.answers = h.answers.tail ∧
      ∀ p, h.Sized p → (hostGet t a q h).2.Sized p := by
  cases ha : h.answers with
  | nil => simp only [hostGet, ha]; exact ⟨rfl, by simp [ha], fun p hs => HostState.called_sized hs⟩
  | cons ans rest =>
    simp only [hostGet, ha]
    split_ifs
    · exact ⟨by simp, by simp [ha], fun p hs => HostState.pokes_sized (HostState.called_sized hs)⟩
    · exact ⟨by simp, by simp [ha], fun p hs => HostState.pokes_sized (HostState.called_sized hs)⟩

/-- What a set leaves of the host; see `hostGet_after`. -/
theorem hostSet_after (t : TableId) (a q : Nat) (vs : List U16) (h : HostState) :
    (hostSet t a q vs h).2.calls = h.calls ++ [.set t a q vs] ∧ (hostSet t a q vs h).2.answers = h.answers.tail ∧
      ∀ p, h.Sized p → (hostSet t a q vs h).2.Sized p := by
  cases ha : h.answers with
  | nil =>
    simp only [hostSet, ha]
    exact ⟨by simp, by simp [ha], fun p hs => HostState.setElems_sized (HostState.called_sized hs)⟩
  | cons ans rest =>
    simp only [hostSet, ha]
    split_ifs
    · cases ans.effect with
      | none => exact ⟨by simp, by simp [ha], fun p hs => HostState.setElems_sized (HostState.called_sized hs)⟩
      | some ps => exact ⟨by simp, by simp [ha], fun p hs => HostState.pokes_sized (HostState.called_sized hs)⟩
    · exact ⟨by simp, by simp [ha], fun p hs => HostState.pokes_sized (HostState.called_sized hs)⟩

/-- What a vendor call leaves of the host; see `hostGet_after`. -/
theorem hostVendor_after (i : Nat) (req : List Byte) (h : HostState) :
    (hostVendor i req h).2.calls = h.calls ++ [.vendor i req] ∧ (hostVendor i req h).2.answers = h.answers.tail ∧
      ∀ p, h.Sized p → (hostVendor i req h).2.Sized p := by
  simp only [hostVendor]
  split_ifs
  · exact ⟨by simp, by simp, fun p hs => HostState.pokes_sized (HostState.called_sized hs)⟩
  · exact ⟨by simp, by simp, fun p hs => HostState.pokes_sized (HostState.called_sized hs)⟩

/-- An exception a get answers is the code of the host's next answer. -/
theorem hostGet_error {t : TableId} {a q : Nat} {h : HostState} {x : Byte} (hx : (hostGet t a q h).1 = .error x) :
    ∃ ans, h.answers.head? = some ans ∧ ans.exc = x ∧ x ≠ 0 := by
  cases ha : h.answers with
  | nil => simp only [hostGet, ha] at hx; cases hx
  | cons ans rest =>
    simp only [hostGet, ha] at hx
    split_ifs at hx with h0
    exact ⟨ans, rfl, by simpa using hx, by rintro rfl; exact h0 (by simpa using hx)⟩

/-- An exception a set answers is the code of the host's next answer. -/
theorem hostSet_some {t : TableId} {a q : Nat} {vs : List U16} {h : HostState} {x : Byte}
    (hx : (hostSet t a q vs h).1 = some x) : ∃ ans, h.answers.head? = some ans ∧ ans.exc = x ∧ x ≠ 0 := by
  cases ha : h.answers with
  | nil => simp only [hostSet, ha] at hx; cases hx
  | cons ans rest =>
    simp only [hostSet, ha] at hx
    split_ifs at hx with h0
    exact ⟨ans, rfl, by simpa using hx, by rintro rfl; exact h0 (by simpa using hx)⟩

/-! ### Inputs and the actions of an instance -/

/-- What `act` does on an instance that exists. -/
theorem State.act_some {n : Nat} {f : Framer → Option Framer} {s : State} {i : Framer} (h : s.framers[n]? = some i) :
    s.act n f = match f i with
      | none => s
      | some i' => s.moved n i i' := by
  cases hf : f i <;> simp [State.act, h, hf]

theorem State.act_none {n : Nat} {f : Framer → Option Framer} {s : State} (h : s.framers[n]? = none) : s.act n f = s := by
  simp only [State.act, h]

/-- An action of an instance changes that instance and the result, nothing else. -/
theorem State.moved_eq (n : Nat) (i i' : Framer) (s : State) :
    ∃ r, s.moved n i i' = { s with framers := s.framers.set n i', result := r } := by
  simp only [State.moved]
  split
  · exact ⟨_, rfl⟩
  · exact ⟨s.result, rfl⟩

/-- Everything `act` can do. -/
theorem State.act_cases (n : Nat) (f : Framer → Option Framer) (s : State) :
    s.act n f = s ∨ ∃ i i' r, s.framers[n]? = some i ∧ f i = some i' ∧
      s.act n f = { s with framers := s.framers.set n i', result := r } := by
  cases hi : s.framers[n]? with
  | none => exact .inl (State.act_none hi)
  | some i =>
    rw [State.act_some hi]
    cases hf : f i with
    | none => exact .inl rfl
    | some i' =>
      obtain ⟨r, hr⟩ := State.moved_eq n i i' s
      exact .inr ⟨i, i', r, rfl, hf, hr⟩

/-- An action that ends no command leaves the result. -/
theorem State.moved_quiet {n : Nat} {i i' : Framer} {s : State} (h : i'.op = i.op) :
    s.moved n i i' = s.setFramer n i' := by
  simp only [State.moved, Framer.completion, h]
  cases i.op <;> rfl

/-- An action that ends a receive returns its result. -/
theorem State.moved_rx {n : Nat} {i i' : Framer} {s : State} (h : i.op = .rx) (h' : i'.op = .none) :
    s.moved n i i' = (s.setFramer n i').ret (i'.rxResult n) := by
  simp only [State.moved, Framer.completion, h, h']

/-- An action that ends a transmission returns its status. -/
theorem State.moved_tx {n : Nat} {i i' : Framer} {s : State} (h : i.op = .tx) (h' : i'.op = .none) :
    s.moved n i i' = (s.setFramer n i').ret (.tx n i'.txStatus) := by
  simp only [State.moved, Framer.completion, h, h']

end Sys2Proof.Machine
end

