-- ==== Sys2Proof/Laws/Controller.lean ====
section
/-! SUPPORT. What the framer controller and the environment do, once: the enabled step of each phase, the capture of bytes, and
the arrival of a frame with every enabled step taken between events (Machine/Controller.lean). -/

namespace Sys2Proof.Machine

theorem evf_byte_taken : ∀ e : BitVec 4, (e ||| 2#4) &&& 3#4 &&& 13#4 = e &&& 1#4 := by decide

theorem evf_kept_t1p5 : ∀ e : BitVec 4, (e &&& 0b0001#4).getLsbD 2 = false := by decide

theorem evf_hooked : ∀ e : BitVec 4, (e ||| 2) &&& ~~~(4 ||| 8) = (e &&& 1) ||| 2 := by decide

/-- A controller input on an instance that exists. -/
theorem runInput_controller (n : Nat) (s : State) (i : Framer) (hi : s.framers[n]? = some i) :
    runInput (.controller n) s = .next (match i.control s.params with | none => s | some i' => s.moved n i i') := by
  show Host.Outcome.next _ = _
  cases hc : i.control s.params <;> simp [State.act, hi, hc]

/-- An environment input on an instance that exists. -/
theorem runInput_env (n : Nat) (e : EnvEvent) (s : State) (i : Framer) (hi : s.framers[n]? = some i) :
    runInput (.env n e) s = .next (match i.event e with | none => s | some i' => s.moved n i i') := by
  show Host.Outcome.next _ = _
  cases he : i.event e <;> simp [State.act, hi, he]

/-- Inputs one after the other. -/
theorem runInputs_append (a b : List Input) (s : State) :
    runInputs (a ++ b) s = Out.andThen (runInputs a s) (runInputs b) := by
  induction a generalizing s with
  | nil => rfl
  | cons x a ih =>
    simp only [List.cons_append, runInputs]
    cases runInput x s with
    | next t => exact ih t
    | fault r => rfl
    | refused r => rfl

/-- The instance just replaced. -/
theorem State.setFramer_get (s : State) (n : Nat) (i j : Framer) (hi : s.framers[n]? = some i) : (s.setFramer n j).framers[n]? = some j := by
  have : n < s.framers.length := (List.getElem?_eq_some_iff.mp hi).1
  simp [State.setFramer, this]

theorem Framer.not_avail {k : Framer} (hf : k.rxfifo = []) : ¬ 0 < k.streamAvail := by simp [Framer.streamAvail, hf]

/-- No controller step is enabled in P_IDLE. -/
theorem Framer.control_idle {p : Params} {k : Framer} (h1 : k.phase = .idle) : k.control p = none := by
  simp only [Framer.control, h1]

/-- RX_BODY waits (R119). -/
theorem Framer.control_body_wait {p : Params} {k : Framer} (h1 : k.phase = .rxBody) (hf : k.rxfifo = []) (h : k.evT1p5 = false) : k.control p = none := by
  simp only [Framer.control, h1, Framer.not_avail hf, if_false, h, Bool.false_eq_true]

/-- RX_BODY ends (R119). -/
theorem Framer.control_body_end {p : Params} {k : Framer} (h1 : k.phase = .rxBody) (hf : k.rxfifo = []) (h : k.evT1p5 = true) : k.control p = some { k with phase := .rxEof } := by
  simp only [Framer.control, h1, Framer.not_avail hf, if_false, h, if_true]

/-- RX_EOF waits (R121). -/
theorem Framer.control_eof_wait {p : Params} {k : Framer} (h1 : k.phase = .rxEof) (hf : k.rxfifo = []) (h : k.evT3p5 = false) : k.control p = none := by
  simp only [Framer.control, h1, Framer.not_avail hf, if_false, h, Bool.false_eq_true]

/-- RX_EOF validates (R121). -/
theorem Framer.control_eof_end {p : Params} {k : Framer} (h1 : k.phase = .rxEof) (hf : k.rxfifo = []) (h : k.evT3p5 = true) : k.control p = some k.validate := by
  simp only [Framer.control, h1, Framer.not_avail hf, if_false, h, if_true]

/-- Validation completes (R123, R124). -/
theorem Framer.validate_cases (i : Framer) : ∃ st, i.validate = i.rxComplete st ∨ i.validate = ({ i with rxPduLen := i.rxbuf.length - 2 } : Framer).rxComplete .ok := by
  simp only [Framer.validate, Framer.unitCheck]
  split_ifs <;> first | exact ⟨_, .inl rfl⟩ | exact ⟨.ok, .inr rfl⟩

/-- Storing bytes (R120): as many as fit are kept and taken into `RX_CRC`; one more makes the frame not OK. -/
theorem Framer.stores_eq (l : List Byte) (i : Framer) (h : i.rxbuf.length ≤ 255) :
    i.stores l = { i with rxbuf := i.rxbuf ++ l.take (255 - i.rxbuf.length)
                          rxCrc := crc16 (l.take (255 - i.rxbuf.length)) i.rxCrc
                          frameOk := i.frameOk && decide (i.rxbuf.length + l.length ≤ 255) } := by
  induction l generalizing i with
  | nil => simp [Framer.stores, h]
  | cons b l ih =>
    simp only [Framer.stores]
    by_cases hl : i.rxbuf.length < 255
    · have e : i.store b = { i with rxbuf := i.rxbuf ++ [b], rxCrc := crcByte i.rxCrc b } := if_pos hl
      rw [e, ih _ (by simp; omega)]
      have h1 : 255 - i.rxbuf.length = (255 - (i.rxbuf.length + 1)) + 1 := by omega
      simp only [List.length_append, List.length_cons, List.length_nil, h1, List.take_succ_cons, crc16_cons]
      congr 1
      · simp
      · congr 2; simp; omega
    · have e : i.store b = { i with frameOk := false } := if_neg hl
      rw [e, ih _ (by simpa using h)]
      have h1 : i.rxbuf.length = 255 := by omega
      simp [h1]

/-- The byte-arrival hook, written out (R175). -/
theorem Framer.byteHook_eq (i : Framer) (b : Byte) : i.byteHook b =
    { i with rxfifo := i.rxfifo ++ [b], evf := (i.evf &&& 1) ||| 2, tmr1 := .running, tmr3 := .running } := by
  have := evf_hooked i.evf
  simp only [Framer.byteHook, Framer.raise, Framer.clear, Framer.timerStart1, Framer.timerStart3, evRxMask, evT1p5Mask, evT3p5Mask]
  congr 1

/-- What a byte that has been taken leaves of the flags and timers: `EV_TX_EMPTY` alone, both timers running. -/
def Framer.hooked (i : Framer) : Framer := { i with evf := i.evf &&& 0b0001, tmr1 := .running, tmr3 := .running }

theorem Framer.store_fields (i : Framer) (b : Byte) : (i.store b).phase = i.phase ∧ (i.store b).rxfifo = i.rxfifo ∧ (i.store b).evf = i.evf := by
  simp only [Framer.store]; split <;> exact ⟨rfl, rfl, rfl⟩

theorem Framer.hooked_store (i : Framer) (b : Byte) : (Framer.hooked i).store b = Framer.hooked (i.store b) := by
  simp only [Framer.store, Framer.hooked]
  by_cases hl : i.rxbuf.length < Config.rxbufCap
  · simp [hl]
  · simp [hl]

theorem Framer.hooked_hooked (i : Framer) : Framer.hooked (Framer.hooked i) = Framer.hooked i := by
  have : ∀ e : BitVec 4, e &&& 1#4 &&& 1#4 = e &&& 1#4 := by decide
  simp only [Framer.hooked]
  have := this i.evf
  congr 1

/-- A further byte, stored at once. -/
theorem Framer.eventSettle_byte_body (p : Params) (i : Framer) (b : Byte) (hp : i.phase = .rxBody) (hf : i.rxfifo = []) :
    i.eventSettle p (.byte b) = Framer.hooked (i.store b) := by
  have e1 : i.event (.byte b) = some (i.byteHook b) := rfl
  have e2 : (i.byteHook b).control p = some (Framer.hooked (i.store b)) := by
    have : (i.byteHook b).phase = .rxBody := hp
    have h2 : (i.byteHook b).rxfifo = [b] := by show i.rxfifo ++ [b] = _; rw [hf]; rfl
    have h3 : 0 < (i.byteHook b).streamAvail := by simp [Framer.streamAvail, h2]
    simp only [Framer.control, this, h3, if_true, Framer.rxDrain, h2, Framer.stores]
    congr 1
    simp only [Framer.store, Framer.clear, Framer.byteHook, Framer.raise, Framer.timerStart1, Framer.timerStart3, Framer.hooked]
    simp only [evRxMask, evT1p5Mask, evT3p5Mask]
    by_cases hl : i.rxbuf.length < Config.rxbufCap
    · simp [hl, hf, evf_byte_taken]
    · simp [hl, hf, evf_byte_taken]
  have hsp : (i.store b).phase = .rxBody := by simp only [Framer.store]; split <;> exact hp
  have hsf : (i.store b).rxfifo = [] := by simp only [Framer.store]; split <;> exact hf
  have e3 : (Framer.hooked (i.store b)).control p = none := Framer.control_body_wait hsp hsf (evf_kept_t1p5 _)
  simp only [Framer.eventSettle, e1, settleSteps, Framer.settle, e2, e3]

/-- Further bytes, each stored at once. -/
theorem Framer.arrive_body (p : Params) (bs : List Byte) (i : Framer) (hp : i.phase = .rxBody) (hf : i.rxfifo = []) :
    (Framer.hooked i).arrive p bs = Framer.hooked (i.stores bs) := by
  induction bs generalizing i with
  | nil => rfl
  | cons b bs ih =>
    simp only [Framer.arrive, Framer.stores]
    rw [Framer.eventSettle_byte_body p (Framer.hooked i) b hp hf, Framer.hooked_store, Framer.hooked_hooked]
    exact ih _ ((Framer.store_fields i b).1.trans hp) ((Framer.store_fields i b).2.1.trans hf)

/-- The first byte of a frame, taken as the unit id at once. -/
theorem Framer.eventSettle_byte_start (p : Params) (i : Framer) (b : Byte) (hp : i.phase = .rxWaitStart) (hf : i.rxfifo = []) :
    i.eventSettle p (.byte b) = Framer.hooked { i with rxUnit := b, rxCrc := crcByte 0xFFFF b, phase := .rxBody } := by
  have e1 : i.event (.byte b) = some (i.byteHook b) := rfl
  have e2 : (i.byteHook b).control p = some (Framer.hooked { i with rxUnit := b, rxCrc := crcByte 0xFFFF b, phase := .rxBody }) := by
    have : (i.byteHook b).phase = .rxWaitStart := hp
    have h2 : (i.byteHook b).rxfifo = [b] := by show i.rxfifo ++ [b] = _; rw [hf]; rfl
    simp only [Framer.control, this, h2]
    congr 1
    simp only [Framer.rxStart, Framer.clear, Framer.byteHook, Framer.raise, Framer.timerStart1, Framer.timerStart3, Framer.hooked]
    simp only [evRxMask, evT1p5Mask, evT3p5Mask]
    simp [hf, Config.crcPreload, evf_byte_taken]
  have e3 : (Framer.hooked { i with rxUnit := b, rxCrc := crcByte 0xFFFF b, phase := .rxBody }).control p = none := Framer.control_body_wait rfl hf (evf_kept_t1p5 _)
  simp only [Framer.eventSettle, e1, settleSteps, Framer.settle, e2, e3]

/-- T1P5 of silence ends the body. -/
theorem Framer.eventSettle_t1p5 (p : Params) (i : Framer) (hp : i.phase = .rxBody) (hf : i.rxfifo = []) :
    (Framer.hooked i).eventSettle p .expireT1p5 = { i with tmr1 := .stopped, tmr3 := .running, evf := (i.evf &&& 1) ||| 4, phase := .rxEof } := by
  have e1 : (Framer.hooked i).event .expireT1p5 = some { i with tmr1 := .stopped, tmr3 := .running, evf := (i.evf &&& 1) ||| 4 } := rfl
  have t1 : ∀ e : BitVec 4, (e &&& 1#4 ||| 4#4).getLsbD 2 = true := by decide
  have t3 : ∀ e : BitVec 4, (e &&& 1#4 ||| 4#4).getLsbD 3 = false := by decide
  have e2 : ({ i with tmr1 := .stopped, tmr3 := .running, evf := (i.evf &&& 1) ||| 4 } : Framer).control p =
      some { i with tmr1 := .stopped, tmr3 := .running, evf := (i.evf &&& 1) ||| 4, phase := .rxEof } := Framer.control_body_end hp hf (t1 _)
  have e3 : ({ i with tmr1 := .stopped, tmr3 := .running, evf := (i.evf &&& 1) ||| 4, phase := .rxEof } : Framer).control p = none := Framer.control_eof_wait rfl hf (t3 _)
  simp only [Framer.eventSettle, e1, settleSteps, Framer.settle, e2, e3]

/-- T3P5 of silence ends the frame. -/
theorem Framer.eventSettle_t3p5 (p : Params) (i : Framer) (hf : i.rxfifo = []) :
    ({ i with tmr1 := .stopped, tmr3 := .running, evf := (i.evf &&& 1) ||| 4, phase := .rxEof } : Framer).eventSettle p .expireT3p5 =
      ({ i with tmr1 := .stopped, tmr3 := .stopped, evf := (i.evf &&& 1) ||| 12, phase := .rxEof } : Framer).validate := by
  have ev : ∀ e : BitVec 4, e &&& 1#4 ||| 4#4 ||| 8#4 = e &&& 1#4 ||| 12#4 := by decide
  have e1 : ({ i with tmr1 := .stopped, tmr3 := .running, evf := (i.evf &&& 1) ||| 4, phase := .rxEof } : Framer).event .expireT3p5 =
      some { i with tmr1 := .stopped, tmr3 := .stopped, evf := (i.evf &&& 1) ||| 4 ||| 8, phase := .rxEof } := rfl
  have ev' := ev i.evf
  have e0 : (i.evf &&& 1) ||| 4 ||| 8 = (i.evf &&& 1) ||| 12 := ev'
  rw [e0] at e1
  have t3 : ∀ e : BitVec 4, (e &&& 1#4 ||| 12#4).getLsbD 3 = true := by decide
  have e2 : ({ i with tmr1 := .stopped, tmr3 := .stopped, evf := (i.evf &&& 1) ||| 12, phase := .rxEof } : Framer).control p =
    some ({ i with tmr1 := .stopped, tmr3 := .stopped, evf := (i.evf &&& 1) ||| 12, phase := .rxEof } : Framer).validate := Framer.control_eof_end rfl hf (t3 _)
  have e3 : ({ i with tmr1 := .stopped, tmr3 := .stopped, evf := (i.evf &&& 1) ||| 12, phase := .rxEof } : Framer).validate.control p = none := by
    apply Framer.control_idle
    obtain ⟨st, h | h⟩ := Framer.validate_cases { i with tmr1 := .stopped, tmr3 := .stopped, evf := (i.evf &&& 1) ||| 12, phase := .rxEof } <;> rw [h] <;> rfl
  simp only [Framer.eventSettle, e1, settleSteps, Framer.settle, e2, e3]

/-- A whole frame at an instance that waits for one: captured, and then validated. -/
theorem Framer.frame_waiting (p : Params) (i : Framer) (u : Byte) (bs : List Byte) (hp : i.phase = .rxWaitStart) (hf : i.rxfifo = [])
    (hb : i.rxbuf = []) (hl : bs.length ≤ 255) (hok : i.frameOk = true) :
    i.frame p (u :: bs) = ({ i with
      rxUnit := u, rxCrc := crc16 (u :: bs) 0xFFFF, phase := .rxEof, rxbuf := bs, tmr1 := .stopped, tmr3 := .stopped,
      evf := (i.evf &&& 1) ||| 12 } : Framer).validate := by
  simp only [Framer.frame, Framer.arrive]
  rw [Framer.eventSettle_byte_start p i u hp hf, Framer.arrive_body p bs { i with phase := .rxBody, rxUnit := u, rxCrc := crcByte 65535 u } rfl hf, Framer.stores_eq _ _ (by simp [hb])]
  rw [Framer.eventSettle_t1p5 p]; rotate_left; · rfl
  · exact hf
  have := fun k : Framer => Framer.eventSettle_t3p5 p k
  erw [Framer.eventSettle_t3p5 p]; rotate_left; · exact hf
  simp only [hb, List.nil_append, List.length_nil, Nat.sub_zero, Nat.zero_add]
  rw [List.take_of_length_le (by omega)]
  simp only [crc16_cons, hok, Bool.true_and, hl, decide_true]

/-- A byte at an idle instance waits in `RXFIFO`. -/
theorem Framer.eventSettle_byte_idle (p : Params) (i : Framer) (b : Byte) (hp : i.phase = .idle) :
    i.eventSettle p (.byte b) = i.byteHook b := by
  have e1 : i.event (.byte b) = some (i.byteHook b) := rfl
  have e2 : (i.byteHook b).control p = none := by
    have : (i.byteHook b).phase = .idle := hp
    simp only [Framer.control, this]
  simp only [Framer.eventSettle, e1, settleSteps, Framer.settle, e2]

/-- Bytes at an idle instance wait in `RXFIFO`. -/
theorem Framer.arrive_idle (p : Params) (b : Byte) (bs : List Byte) (i : Framer) (hp : i.phase = .idle) : i.arrive p (b :: bs) =
    { i with rxfifo := i.rxfifo ++ b :: bs, evf := (i.evf &&& 1) ||| 2, tmr1 := .running, tmr3 := .running } := by
  induction bs generalizing i b with
  | nil => simp only [Framer.arrive]; rw [Framer.eventSettle_byte_idle p i b hp, Framer.byteHook_eq]
  | cons c bs ih =>
    rw [Framer.arrive, Framer.eventSettle_byte_idle p i b hp, ih c (i.byteHook b) hp, Framer.byteHook_eq]
    have : ∀ e : BitVec 4, ((e &&& 1) ||| 2) &&& 1 ||| 2 = (e &&& 1) ||| 2 := by decide
    have := this i.evf
    simp only [List.append_assoc, List.cons_append, List.nil_append]
    congr 1

/-! ### Bytes at a port -/

/-- Everything `reject` can do: a refusal, a result, or the arrival of the bytes on the wire. -/
theorem reject_cases (p : Port) (bytes : List Byte) (e : DecodeError) (s : State) :
    (∃ r, reject p bytes e s = s.refuse r) ∨ (∃ r, (∀ y, r ≠ .refused y) ∧ reject p bytes e s = s.ret r) ∨
      ∃ inst, p = .wire inst ∧ reject p bytes e s = s.wireArrival inst bytes := by
  cases p with
  | command => cases e <;> first | exact .inl ⟨_, rfl⟩ | exact .inr (.inl ⟨_, by simp, rfl⟩)
  | request =>
    by_cases h : bytes = []
    · exact .inr (.inl ⟨.noReply, by simp, if_pos h⟩)
    · exact .inl ⟨.badLen, if_neg h⟩
  | response => exact .inr (.inl ⟨_, by simp, rfl⟩)
  | wire inst => exact .inr (.inr ⟨inst, rfl, rfl⟩)

/-- What the presentation of bytes at a port does when it answers next: the instruction they decode to, or `reject`. -/
theorem present_next {p : Port} {bytes : List Byte} {s t : State} (h : present p bytes s = .next t) :
    (∃ i, decode p bytes = .ok i ∧ exec i s = .next t) ∨ ∃ e, decode p bytes = .error e ∧ t = reject p bytes e s := by
  simp only [present] at h
  split at h
  · next i hi => exact .inl ⟨i, hi, h⟩
  · next e he => cases h; exact .inr ⟨e, he, rfl⟩

end Sys2Proof.Machine
end

