-- ==== Sys2Proof/Laws/Engine.lean ====
section
/-! SUPPORT. What the waits of the engines' contract and the slave's reply come to (Machine/Engine.lean). -/

namespace Sys2Proof.Machine

/-- A blocking command that completes: the inputs still to come happen, and what follows has the command's own result. -/
theorem blocking_completes {c : Instr} {inst : U16} {wait left : List Input} {s e t u : State} {f : State → Out}
    (h : exec c s = .next e) (hw : awaitIdle inst (wait.filter (Input.besides inst)) e = (.next t, left))
    (hr : t.running inst = false) (hl : runInputs left t = .next u) :
    blocking c inst wait s f = f (u.ret t.result) := by
  simp only [blocking, h, Out.andThen_next, hw, hr, hl, Bool.false_eq_true, if_false]

/-- A reply is discarded where a byte has arrived. -/
theorem answerUnlessStale_stale {inst : U16} {rsp : List Byte} {s : State} {i : Framer}
    (hi : s.framers[inst.toNat]? = some i) (h : i.rxfifo ≠ []) :
    answerUnlessStale inst rsp s = .next (s.ret (.flag true)) := by
  have ha : exec (.rtuRxAvail inst) s = .next (s.ret (.flag true)) := by
    refine (onFramer_some hi).trans ?_
    have : decide (0 < i.streamAvail) = true := by simp [Framer.streamAvail, List.length_pos_iff, h]
    rw [this]
  simp only [answerUnlessStale, hi, ha, Out.andThen_next, State.ret, if_true]

/-- Without one it is handed to RTU_TX with the instance's `SLAVE_ID`. -/
theorem answerUnlessStale_sends {inst : U16} {rsp : List Byte} {s : State} {i : Framer}
    (hi : s.framers[inst.toNat]? = some i) (h : i.rxfifo = []) :
    answerUnlessStale inst rsp s =
      exec (sendResponseBuffer inst i.slaveId rsp.length) ((s.ret (.flag false)).respond rsp) := by
  have ha : exec (.rtuRxAvail inst) s = .next (s.ret (.flag false)) := by
    refine (onFramer_some hi).trans ?_
    have : decide (0 < i.streamAvail) = false := by simp [Framer.streamAvail, h]
    rw [this]
  simp only [answerUnlessStale, hi, ha, Out.andThen_next]
  rw [if_neg (by simp [State.ret])]

/-- The slave's reply: PDU_SERVE with the broadcast flag, what happens meanwhile, and the answer. -/
theorem slaveReply_eq {inst : U16} {serving : List Input} {s : State} {i : Framer}
    (hi : s.framers[inst.toNat]? = some i) :
    slaveReply inst serving s =
      Out.andThen (exec (.pduServe (.rx inst) (BitVec.ofNat 16 i.rxPduLen) i.bcast) (s.ret (.flag i.bcast))) fun t =>
        Out.andThen (runInputs (serving.filter (Input.whileServing inst)) t) fun u =>
          match t.result with
          | .response rsp => answerUnlessStale inst rsp u
          | _ => .next u := by
  have hb : exec (.rtuRxIsBcast inst) s = .next (s.ret (.flag i.bcast)) := onFramer_some hi
  have hd : decide ((s.ret (.flag i.bcast)).result = .flag true) = i.bcast := by cases i.bcast <;> rfl
  simp only [slaveReply, hi, hb, Out.andThen_next, hd] <;> rfl

end Sys2Proof.Machine
end

