-- ==== Sys2Proof/Laws/Handlers.lean ====
section
/-! SUPPORT. What a request handler can do, once (Machine/Handlers.lean), and the handler behind each request instruction. -/

namespace Sys2Proof.Machine

/-- Whichever capability a handler calls, an answer `Exc(X)` of it is the handler's, with the host as that call left it (R157). -/
abbrev PassesExceptions (h : HostState) (r : Handling) : Prop :=
  ∀ (x : Byte) (k : HostState),
    (∀ tb a q, r.2.calls = h.calls ++ [.get tb a q] → hostGet tb a q h = (.error x, k) → r = (.exc x, k)) ∧
    (∀ tb a q v, r.2.calls = h.calls ++ [.set tb a q v] → hostSet tb a q v h = (some x, k) → r = (.exc x, k)) ∧
    (∀ tb a q v tb' a' q' m, r.2.calls = h.calls ++ [.set tb a q v, .get tb' a' q'] →
      hostSet tb a q v h = (none, m) → hostGet tb' a' q' m = (.error x, k) → r = (.exc x, k)) ∧
    (∀ j req, r.2.calls = h.calls ++ [.vendor j req] → hostVendor j req h = (.error x, k) → r = (.exc x, k))

theorem PassesExceptions.quiet {h : HostState} {r : Handled} : PassesExceptions h (r, h) :=
  fun _ _ => ⟨by simp, by simp, by simp, by simp⟩

/-- What every handler keeps to, with the host `h` before it: the tables keep their sizes, the calls are few and in
range (R152), the exceptions are the block's own or the host's (R157), and only a vendor response too long is refused (R159). -/
structure HandlerSpec (p : Params) (h : HostState) (r : Handling) : Prop where
  sized : ∀ p', h.Sized p' → r.2.Sized p'
  calls : ∃ new, r.2.calls = h.calls ++ new ∧
      (new.filter HostCall.isGet).length ≤ 1 ∧
      (new.filter HostCall.isSet).length ≤ 1 ∧
      (new.filter HostCall.isVendor).length ≤ 1 ∧
      (∀ tb a q, HostCall.get tb a q ∈ new → (p.table tb).hasGet = true ∧ 1 ≤ q ∧ a + q ≤ (p.table tb).size) ∧
      (∀ tb a q v, HostCall.set tb a q v ∈ new →
        (p.table tb).hasSet = true ∧ 1 ≤ q ∧ a + q ≤ (p.table tb).size ∧ v.length = q) ∧
      (∀ k req, HostCall.vendor k req ∈ new → req ≠ [] ∧ p.vendor[k]? = some (req.headD 0))
  exc : ∀ x, r.1 = .exc x → x ∈ [0x01, 0x02, 0x03] ∨ (∃ ans ∈ h.answers.take 2, ans.exc = x ∧ x ≠ 0) ∨
      (h.answers = [] ∧ x = (Config.vendorAnswer h.calls.length).exc)
  refuse : ∀ y, r.1 = .refuse y → y = .vendorOverlong
  passes : PassesExceptions h r

theorem HandlerSpec.plain {p : Params} {h : HostState} {x : Byte} (hx : x ∈ [0x01, 0x02, 0x03]) : HandlerSpec p h (.exc x, h) :=
  ⟨fun _ a => a, ⟨[], by simp, by simp, by simp, by simp, by simp, by simp, by simp⟩, fun y hy => (by cases hy; exact .inl hx), fun y hy => (by cases hy), .quiet⟩

theorem HandlerSpec.get {p : Params} {h : HostState} {t : TableId} {a q : Nat} {enc} (h1 : (p.table t).hasGet = true) (h2 : 1 ≤ q) (h3 : a + q ≤ (p.table t).size) :
    HandlerSpec p h (encodeGet enc (hostGet t a q h)) := by
  obtain ⟨c, an, sz⟩ := hostGet_after t a q h
  have e2 : (encodeGet enc (hostGet t a q h)).2 = (hostGet t a q h).2 := by
    cases hg : hostGet t a q h with | mk r hh => cases r <;> rfl
  refine ⟨fun p' hs => by rw [e2]; exact sz p' hs, ⟨[.get t a q], by rw [e2]; exact c, Nat.le_refl 1, Nat.zero_le 1, Nat.zero_le 1, ?_, by simp, by simp⟩, ?_, ?_, ?_⟩
  · intro tb a' q' hm; simp at hm; obtain ⟨rfl, rfl, rfl⟩ := hm; exact ⟨h1, h2, h3⟩
  · intro x hx
    have : (hostGet t a q h).1 = .error x := by
      cases hg : hostGet t a q h with
      | mk r hh => cases r with
        | ok v => simp [encodeGet, hg] at hx
        | error y => simp [encodeGet, hg] at hx; rw [hx]
    obtain ⟨ans, k1, k2, k3⟩ := hostGet_error this
    refine .inr (.inl ⟨ans, ?_, k2, k3⟩)
    cases hh : h.answers with
    | nil => simp [hh] at k1
    | cons b bs => simp [hh] at k1; simp [k1]
  · intro y hy
    cases hg : hostGet t a q h with | mk r hh => cases r <;> simp [encodeGet, hg] at hy
  · intro x k
    simp only [e2, c, List.append_cancel_left_eq]
    refine ⟨fun tb a' q' e e' => ?_, by simp, by simp, by simp⟩
    simp only [List.cons.injEq, HostCall.get.injEq, and_true] at e
    obtain ⟨rfl, rfl, rfl⟩ := e
    rw [e']; rfl

theorem HandlerSpec.set {p : Params} {h : HostState} {t : TableId} {a q : Nat} {vs : List U16} {rsp} (h1 : (p.table t).hasSet = true) (h2 : 1 ≤ q) (h3 : a + q ≤ (p.table t).size)
    (h4 : vs.length = q) : HandlerSpec p h (answerSet rsp (hostSet t a q vs h)) := by
  obtain ⟨c, an, sz⟩ := hostSet_after t a q vs h
  have e2 : (answerSet rsp (hostSet t a q vs h)).2 = (hostSet t a q vs h).2 := by
    cases hg : hostSet t a q vs h with | mk r hh => cases r <;> rfl
  refine ⟨fun p' hs => by rw [e2]; exact sz p' hs, ⟨[.set t a q vs], by rw [e2]; exact c, Nat.zero_le 1, Nat.le_refl 1, Nat.zero_le 1, by simp, ?_, by simp⟩, ?_, ?_, ?_⟩
  · intro tb a' q' v hm; simp at hm; obtain ⟨rfl, rfl, rfl, rfl⟩ := hm; exact ⟨h1, h2, h3, h4⟩
  · intro x hx
    have : (hostSet t a q vs h).1 = some x := by
      cases hg : hostSet t a q vs h with
      | mk r hh => cases r with
        | none => simp [answerSet, hg] at hx
        | some y => simp [answerSet, hg] at hx; rw [hx]
    obtain ⟨ans, k1, k2, k3⟩ := hostSet_some this
    refine .inr (.inl ⟨ans, ?_, k2, k3⟩)
    cases hh : h.answers with
    | nil => simp [hh] at k1
    | cons b bs => simp [hh] at k1; simp [k1]
  · intro y hy
    cases hg : hostSet t a q vs h with | mk r hh => cases r <;> simp [answerSet, hg] at hy
  · intro x k
    simp only [e2, c, List.append_cancel_left_eq]
    refine ⟨by simp, fun tb a' q' v e e' => ?_, by simp, by simp⟩
    simp only [List.cons.injEq, HostCall.set.injEq, and_true] at e
    obtain ⟨rfl, rfl, rfl, rfl⟩ := e
    rw [e']; rfl

theorem HandlerSpec.setget {p : Params} {h : HostState} {a q ra rq : Nat} {vs : List U16} (h0 : (p.table .holdingRegisters).hasGet = true) (h1 : (p.table .holdingRegisters).hasSet = true) (h2 : 1 ≤ q) (h3 : a + q ≤ (p.table .holdingRegisters).size)
    (h4 : vs.length = q) (h5 : 1 ≤ rq) (h6 : ra + rq ≤ (p.table .holdingRegisters).size) : HandlerSpec p h (thenGet ra rq (hostSet .holdingRegisters a q vs h)) := by
  obtain ⟨c, an, sz⟩ := hostSet_after .holdingRegisters a q vs h
  cases hg : hostSet .holdingRegisters a q vs h with
  | mk r hh =>
    rw [hg] at c an sz
    cases r with
    | some x =>
      have := HandlerSpec.set (h := h) (rsp := []) h1 h2 h3 h4
      rw [hg] at this; exact this
    | none =>
      obtain ⟨g1, ⟨new, g2, g3, g4, g5, g6, g7, g8⟩, g9, g10, -⟩ := HandlerSpec.get (enc := regsResponse 0x17 rq) (h := hh) h0 h5 h6
      obtain ⟨c', an', sz'⟩ := hostGet_after .holdingRegisters ra rq hh
      have e2 : (encodeGet (regsResponse 0x17 rq) (hostGet .holdingRegisters ra rq hh)).2 = (hostGet .holdingRegisters ra rq hh).2 := by
        cases hg : hostGet .holdingRegisters ra rq hh with | mk r hh => cases r <;> rfl
      refine ⟨fun p' hs => g1 p' (sz p' hs), ⟨[.set .holdingRegisters a q vs, .get .holdingRegisters ra rq], ?_, Nat.le_refl 1, Nat.le_refl 1, Nat.zero_le 1, ?_, ?_, by simp⟩, ?_, g10, ?_⟩
      · show (encodeGet (regsResponse 0x17 rq) (hostGet .holdingRegisters ra rq hh)).2.calls = _
        rw [e2, c', c]; simp
      · intro tb a' q' hm; simp at hm; obtain ⟨rfl, rfl, rfl⟩ := hm; exact ⟨h0, h5, h6⟩
      · intro tb a' q' v hm; simp at hm; obtain ⟨rfl, rfl, rfl, rfl⟩ := hm; exact ⟨h1, h2, h3, h4⟩
      · intro x hx
        have hx' : (hostGet .holdingRegisters ra rq hh).1 = .error x := by
          have hx : (encodeGet (regsResponse 0x17 rq) (hostGet .holdingRegisters ra rq hh)).1 = .exc x := hx
          cases hg : hostGet .holdingRegisters ra rq hh with
          | mk r hh' => cases r with
            | ok v => simp [encodeGet, hg] at hx
            | error y => simp [encodeGet, hg] at hx; rw [hx]
        obtain ⟨ans, k1, k2, k3⟩ := hostGet_error hx'
        refine .inr (.inl ⟨ans, ?_, k2, k3⟩)
        simp only at an
        rw [an] at k1
        match h.answers, k1 with
        | [_], k1 => simp at k1
        | [], k1 => simp at k1
        | b :: c :: bs, k1 => simp at k1; simp [k1]
      · intro x k
        have e3 : (thenGet ra rq (none, hh)).2.calls =
            h.calls ++ [.set .holdingRegisters a q vs, .get .holdingRegisters ra rq] := by
          rw [show (thenGet ra rq (none, hh)).2 = (hostGet .holdingRegisters ra rq hh).2 from e2, c', c]; simp
        simp only [e3, List.append_cancel_left_eq]
        refine ⟨by simp, by simp, fun tb a' q' v tb' ra' rq' m e e' e'' => ?_, by simp⟩
        simp only [List.cons.injEq, HostCall.set.injEq, HostCall.get.injEq, and_true] at e
        obtain ⟨⟨rfl, rfl, rfl, rfl⟩, rfl, rfl, rfl⟩ := e
        rw [hg] at e'
        obtain rfl : hh = m := (Prod.mk.inj e').2
        simp only [thenGet]
        rw [e'']; rfl

theorem HandlerSpec.read {p t qmax enc pdu h} : HandlerSpec p h (readTable t qmax enc p pdu h) := by
  simp only [readTable]
  split_ifs with c1 c2 c3 c4
  · exact .plain (by decide)
  · exact .plain (by decide)
  · exact .plain (by decide)
  · exact .plain (by decide)
  · simp at c1; simp [rangeOk] at c4
    exact .get c1 (by omega) (by omega)

theorem HandlerSpec.single {p t lg v pdu h} : HandlerSpec p h (writeSingle t lg v p pdu h) := by
  simp only [writeSingle]
  split_ifs with c1 c2 c3 c4
  · exact .plain (by decide)
  · exact .plain (by decide)
  · exact .plain (by decide)
  · exact .plain (by decide)
  · simp at c1; simp [rangeOk] at c4
    exact .set c1 (by omega) (by omega) rfl

theorem HandlerSpec.multi {p t qm c dec pdu h} (hd : ∀ d q, (dec d q).length = q) : HandlerSpec p h (writeMulti t qm c dec p pdu h) := by
  simp only [writeMulti]
  split_ifs with c1 c2 c3 c4 c5 c6
  · exact .plain (by decide)
  · exact .plain (by decide)
  · exact .plain (by decide)
  · exact .plain (by decide)
  · exact .plain (by decide)
  · exact .plain (by decide)
  · simp at c1; simp [rangeOk] at c6
    exact .set c1 (by omega) (by omega) (hd _ _)

theorem HandlerSpec.rw {p pdu h} : HandlerSpec p h (wrRw p pdu h) := by
  simp only [wrRw]
  split_ifs with c1 c2 c3 c4 c5 c6 c7 c8
  iterate 8 exact .plain (by decide)
  · simp at c1; simp [rangeOk] at c7 c8
    exact .setget c1.1 c1.2 (by omega) (by omega) (by simp) (by omega) (by omega)

theorem HandlerSpec.dg {p pdu h} : HandlerSpec p h (diag pdu h) := by
  simp only [diag]
  split_ifs
  · exact .plain (by decide)
  · exact .plain (by decide)
  · exact ⟨fun _ a => a, ⟨[], by simp, by simp, by simp, by simp, by simp, by simp, by simp⟩, fun y hy => (by cases hy), fun y hy => (by cases hy), .quiet⟩

theorem HandlerSpec.vnd {p fc body h} : HandlerSpec p h (vendorHandler p (fc :: body) h) := by
  simp only [vendorHandler]
  split
  · exact .plain (by decide)
  · next i hi =>
    obtain ⟨c, an, sz⟩ := hostVendor_after i (fc :: body) h
    have e2 : (answerVendor (hostVendor i (fc :: body) h)).2 = (hostVendor i (fc :: body) h).2 := by
      cases hg : hostVendor i (fc :: body) h with | mk r hh => cases r <;> simp only [answerVendor]; split_ifs <;> rfl
    refine ⟨fun p' hs => by rw [e2]; exact sz p' hs, ⟨[.vendor i (fc :: body)], by rw [e2]; exact c, Nat.zero_le 1, Nat.zero_le 1, Nat.le_refl 1, by simp, by simp, ?_⟩, ?_, ?_, ?_⟩
    · intro k req hm; simp at hm; obtain ⟨rfl, rfl⟩ := hm
      refine ⟨by simp, ?_⟩
      rw [List.findIdx?_eq_some_iff_getElem] at hi
      obtain ⟨h1, h2, _⟩ := hi
      rw [List.getElem?_eq_getElem h1]; simpa using h2
    · intro x hx
      have : (hostVendor i (fc :: body) h).1 = .error x := by
        cases hg : hostVendor i (fc :: body) h with
        | mk r hh => cases r with
          | ok v => simp only [answerVendor, hg] at hx; split_ifs at hx
          | error y => simp [answerVendor, hg] at hx; rw [hx]
      simp only [hostVendor] at this
      split_ifs at this with h0
      simp at this
      cases hh : h.answers with
      | nil =>
        simp only [HostState.vendorAnswer, hh] at this
        exact .inr (.inr ⟨rfl, this.symm⟩)
      | cons b bs =>
        simp only [HostState.vendorAnswer, hh] at this h0
        exact .inr (.inl ⟨b, by simp, this, by rw [← this]; exact h0⟩)
    · intro y hy
      cases hg : hostVendor i (fc :: body) h with
      | mk r hh => cases r with
        | ok v => simp only [answerVendor, hg] at hy; split_ifs at hy; cases hy; rfl
        | error y => simp [answerVendor, hg] at hy
    · intro x k
      simp only [e2, c, List.append_cancel_left_eq]
      refine ⟨by simp, by simp, by simp, fun j req e e' => ?_⟩
      simp only [List.cons.injEq, HostCall.vendor.injEq, and_true] at e
      obtain ⟨rfl, rfl⟩ := e
      rw [e']; rfl

theorem HandlerSpec.w06 {p body h} : HandlerSpec p h (wrReg06 p (0x06 :: body) h) := by
  simp only [wrReg06]; split_ifs
  · exact .single
  · exact .vnd

theorem HandlerSpec.disp {p fc body h} : HandlerSpec p h (dispatch p (fc :: body) h) := by
  simp only [dispatch, List.headD_cons]
  split
  · exact .read
  · exact .read
  · exact .read
  · exact .read
  · exact .rw
  · exact .single
  · exact .w06
  · exact .multi (by simp)
  · exact .multi (by simp)
  · exact .dg
  · exact .vnd

/-- The handler behind a request instruction. -/
theorem exec_request (i : Instr) (s : State) (h : family i = .request) : ∃ r, exec i s = .next (s.handled r) ∧ HandlerSpec s.params s.host r := by
  cases i <;> first | (exfalso; cases h; done) | skip
  · exact ⟨_, rfl, .read⟩
  · exact ⟨_, rfl, .read⟩
  · exact ⟨_, rfl, .read⟩
  · exact ⟨_, rfl, .read⟩
  · exact ⟨_, rfl, .single⟩
  · exact ⟨_, rfl, .w06⟩
  · exact ⟨_, rfl, .dg⟩
  · exact ⟨_, rfl, .multi (by simp)⟩
  · exact ⟨_, rfl, .multi (by simp)⟩
  · exact ⟨_, rfl, .rw⟩
  · exact ⟨_, rfl, .vnd⟩

/-- The request of a function code runs the handler PDU_SERVE dispatches to. -/
theorem exec_requestOf (fc : Byte) (body : List Byte) (s : State) : exec (requestOf fc body) s = .next (s.handled (dispatch s.params (fc :: body) s.host)) := by
  simp only [requestOf, dispatch, List.headD_cons]
  split <;> first | rfl | skip
  all_goals (split <;> first | rfl | simp_all)

end Sys2Proof.Machine
end

