-- ==== Sys2Proof/Laws/Invariant.lean ====
section
/-! SUPPORT. Every operation on one instance keeps the instance's invariant (Safety.lean): the configuration commands, the entries
of RTU_RX and RTU_TX, every controller step, every environment event, and the arrival of a frame. -/

namespace Sys2Proof.Machine

theorem crc16_snoc (s : List Byte) (b : Byte) (p : U16) : crc16 (s ++ [b]) p = crcByte (crc16 s p) b := by
  induction s generalizing p with
  | nil => rfl
  | cons x s ih => exact ih _

theorem Framer.inv_congr {p : Params} {i j : Framer} (h : i.Inv p)
  (h1 : j.phase = i.phase) (h2 : j.op = i.op) (h3 : j.down = i.down) (h4 : j.cfgBaud = i.cfgBaud) (h5 : j.t1p5Us = i.t1p5Us)
  (h6 : j.t3p5Us = i.t3p5Us) (h7 : j.interval1 = i.interval1) (h8 : j.interval3 = i.interval3) (h9 : j.evf = i.evf)
  (h10 : j.rxfifo = i.rxfifo) (h11 : j.txq = i.txq) (h12 : j.tmr1 = i.tmr1) (h13 : j.tmr3 = i.tmr3) (h14 : j.rxbuf = i.rxbuf)
  (h15 : j.frameOk = i.frameOk) (h16 : j.rxCrc = i.rxCrc) (h17 : j.rxUnit = i.rxUnit) (h18 : j.rxPduLen = i.rxPduLen)
  (h19 : j.rxStatus = i.rxStatus) (h20 : j.bcast = i.bcast) (h21 : j.de = i.de) (h22 : j.txAdu = i.txAdu) (h23 : j.wireOut = i.wireOut) :
  j.Inv p := by
  simp only [Framer.Inv, Framer.SequencingOk, Framer.ConfigOk, Framer.FlagsOk, Framer.CaptureOk, Framer.ReceivedOk, Framer.TransmitOk,
    Framer.evRx, Framer.evTxEmpty, Framer.evT1p5, Framer.evT3p5] at h ⊢
  rw [h1, h2, h3, h4, h5, h6, h7, h8, h9, h10, h11, h12, h13, h14, h15, h16, h17, h18, h19, h20, h21, h22, h23]
  exact h

/-- The intervals of a baud rate fit in 32 bits (R103). -/

theorem timing_fits (b : U32) (hb : b ≠ 0) :
    (BitVec.ofNat 32 (timing b.toNat).1).toNat = (timing b.toNat).1 ∧
      (BitVec.ofNat 32 (timing b.toNat).2).toNat = (timing b.toNat).2 := by
  have h0 : b.toNat ≠ 0 := fun h => hb (BitVec.eq_of_toNat_eq h)
  have hc : charTimeUs b.toNat ≤ 11000000 := by
    unfold charTimeUs
    split
    · exact Nat.le_of_ble_eq_true rfl
    · exact Nat.div_le_self Config.charTimeNumerator b.toNat
  constructor <;> rw [BitVec.toNat_ofNat, Nat.mod_eq_of_lt] <;> simp only [timing] <;> omega

theorem Framer.slaveId_inv {p : Params} {i : Framer} {d : Byte} (h : i.Inv p) : ({ i with slaveId := d } : Framer).Inv p :=
  Framer.inv_congr h rfl rfl rfl rfl rfl rfl rfl rfl rfl rfl rfl rfl rfl rfl rfl rfl rfl rfl rfl rfl rfl rfl rfl

theorem Framer.txStatus_inv {p : Params} {i : Framer} {d : Status} (h : i.Inv p) : ({ i with txStatus := d } : Framer).Inv p :=
  Framer.inv_congr h rfl rfl rfl rfl rfl rfl rfl rfl rfl rfl rfl rfl rfl rfl rfl rfl rfl rfl rfl rfl rfl rfl rfl

theorem Framer.shutdown_inv {p : Params} {i : Framer} (h : i.Inv p) (ho : i.op = .none) : ({ i with down := true } : Framer).Inv p := by
  obtain ⟨⟨a1, a2⟩, ⟨b1, b2, b3, b4⟩, c, d, e, f⟩ := h
  exact ⟨⟨a1, fun k => absurd ho k⟩, ⟨by simp, b2, b3, by simp⟩, c, d, e, f⟩

theorem Framer.configure_inv {p : Params} {i : Framer} {b : U32} (h : i.Inv p) (hb : b ≠ 0) : (i.configure b).Inv p := by
  obtain ⟨⟨a1, a2⟩, ⟨b1, b2, b3, b4⟩, c, d, e, f⟩ := h
  have := timing_fits b hb
  simp only [Framer.configure]
  split
  · next hd => exact ⟨⟨a1, a2⟩, ⟨fun _ => hb, fun k => absurd k hb, fun _ => this, by intro k; simp [hd] at k⟩, c, d, e, f⟩
  · next hd => exact ⟨⟨a1, a2⟩, ⟨fun _ => hb, fun k => absurd k hb, fun _ => this, fun _ => ⟨rfl, rfl⟩⟩, c, d, e, f⟩

theorem Framer.bringup_inv {p : Params} {i : Framer} (h : i.Inv p) (hb : i.cfgBaud ≠ 0) : i.bringup.Inv p := by
  obtain ⟨⟨a1, a2⟩, ⟨b1, b2, b3, b4⟩, c, d, e, f⟩ := h
  have : ∀ e : BitVec 4, e &&& ~~~(evTxEmptyMask ||| evRxMask ||| evT1p5Mask ||| evT3p5Mask) = 0 := by decide
  have := this i.evf
  have h0 : i.bringup.evf = 0 := this
  refine ⟨⟨a1, fun _ => rfl⟩, ⟨fun _ => hb, b2, b3, fun _ => ⟨rfl, rfl⟩⟩, ?_, d, e, f⟩
  simp only [Framer.FlagsOk, Framer.evRx, Framer.evTxEmpty, Framer.evT1p5, Framer.evT3p5, h0]
  simp

theorem Framer.rxEnter_inv {p : Params} {i : Framer} {tmo : U32} (h : i.Inv p) (ho : i.op = .none) (hd : i.down = false) :
    (i.rxEnter tmo).Inv p := by
  obtain ⟨⟨a1, a2⟩, b, ⟨c1, c2, c3, c4⟩, d, ⟨e1, e2, e3, e4⟩, ⟨f1, f2, f3, f4⟩⟩ := h
  have hp : i.phase = .idle := by
    rw [ho] at a1; revert a1; cases i.phase <;> simp [Phase.command]
  refine ⟨⟨rfl, fun _ => hd⟩, b, ?_, ?_, ?_, ?_⟩
  · have g : ∀ e : BitVec 4, (e &&& ~~~evRxMask).getLsbD 1 = false ∧ (e &&& ~~~evRxMask).getLsbD 0 = e.getLsbD 0 ∧
      (e &&& ~~~evRxMask).getLsbD 2 = e.getLsbD 2 ∧ (e &&& ~~~evRxMask).getLsbD 3 = e.getLsbD 3 := by decide
    obtain ⟨g1, g2, g3, g4⟩ := g i.evf
    refine ⟨fun k => ?_, fun k => c2 (g2.symm.trans k), fun k => ?_, fun k => ?_⟩
    · exact absurd (g1.symm.trans k) (by decide)
    · exact g3.trans (c3 k)
    · exact g4.trans (c4 k)
  · exact ⟨by simp [Framer.rxEnter], fun _ => ⟨rfl, rfl⟩, by simp [Framer.rxEnter]⟩
  · exact ⟨e1, e2, fun k => absurd rfl k, fun k => absurd rfl k⟩
  · refine ⟨?_, fun _ => f2 (by rw [hp]; decide), by simp [Framer.rxEnter], by simp [Framer.rxEnter]⟩
    have : i.de = (p.dePresent && decide (i.phase = .txWaitDone)) := f1
    rw [hp] at this
    exact this

theorem Framer.rxComplete_inv {p : Params} {i : Framer} {st : Status} (h : i.Inv p) (hs : st ≠ .ok) (hq : i.phase ≠ .txWaitDone) :
    (i.rxComplete st).Inv p := by
  obtain ⟨⟨a1, a2⟩, b, c, ⟨d1, d2, d3⟩, ⟨e1, e2, e3, e4⟩, ⟨f1, f2, f3, f4⟩⟩ := h
  refine ⟨⟨rfl, fun k => absurd rfl k⟩, b, c, ⟨d1, by simp [Framer.rxComplete], by simp [Framer.rxComplete]⟩, ?_, ?_⟩
  · simp only [Framer.ReceivedOk, Framer.rxComplete, hs, if_false]; simp
  · refine ⟨?_, fun _ => f2 hq, by simp [Framer.rxComplete], by simp [Framer.rxComplete]⟩
    rw [decide_eq_false hq] at f1
    simpa [Framer.rxComplete] using f1

theorem Framer.rxComplete_ok_inv {p : Params} {i : Framer} (h : i.Inv p) (hl : 3 ≤ i.rxbuf.length) (hq : i.phase ≠ .txWaitDone) :
    (({ i with rxPduLen := i.rxbuf.length - 2 } : Framer).rxComplete .ok).Inv p := by
  obtain ⟨⟨a1, a2⟩, b, c, ⟨d1, d2, d3⟩, ⟨e1, e2, e3, e4⟩, ⟨f1, f2, f3, f4⟩⟩ := h
  refine ⟨⟨rfl, fun k => absurd rfl k⟩, b, c, ⟨d1, by simp [Framer.rxComplete], by simp [Framer.rxComplete]⟩, ?_, ?_⟩
  · simp only [Framer.ReceivedOk, Framer.rxComplete]
    simp [Config.rxbufCap, Config.maxPdu] at d1 ⊢
    omega
  · refine ⟨?_, fun _ => f2 hq, by simp [Framer.rxComplete], by simp [Framer.rxComplete]⟩
    rw [decide_eq_false hq] at f1
    simpa [Framer.rxComplete] using f1

theorem Framer.validate_inv {p : Params} {i : Framer} (h : i.Inv p) (hq : i.phase = .rxEof) : i.validate.Inv p := by
  have hq' : i.phase ≠ .txWaitDone := by rw [hq]; decide
  simp only [Framer.validate, Framer.unitCheck]
  split_ifs
  · exact Framer.rxComplete_inv h (by decide) hq'
  · exact Framer.rxComplete_inv h (by decide) hq'
  · exact Framer.rxComplete_inv h (by decide) hq'
  · exact Framer.rxComplete_inv h (by decide) hq'
  · exact Framer.rxComplete_ok_inv h (by omega) hq'

theorem Framer.txEnter_inv {p : Params} {i : Framer} {u : Byte} {pdu : List Byte} (h : i.Inv p) (ho : i.op = .none) (hd : i.down = false) :
    (i.txEnter p u pdu).Inv p := by
  obtain ⟨⟨a1, a2⟩, b, ⟨c1, c2, c3, c4⟩, ⟨d1, d2, d3⟩, ⟨e1, e2, e3, e4⟩, ⟨f1, f2, f3, f4⟩⟩ := h
  have hp : i.phase = .idle := by
    rw [ho] at a1; revert a1; cases i.phase <;> simp [Phase.command]
  have hq := f2 (by rw [hp]; decide)
  rw [hp] at f1
  simp at f1
  have g : ∀ e : BitVec 4, (e &&& ~~~evTxEmptyMask).getLsbD 0 = false ∧ (e &&& ~~~evTxEmptyMask).getLsbD 1 = e.getLsbD 1 ∧
      (e &&& ~~~evTxEmptyMask).getLsbD 2 = e.getLsbD 2 ∧ (e &&& ~~~evTxEmptyMask).getLsbD 3 = e.getLsbD 3 := by decide
  obtain ⟨g1, g2, g3, g4⟩ := g i.evf
  cases hde : p.dePresent
  all_goals
    have hx : (i.txEnter p u pdu) = { i with
      txUnit := u, txAdu := adu u pdu, op := .tx, phase := .txWaitDone, evf := i.evf &&& ~~~evTxEmptyMask,
      txq := adu u pdu, de := p.dePresent } := by
      simp [Framer.txEnter, Framer.setDe, hde, Framer.clear, Framer.streamWriteAll, hq, f1]
    rw [hx]
    refine ⟨⟨rfl, fun _ => hd⟩, b, ⟨fun k => c1 (g2.symm.trans k), fun k => absurd (g1.symm.trans k) (by decide), fun k => g3.trans (c3 k), fun k => g4.trans (c4 k)⟩,
      ⟨d1, by simp, by simp⟩, ⟨e1, e2, fun _ => e3 (by simp [ho]), fun _ => e4 (by simp [ho])⟩, ?_⟩
    refine ⟨by simp, by simp, fun _ => ⟨List.suffix_refl _, by simp⟩, by simp⟩

theorem Framer.txRelease_inv {p : Params} {i : Framer} (h : i.Inv p) (hp : i.phase = .txWaitDone) (hd : i.txDone p = true) : (i.txRelease p).Inv p := by
  obtain ⟨⟨a1, a2⟩, b, ⟨c1, c2, c3, c4⟩, ⟨d1, d2, d3⟩, ⟨e1, e2, e3, e4⟩, ⟨f1, f2, f3, f4⟩⟩ := h
  have hq : i.txq = [] := by
    simp only [Framer.txDone] at hd
    split at hd
    · exact c2 hd
    · simpa [Framer.txQueueEmpty] using hd
  have g : ∀ e : BitVec 4, (e &&& ~~~evT3p5Mask).getLsbD 3 = false ∧ (e &&& ~~~evT3p5Mask).getLsbD 1 = e.getLsbD 1 ∧
      (e &&& ~~~evT3p5Mask).getLsbD 2 = e.getLsbD 2 ∧ (e &&& ~~~evT3p5Mask).getLsbD 0 = e.getLsbD 0 := by decide
  obtain ⟨g1, g2, g3, g4⟩ := g i.evf
  have ho : i.op = .tx := by rw [a1, hp]; rfl
  have hx : (i.txRelease p) = { i with phase := .txGuard, evf := i.evf &&& ~~~evT3p5Mask, tmr3 := .running, de := false } := by
    cases hde : p.dePresent
    · simp [hde] at f1
      simp [Framer.txRelease, Framer.setDe, hde, Framer.clear, Framer.timerStart3, f1]
    · simp [Framer.txRelease, Framer.setDe, hde, Framer.clear, Framer.timerStart3]
  rw [hx]
  have := (f3 hp).2
  rw [hq] at this
  simp at this
  refine ⟨⟨ho, fun _ => a2 (by rw [ho]; decide)⟩, b, ⟨fun k => c1 (g2.symm.trans k), fun k => hq, fun k => g3.trans (c3 k), fun k => g1⟩,
      ⟨d1, by simp, by simp⟩, ⟨e1, e2, fun _ => e3 (by simp [ho]), fun _ => e4 (by simp [ho])⟩, by simp, fun _ => hq, by simp, fun _ => this⟩

theorem Framer.txFinish_inv {p : Params} {i : Framer} (h : i.Inv p) (hp : i.phase = .txGuard) : (i.txFinish).Inv p := by
  obtain ⟨⟨a1, a2⟩, b, c, ⟨d1, d2, d3⟩, ⟨e1, e2, e3, e4⟩, ⟨f1, f2, f3, f4⟩⟩ := h
  have ho : i.op = .tx := by rw [a1, hp]; rfl
  rw [hp] at f1 f2
  exact ⟨⟨rfl, fun k => absurd rfl k⟩, b, c, ⟨d1, by simp [Framer.txFinish], by simp [Framer.txFinish]⟩, ⟨e1, e2, fun _ => e3 (by simp [ho]), fun _ => e4 (by simp [ho])⟩,
    by simpa [Framer.txFinish] using f1, fun _ => f2 (by decide), by simp [Framer.txFinish], by simp [Framer.txFinish]⟩

theorem Framer.rxStart_inv {p : Params} {i : Framer} {b : Byte} {rest : List Byte} (h : i.Inv p) (hp : i.phase = .rxWaitStart) : (i.rxStart b rest).Inv p := by
  obtain ⟨⟨a1, a2⟩, bb, ⟨c1, c2, c3, c4⟩, ⟨d1, d2, d3⟩, ⟨e1, e2, e3, e4⟩, ⟨f1, f2, f3, f4⟩⟩ := h
  have ho : i.op = .rx := by rw [a1, hp]; rfl
  have g : ∀ e : BitVec 4, (e &&& ~~~evRxMask).getLsbD 1 = false ∧ (e &&& ~~~evRxMask).getLsbD 0 = e.getLsbD 0 ∧
      (e &&& ~~~evRxMask).getLsbD 2 = e.getLsbD 2 ∧ (e &&& ~~~evRxMask).getLsbD 3 = e.getLsbD 3 := by decide
  obtain ⟨g1, g2, g3, g4⟩ := g i.evf
  rw [hp] at f1 f2
  refine ⟨⟨ho, fun _ => a2 (by rw [ho]; decide)⟩, bb, ⟨fun k => absurd (g1.symm.trans k) (by decide), fun k => c2 (g2.symm.trans k), fun k => g3.trans (c3 k), fun k => g4.trans (c4 k)⟩,
    ⟨d1, by simp [Framer.rxStart], fun _ => ?_⟩, ⟨e1, e2, fun k => absurd ho k, fun k => absurd ho k⟩, f1, fun _ => f2 (by decide), by simp [Framer.rxStart], by simp [Framer.rxStart]⟩
  show crcByte Config.crcPreload b = crc16 (b :: i.rxbuf) _
  rw [(d2 hp).1]; rfl

theorem Framer.store_inv {p : Params} {i : Framer} {b : Byte} (h : i.Inv p) (hp : i.phase = .rxBody) : (i.store b).Inv p := by
  obtain ⟨a, bb, c, ⟨d1, d2, d3⟩, ⟨e1, e2, e3, e4⟩, f⟩ := h
  have ho : i.op = .rx := by rw [a.1, hp]; rfl
  simp only [Framer.store]
  split
  · next hl =>
    refine ⟨a, bb, c, ⟨?_, fun k => absurd (hp.symm.trans k) (by decide), fun _ => ?_⟩, ⟨e1, e2, fun k => absurd ho k, fun k => absurd ho k⟩, f⟩
    · simp only [List.length_append, List.length_cons, List.length_nil]; omega
    · show crcByte i.rxCrc b = crc16 (i.rxUnit :: (i.rxbuf ++ [b])) _
      rw [d3 (.inl hp), ← List.cons_append, crc16_snoc]
  · exact ⟨a, bb, c, ⟨d1, fun k => absurd (hp.symm.trans k) (by decide), d3⟩, ⟨e1, e2, e3, e4⟩, f⟩

theorem Framer.stores_inv {p : Params} {i : Framer} {l : List Byte} (h : i.Inv p) (hp : i.phase = .rxBody) :
    (i.stores l).Inv p := by
  induction l generalizing i with
  | nil => exact h
  | cons b l ih => exact ih (Framer.store_inv h hp) ((Framer.store_fields i b).1.trans hp)

theorem Framer.rxDrain_inv {p : Params} {i : Framer} (h : i.Inv p) (hp : i.phase = .rxBody) : (i.rxDrain).Inv p := by
  obtain ⟨a, bb, ⟨c1, c2, c3, c4⟩, d, e, f⟩ := h
  have g : ∀ e : BitVec 4, (e &&& ~~~evRxMask).getLsbD 1 = false ∧ (e &&& ~~~evRxMask).getLsbD 0 = e.getLsbD 0 ∧
      (e &&& ~~~evRxMask).getLsbD 2 = e.getLsbD 2 ∧ (e &&& ~~~evRxMask).getLsbD 3 = e.getLsbD 3 := by decide
  obtain ⟨g1, g2, g3, g4⟩ := g i.evf
  exact Framer.stores_inv ⟨a, bb, ⟨fun k => absurd (g1.symm.trans k) (by decide), fun k => c2 (g2.symm.trans k),
    fun k => g3.trans (c3 k), fun k => g4.trans (c4 k)⟩, d, e, f⟩ hp

theorem Framer.rxNoise_inv {p : Params} {i : Framer} (h : i.Inv p) (hp : i.phase = .rxEof) : (i.rxNoise).Inv p := by
  obtain ⟨⟨a1, a2⟩, bb, ⟨c1, c2, c3, c4⟩, ⟨d1, d2, d3⟩, ⟨e1, e2, e3, e4⟩, ⟨f1, f2, f3, f4⟩⟩ := h
  have g : ∀ e : BitVec 4, (e &&& ~~~evRxMask).getLsbD 1 = false ∧ (e &&& ~~~evRxMask).getLsbD 0 = e.getLsbD 0 ∧
      (e &&& ~~~evRxMask).getLsbD 2 = e.getLsbD 2 ∧ (e &&& ~~~evRxMask).getLsbD 3 = e.getLsbD 3 := by decide
  obtain ⟨g1, g2, g3, g4⟩ := g i.evf
  apply Framer.rxComplete_inv _ (by decide) (by show i.phase ≠ _; rw [hp]; decide)
  exact ⟨⟨a1, a2⟩, bb, ⟨fun k => absurd (g1.symm.trans k) (by decide), fun k => c2 (g2.symm.trans k), fun k => g3.trans (c3 k), fun k => g4.trans (c4 k)⟩,
    ⟨d1, by simp [Framer.clear, hp], d3⟩, ⟨e1, e2, e3, e4⟩, f1, f2, f3, f4⟩

theorem Framer.bodyEnd_inv {p : Params} {i : Framer} (h : i.Inv p) (hp : i.phase = .rxBody) : ({ i with phase := .rxEof } : Framer).Inv p := by
  obtain ⟨⟨a1, a2⟩, bb, c, ⟨d1, d2, d3⟩, e, ⟨f1, f2, f3, f4⟩⟩ := h
  rw [hp] at f1 f2 a1
  exact ⟨⟨a1, a2⟩, bb, c, ⟨d1, by simp, fun _ => d3 (.inl hp)⟩, e, f1, fun _ => f2 (by decide), by simp, by simp⟩

theorem Framer.control_inv {p : Params} {i j : Framer} (h : i.Inv p) (hc : i.control p = some j) : j.Inv p := by
  simp only [Framer.control] at hc
  split at hc
  · cases hc
  · next hp =>
    split at hc
    · cases hc
    · cases hc; exact Framer.rxStart_inv h hp
  · next hp =>
    split_ifs at hc
    · cases hc; exact Framer.rxDrain_inv h hp
    · cases hc; exact Framer.bodyEnd_inv h hp
  · next hp =>
    split_ifs at hc
    · cases hc; exact Framer.rxNoise_inv h hp
    · cases hc; exact Framer.validate_inv h hp
  · next hp =>
    split_ifs at hc
    next hd => cases hc; exact Framer.txRelease_inv h hp hd
  · next hp =>
    split_ifs at hc
    cases hc; exact Framer.txFinish_inv h hp

theorem Framer.event_inv {p : Params} {i j : Framer} {e : EnvEvent} (h : i.Inv p) (hc : i.event e = some j) : j.Inv p := by
  have h0 := h
  obtain ⟨⟨a1, a2⟩, bb, ⟨c1, c2, c3, c4⟩, ⟨d1, d2, d3⟩, ee, ⟨f1, f2, f3, f4⟩⟩ := h
  cases e with
  | byte b =>
    cases hc
    have g : ∀ e : BitVec 4, ((e ||| evRxMask) &&& ~~~(evT1p5Mask ||| evT3p5Mask)).getLsbD 0 = e.getLsbD 0 ∧
      ((e ||| evRxMask) &&& ~~~(evT1p5Mask ||| evT3p5Mask)).getLsbD 2 = false ∧ ((e ||| evRxMask) &&& ~~~(evT1p5Mask ||| evT3p5Mask)).getLsbD 3 = false := by decide
    obtain ⟨g2, g3, g4⟩ := g i.evf
    have hx : i.byteHook b = { i with rxfifo := i.rxfifo ++ [b], evf := (i.evf ||| evRxMask) &&& ~~~(evT1p5Mask ||| evT3p5Mask), tmr1 := .running, tmr3 := .running } := rfl
    rw [hx]
    refine ⟨⟨a1, a2⟩, bb, ⟨fun k => by simp, fun k => c2 (g2.symm.trans k), fun k => g3, fun k => g4⟩,
      ⟨d1, d2, d3⟩, ee, ⟨f1, f2, f3, f4⟩⟩
  | expireT1p5 =>
    simp only [Framer.event] at hc
    split_ifs at hc
    cases hc
    have g : ∀ e : BitVec 4, (e ||| evT1p5Mask).getLsbD 0 = e.getLsbD 0 ∧ (e ||| evT1p5Mask).getLsbD 1 = e.getLsbD 1 ∧ (e ||| evT1p5Mask).getLsbD 3 = e.getLsbD 3 := by decide
    obtain ⟨g2, g3, g4⟩ := g i.evf
    exact ⟨⟨a1, a2⟩, bb, ⟨fun k => c1 (g3.symm.trans k), fun k => c2 (g2.symm.trans k), fun k => (by cases k), fun k => g4.trans (c4 k)⟩,
      ⟨d1, d2, d3⟩, ee, f1, f2, f3, f4⟩
  | expireT3p5 =>
    simp only [Framer.event] at hc
    split_ifs at hc
    cases hc
    have g : ∀ e : BitVec 4, (e ||| evT3p5Mask).getLsbD 0 = e.getLsbD 0 ∧ (e ||| evT3p5Mask).getLsbD 1 = e.getLsbD 1 ∧ (e ||| evT3p5Mask).getLsbD 2 = e.getLsbD 2 := by decide
    obtain ⟨g2, g3, g4⟩ := g i.evf
    exact ⟨⟨a1, a2⟩, bb, ⟨fun k => c1 (g3.symm.trans k), fun k => c2 (g2.symm.trans k), fun k => g4.trans (c3 k), fun k => (by cases k)⟩,
      ⟨d1, d2, d3⟩, ee, f1, f2, f3, f4⟩
  | txStep =>
    simp only [Framer.event] at hc
    split at hc
    · cases hc
    · next b rest hq =>
      have hp : i.phase = .txWaitDone := by
        by_contra hn; have := f2 hn; rw [hq] at this; cases this
      obtain ⟨k1, k2⟩ := f3 hp
      obtain ⟨pre, hpre⟩ := k1
      rw [hq] at hpre k2
      have l1 : i.txAdu.length = pre.length + (rest.length + 1) := by rw [← hpre]; simp
      have l2 : i.txAdu.take (i.txAdu.length - rest.length) = i.txAdu.take (i.txAdu.length - (b :: rest).length) ++ [b] := by
        have e1 : i.txAdu.length - rest.length = pre.length + 1 := by omega
        have e2 : i.txAdu.length - (b :: rest).length = pre.length := by simp; omega
        rw [e1, e2, ← hpre]
        simp [List.take_append]
      have key : rest <:+ i.txAdu ∧ i.txAdu.take (i.txAdu.length - rest.length) <:+ i.wireOut ++ [b] := by
        refine ⟨⟨pre ++ [b], by rw [← hpre]; simp⟩, ?_⟩
        rw [l2]
        obtain ⟨w, hw⟩ := k2
        exact ⟨w, by rw [← hw]; simp⟩
      have c2' : ∀ hne : rest ≠ [], i.evTxEmpty = false := fun hne => by
        by_contra hk
        have := c2 (by simpa using hk)
        rw [hq] at this; cases this
      cases hc
      have g : ∀ e : BitVec 4, (e ||| evTxEmptyMask).getLsbD 1 = e.getLsbD 1 ∧ (e ||| evTxEmptyMask).getLsbD 2 = e.getLsbD 2 ∧ (e ||| evTxEmptyMask).getLsbD 3 = e.getLsbD 3 := by decide
      obtain ⟨g1, g2, g3⟩ := g i.evf
      split_ifs with hr
      · exact ⟨⟨a1, a2⟩, bb, ⟨fun k => c1 (g1.symm.trans k), fun _ => hr, fun k => g2.trans (c3 k), fun k => g3.trans (c4 k)⟩,
          ⟨d1, d2, d3⟩, ee, f1, fun k => absurd hp k, fun _ => key, fun k => by rw [show (Framer.raise evTxEmptyMask { i with wireOut := i.wireOut ++ [b], txq := rest }).phase = i.phase from rfl, hp] at k; cases k⟩
      · exact ⟨⟨a1, a2⟩, bb, ⟨c1, fun k => absurd (c2' hr) (by simp [show i.evTxEmpty = true from k]), c3, c4⟩,
          ⟨d1, d2, d3⟩, ee, f1, fun k => absurd hp k, fun _ => key, fun k => by rw [show ({ i with wireOut := i.wireOut ++ [b], txq := rest } : Framer).phase = i.phase from rfl, hp] at k; cases k⟩
  | rxTimeout =>
    simp only [Framer.event] at hc
    split_ifs at hc
    next hk => cases hc; exact Framer.rxComplete_inv h0 (by decide) (by rw [hk.1]; decide)

theorem Framer.settle_inv {p : Params} (n : Nat) {i : Framer} (h : i.Inv p) : (Framer.settle p n i).Inv p := by
  induction n generalizing i with
  | zero => exact h
  | succ n ih =>
    simp only [Framer.settle]
    split
    · exact h
    · next hc => exact ih (Framer.control_inv h hc)

theorem Framer.eventSettle_inv {p : Params} {i : Framer} {e : EnvEvent} (h : i.Inv p) : (i.eventSettle p e).Inv p := by
  simp only [Framer.eventSettle]
  split
  · exact h
  · next hc => exact Framer.settle_inv _ (Framer.event_inv h hc)

theorem Framer.arrive_inv {p : Params} {i : Framer} {bs : List Byte} (h : i.Inv p) : (i.arrive p bs).Inv p := by
  induction bs generalizing i with
  | nil => exact h
  | cons b bs ih => exact ih (Framer.eventSettle_inv h)

theorem Framer.frame_inv {p : Params} {i : Framer} {bs : List Byte} (h : i.Inv p) : (i.frame p bs).Inv p := Framer.eventSettle_inv (Framer.eventSettle_inv (Framer.arrive_inv h))
end Sys2Proof.Machine
end

