-- ==== Sys2Proof/Laws/PerInstr.lean ====
section
/-! SUPPORT. The per-instruction family `Length`: how many bytes a well-formed instruction is encoded in at its port. -/

namespace Sys2Proof.Laws.Length

open Sys2Proof

/-- A command has the fixed length of its code (30_encoding.md R67), a request PDU 1 to 253 bytes (44_pdu_read.md R137), an
exception response 2 (R84), an ADU 4 to 256 (R70). -/
def Statement (i : Instr) : Prop :=
  i.wf = true →
    match i.port with
    | .command => (encode i).length = commandLength ((encode i).headD 0) ∧ 1 ≤ (encode i).length
    | .request => 1 ≤ (encode i).length ∧ (encode i).length ≤ Config.maxPdu
    | .response => (encode i).length = 2
    | .wire _ => 4 ≤ (encode i).length ∧ (encode i).length ≤ 256

theorem body_statement {fc : Byte} {body : List Byte} (h : bodyFits body = true) :
    1 ≤ (fc :: body).length ∧ (fc :: body).length ≤ Config.maxPdu :=
  ⟨Nat.succ_le_succ (Nat.zero_le _), of_decide_eq_true h⟩

theorem crcLoad (a : U16) : Statement (.crcLoad a) := fun _ => ⟨rfl, Nat.le_add_left 1 _⟩

theorem crcFeed (a : Byte) : Statement (.crcFeed a) := fun _ => ⟨rfl, Nat.le_add_left 1 _⟩

theorem crcBlock (a : BufRef) (b c : U16) : Statement (.crcBlock a b c) := by
  cases a <;> exact fun _ => ⟨rfl, Nat.le_add_left 1 _⟩

theorem crcRead : Statement (.crcRead) := fun _ => ⟨rfl, Nat.le_add_left 1 _⟩

theorem rtuCfgBaud (a : U16) (b : U32) : Statement (.rtuCfgBaud a b) := fun _ => ⟨rfl, Nat.le_add_left 1 _⟩

theorem rtuCfgSlave (a : U16) (b : Byte) : Statement (.rtuCfgSlave a b) := fun _ => ⟨rfl, Nat.le_add_left 1 _⟩

theorem rtuBringup (a : U16) : Statement (.rtuBringup a) := fun _ => ⟨rfl, Nat.le_add_left 1 _⟩

theorem rtuShutdown (a : U16) : Statement (.rtuShutdown a) := fun _ => ⟨rfl, Nat.le_add_left 1 _⟩

theorem rtuIsDown (a : U16) : Statement (.rtuIsDown a) := fun _ => ⟨rfl, Nat.le_add_left 1 _⟩

theorem rtuTx (a : U16) (b : Byte) (c : BufRef) (d : U16) : Statement (.rtuTx a b c d) := by
  cases c <;> exact fun _ => ⟨rfl, Nat.le_add_left 1 _⟩

theorem rtuRx (a : U16) (b : U32) : Statement (.rtuRx a b) := fun _ => ⟨rfl, Nat.le_add_left 1 _⟩

theorem rtuRxIsBcast (a : U16) : Statement (.rtuRxIsBcast a) := fun _ => ⟨rfl, Nat.le_add_left 1 _⟩

theorem rtuRxAvail (a : U16) : Statement (.rtuRxAvail a) := fun _ => ⟨rfl, Nat.le_add_left 1 _⟩

theorem rtuStatus (a : U16) : Statement (.rtuStatus a) := fun _ => ⟨rfl, Nat.le_add_left 1 _⟩

theorem pduServe (a : BufRef) (b : U16) (c : Bool) : Statement (.pduServe a b c) := by
  cases a <;> exact fun _ => ⟨rfl, Nat.le_add_left 1 _⟩

theorem pduExc (a b : Byte) : Statement (.pduExc a b) := fun _ => ⟨rfl, Nat.le_add_left 1 _⟩

theorem pduBuildRead (a b : Byte) (c d : U16) : Statement (.pduBuildRead a b c d) := fun _ => ⟨rfl, Nat.le_add_left 1 _⟩

theorem pduBuildWriteSingle (a : Byte) (b c : U16) : Statement (.pduBuildWriteSingle a b c) := fun _ => ⟨rfl, Nat.le_add_left 1 _⟩

theorem pduBuildWriteMulti (a : Byte) (b c d : U16) : Statement (.pduBuildWriteMulti a b c d) := fun _ => ⟨rfl, Nat.le_add_left 1 _⟩

theorem pduBuildLoopback (a : BufRef) (b : U16) : Statement (.pduBuildLoopback a b) := by
  cases a <;> exact fun _ => ⟨rfl, Nat.le_add_left 1 _⟩

theorem pduBuildRaw (a : BufRef) (b : U16) : Statement (.pduBuildRaw a b) := by
  cases a <;> exact fun _ => ⟨rfl, Nat.le_add_left 1 _⟩

theorem pduParseRsp (a : BufRef) (b : U16) (c : BufRef) (d : U16) : Statement (.pduParseRsp a b c d) := by
  cases a <;> cases c <;> exact fun _ => ⟨rfl, Nat.le_add_left 1 _⟩

theorem addrSplit (a : U32) (b : AddrUse) : Statement (.addrSplit a b) := fun _ => ⟨rfl, Nat.le_add_left 1 _⟩

theorem readCoils (body : List Byte) : Statement (.readCoils body) := fun h => body_statement h

theorem readDiscreteInputs (body : List Byte) : Statement (.readDiscreteInputs body) := fun h => body_statement h

theorem readHoldingRegisters (body : List Byte) : Statement (.readHoldingRegisters body) := fun h => body_statement h

theorem readInputRegisters (body : List Byte) : Statement (.readInputRegisters body) := fun h => body_statement h

theorem writeSingleCoil (body : List Byte) : Statement (.writeSingleCoil body) := fun h => body_statement h

theorem writeSingleRegister (body : List Byte) : Statement (.writeSingleRegister body) := fun h => body_statement h

theorem diagnostics (body : List Byte) : Statement (.diagnostics body) := fun h => body_statement h

theorem writeMultipleCoils (body : List Byte) : Statement (.writeMultipleCoils body) := fun h => body_statement h

theorem writeMultipleRegisters (body : List Byte) : Statement (.writeMultipleRegisters body) := fun h => body_statement h

theorem readWriteMultipleRegisters (body : List Byte) : Statement (.readWriteMultipleRegisters body) := fun h => body_statement h

theorem vendor (fc : Byte) (body : List Byte) : Statement (.vendor fc body) := fun h =>
  body_statement (by simp only [Instr.wf, Bool.and_eq_true] at h; exact h.1)

theorem exceptionResponse (fc : BitVec 7) (x : Byte) : Statement (.exceptionResponse fc x) := fun _ => rfl

theorem rtuAdu (inst : U16) (unit : Byte) (pdu : List Byte) (crc : U16) : Statement (.rtuAdu inst unit pdu crc) := by
  intro h
  simp only [Instr.wf, Bool.and_eq_true, decide_eq_true_eq] at h
  obtain ⟨⟨h1, h2⟩, -⟩ := h
  have h3 : pdu.length ≤ 253 := h2
  simp only [Instr.port, encode, List.length_cons, List.length_append, putLe16_length]
  omega

end Sys2Proof.Laws.Length
end

