-- ==== Sys2Proof/Tests/Slice0.lean ====
section
/-! SUPPORT. The model's own tests. Expected results are those of 95_test_vectors.md (named CRC1, RX1, … as there) or written out
by hand from the encodings of 30_encoding.md. Three parts: ill-formed terms and encodings; one step per instruction; for
every statement with hypotheses, states and operands that meet them, each clause at a boundary of its range. -/

namespace Sys2Proof.Tests

open Sys2Proof Sys2Proof.Machine

/-! ### Well-formedness -/

set_option maxRecDepth 20000 in
theorem test_wf_body_longest : (Instr.readCoils (List.replicate 252 0)).wf = true := by decide

set_option maxRecDepth 20000 in
theorem test_wf_body_too_long :
    (Instr.readCoils (List.replicate 253 0)).wf = false ∧ (Instr.readDiscreteInputs (List.replicate 253 0)).wf = false ∧
    (Instr.readHoldingRegisters (List.replicate 253 0)).wf = false ∧
    (Instr.readInputRegisters (List.replicate 253 0)).wf = false ∧
    (Instr.writeSingleCoil (List.replicate 253 0)).wf = false ∧
    (Instr.writeSingleRegister (List.replicate 253 0)).wf = false ∧ (Instr.diagnostics (List.replicate 253 0)).wf = false ∧
    (Instr.writeMultipleCoils (List.replicate 253 0)).wf = false ∧
    (Instr.writeMultipleRegisters (List.replicate 253 0)).wf = false ∧
    (Instr.readWriteMultipleRegisters (List.replicate 253 0)).wf = false ∧
    (Instr.vendor 0x41 (List.replicate 253 0)).wf = false := by decide

/-- A standard function code is no vendor code (R159). -/
theorem test_wf_vendor : (Instr.vendor 0x03 []).wf = false ∧ (Instr.vendor 0x17 []).wf = false ∧
    (Instr.vendor 0x41 [0x12]).wf = true ∧ (Instr.vendor 0x07 []).wf = true := by decide

set_option maxRecDepth 20000 in
/-- An ADU carries 1 to 253 PDU bytes and their CRC (R70). -/
theorem test_wf_adu : (Instr.rtuAdu 0 0x01 [0x03, 0x00, 0x00, 0x00, 0x04] 0x0944).wf = true ∧
    (Instr.rtuAdu 0 0x01 [0x03, 0x00, 0x00, 0x00, 0x04] 0x0844).wf = false ∧
    (Instr.rtuAdu 0 0x01 [] (aduCrc 0x01 [])).wf = false := by decide

set_option maxRecDepth 20000 in
theorem test_wf_adu_too_long : (Instr.rtuAdu 0 0x01 (List.replicate 254 0) 0).wf = false := by decide

/-! ### Words written out from the encodings: each constructor, and what is no instruction -/

theorem test_decode_crc :
    decode .command [0x01, 0xFF, 0xFE] = .ok (.crcLoad 0xFFFE) ∧
    decode .command [0x02, 0xBF] = .ok (.crcFeed 0xBF) ∧
    decode .command [0x03, 0x00, 0x00, 0x05, 0x00, 0x06, 0xFF, 0xFF] = .ok (.crcBlock (.host 5) 6 0xFFFF) ∧
    decode .command [0x03, 0x01, 0x00, 0x01, 0x00, 0x06, 0x12, 0x34] = .ok (.crcBlock (.rx 1) 6 0x1234) ∧
    decode .command [0x04] = .ok .crcRead := ⟨rfl, rfl, rfl, rfl, rfl⟩

/-- 95_test_vectors.md programs P2 and P3 give these bytes of the operands. -/
theorem test_decode_framer :
    decode .command [0x10, 0x00, 0x00, 0x00, 0x00, 0x4B, 0x00] = .ok (.rtuCfgBaud 0 19200) ∧
    decode .command [0x11, 0x00, 0x01, 0x11] = .ok (.rtuCfgSlave 1 0x11) ∧
    decode .command [0x12, 0x00, 0x00] = .ok (.rtuBringup 0) ∧
    decode .command [0x13, 0x01, 0x02] = .ok (.rtuShutdown 0x0102) ∧
    decode .command [0x14, 0x00, 0x01] = .ok (.rtuIsDown 1) ∧
    decode .command [0x15, 0x00, 0x00, 0x01, 0x00, 0x7F, 0xFF, 0x00, 0x0A] = .ok (.rtuTx 0 0x01 (.host 0x7FFF) 10) ∧
    decode .command [0x16, 0x00, 0x01, 0x00, 0x00, 0x13, 0x88] = .ok (.rtuRx 1 5000) ∧
    decode .command [0x17, 0x00, 0x01] = .ok (.rtuRxIsBcast 1) ∧
    decode .command [0x18, 0x00, 0x01] = .ok (.rtuRxAvail 1) ∧
    decode .command [0x19, 0x00, 0x01] = .ok (.rtuStatus 1) := ⟨rfl, rfl, rfl, rfl, rfl, rfl, rfl, rfl, rfl, rfl⟩

theorem test_decode_codec :
    decode .command [0x20, 0x01, 0x80, 0x00, 0x00, 0x05, 0x00] = .ok (.pduServe (.rx 0x8000) 5 false) ∧
    decode .command [0x20, 0x00, 0x00, 0x02, 0x00, 0x08, 0x01] = .ok (.pduServe (.host 2) 8 true) ∧
    decode .command [0x21, 0x81, 0x02] = .ok (.pduExc 0x81 0x02) ∧
    decode .command [0x22, 0x01, 0x01, 0x00, 0x0A, 0x00, 0x07] = .ok (.pduBuildRead 0x01 0x01 0x000A 7) ∧
    decode .command [0x23, 0x06, 0x00, 0x01, 0xAB, 0xCD] = .ok (.pduBuildWriteSingle 0x06 1 0xABCD) ∧
    decode .command [0x24, 0x0F, 0x00, 0x02, 0x00, 0x0A, 0x00, 0x03] = .ok (.pduBuildWriteMulti 0x0F 2 10 3) ∧
    decode .command [0x25, 0x00, 0x00, 0x04, 0x00, 0x02] = .ok (.pduBuildLoopback (.host 4) 2) ∧
    decode .command [0x26, 0x00, 0x00, 0x04, 0x00, 0x02] = .ok (.pduBuildRaw (.host 4) 2) ∧
    decode .command [0x27, 0x00, 0x00, 0x01, 0x00, 0x05, 0x01, 0x00, 0x00, 0x00, 0x02] =
      .ok (.pduParseRsp (.host 1) 5 (.rx 0) 2) ∧
    decode .command [0x28, 0x00, 0x01, 0x00, 0x0A, 0x00] = .ok (.addrSplit 0x0001000A .read) ∧
    decode .command [0x28, 0x00, 0x00, 0x00, 0x03, 0x01] = .ok (.addrSplit 0x00000003 .write) ∧
    decode .command [0x28, 0x00, 0x00, 0x00, 0x0B, 0x02] = .ok (.addrSplit 0x0000000B .writeSingle) :=
  ⟨rfl, rfl, rfl, rfl, rfl, rfl, rfl, rfl, rfl, rfl, rfl, rfl⟩

/-- The requests of section 6 of the vectors, by function code. -/
theorem test_decode_requests :
    decode .request [0x01, 0x00, 0x0A, 0x00, 0x07] = .ok (.readCoils [0x00, 0x0A, 0x00, 0x07]) ∧
    decode .request [0x02, 0x00, 0x00, 0x00, 0x05] = .ok (.readDiscreteInputs [0x00, 0x00, 0x00, 0x05]) ∧
    decode .request [0x03, 0x00, 0x00, 0x00, 0x04] = .ok (.readHoldingRegisters [0x00, 0x00, 0x00, 0x04]) ∧
    decode .request [0x04, 0x00, 0x00, 0x00, 0x01] = .ok (.readInputRegisters [0x00, 0x00, 0x00, 0x01]) ∧
    decode .request [0x05, 0x00, 0x03, 0xFF, 0x00] = .ok (.writeSingleCoil [0x00, 0x03, 0xFF, 0x00]) ∧
    decode .request [0x06, 0x00, 0x01, 0xAB, 0xCD] = .ok (.writeSingleRegister [0x00, 0x01, 0xAB, 0xCD]) ∧
    decode .request [0x08, 0x00, 0x00, 0xA5, 0x37] = .ok (.diagnostics [0x00, 0x00, 0xA5, 0x37]) ∧
    decode .request [0x0F, 0x00, 0x00, 0x00, 0x03, 0x01, 0xFF] =
      .ok (.writeMultipleCoils [0x00, 0x00, 0x00, 0x03, 0x01, 0xFF]) ∧
    decode .request [0x10, 0x00, 0x01, 0x00, 0x02, 0x04, 0x00, 0x0A, 0x01, 0x02] =
      .ok (.writeMultipleRegisters [0x00, 0x01, 0x00, 0x02, 0x04, 0x00, 0x0A, 0x01, 0x02]) ∧
    decode .request [0x17, 0x00, 0x00, 0x00, 0x02, 0x00, 0x01, 0x00, 0x01, 0x02, 0x12, 0x34] =
      .ok (.readWriteMultipleRegisters [0x00, 0x00, 0x00, 0x02, 0x00, 0x01, 0x00, 0x01, 0x02, 0x12, 0x34]) ∧
    decode .request [0x41, 0x12] = .ok (.vendor 0x41 [0x12]) ∧
    decode .request [0x81, 0x02] = .ok (.vendor 0x81 [0x02]) ∧
    decode .response [0x81, 0x02] = .ok (.exceptionResponse 0x01 0x02) ∧
    decode .response [0xFF, 0x04] = .ok (.exceptionResponse 0x7F 0x04) :=
  ⟨rfl, rfl, rfl, rfl, rfl, rfl, rfl, rfl, rfl, rfl, rfl, rfl, rfl, rfl⟩

/-- The ADU of RX1 and RX4: the CRC low byte first (20_memory.md R52). -/
theorem test_decode_adu :
    decode (.wire 0) [0x01, 0x03, 0x00, 0x00, 0x00, 0x04, 0x44, 0x09] =
      .ok (.rtuAdu 0 0x01 [0x03, 0x00, 0x00, 0x00, 0x04] 0x0944) ∧
    decode (.wire 1) [0x00, 0x0F, 0x00, 0x02, 0x00, 0x0A, 0x02, 0xFF, 0x03, 0xE8, 0xBB] =
      .ok (.rtuAdu 1 0x00 [0x0F, 0x00, 0x02, 0x00, 0x0A, 0x02, 0xFF, 0x03] 0xBBE8) := ⟨rfl, rfl⟩

/-- What is no instruction is rejected by name. -/
theorem test_decode_rejects :
    decode .command [0x05] = .error (.reservedCommand 0x05) ∧
    decode .command [0x1A, 0x00, 0x00] = .error (.reservedCommand 0x1A) ∧
    decode .command [0x01, 0xFF] = .error (.wrongLength 0x01) ∧
    decode .command [0x04, 0x00] = .error (.wrongLength 0x04) ∧
    decode .command [0x20, 0x00, 0x00, 0x00, 0x00, 0x05, 0x02] = .error .badBool ∧
    decode .command [0x26, 0x02, 0x00, 0x04, 0x00, 0x02] = .error .badRef ∧
    decode .command [0x28, 0x00, 0x00, 0x00, 0x01, 0x03] = .error .badUse ∧
    decode .command [] = .error .empty ∧ decode .request [] = .error .empty ∧
    decode .response [0x03, 0x02] = .error .notExceptionResponse ∧
    decode .response [0x83] = .error .notExceptionResponse ∧
    decode (.wire 0) [0x01, 0x03, 0x00] = .error .notAdu :=
  ⟨rfl, rfl, rfl, rfl, rfl, rfl, rfl, rfl, rfl, rfl, rfl, rfl⟩

set_option maxRecDepth 20000 in
theorem test_decode_too_long :
    decode .request (List.replicate 254 0x41) = .error .pduTooLong ∧
    decode (.wire 0) (List.replicate 257 0x01) = .error .notAdu := ⟨rfl, rfl⟩

/-- Opcode-table words (notes/assumptions/18.md): commands, standard codes, bit 7, vendor codes. -/
theorem test_table_words :
    decodeTableWord 8 0x01 = some (.crcLoad 0) ∧
    decodeTableWord 8 0x15 = some (.rtuTx 0 0 (.host 0) 0) ∧
    decodeTableWord 8 0x05 = some (.writeSingleCoil [0, 0, 0, 0]) ∧
    decodeTableWord 8 0x08 = some (.diagnostics [0, 0]) ∧
    decodeTableWord 8 0x0F = some (.writeMultipleCoils [0, 0, 0, 0, 0]) ∧
    decodeTableWord 8 0x80 = some (.exceptionResponse 0 0) ∧
    decodeTableWord 8 0x41 = some (.vendor 0x41 []) := ⟨rfl, rfl, rfl, rfl, rfl, rfl, rfl⟩

/-! ### States -/

/-- The start state of sections 4 and 5 of the vectors: 9600 baud, unit 1, up and idle. -/
def upFramer : Framer :=
  { Framer.reset with
    cfgBaud := 9600, t1p5Us := 1717, t3p5Us := 4007, slaveId := 0x01, down := false, interval1 := 1717, interval3 := 4007 }

/-- Two instances, the first up and idle. -/
def up : State := { State.reset with framers := [upFramer, Framer.reset] }

/-- Instance 0 with a change. -/
def upWith (f : Framer → Framer) : State := { up with framers := [f upFramer, Framer.reset] }

/-- Instance 0 after RTU_RX. -/
def waiting : State := upWith (Framer.rxEnter 5000)

/-- An instance in RX_EOF with these bytes captured after the unit id. -/
def eofFramer (unit : Byte) (bs : List Byte) (evf : BitVec 4) (ok : Bool) : Framer :=
  { upFramer with
    op := .rx, phase := .rxEof, rxUnit := unit, rxbuf := bs, rxCrc := crc16 (unit :: bs) 0xFFFF, evf := evf, frameOk := ok }

/-- Instance 0 in RX_EOF. -/
def inEof (unit : Byte) (bs : List Byte) (evf : BitVec 4) (ok : Bool) : State := upWith fun _ => eofFramer unit bs evf ok

/-- Instance 0 after RX1: the PDU `03 00 00 00 04` received. -/
def received : State :=
  upWith fun i =>
    { i with
      rxUnit := 0x01, rxbuf := [0x03, 0x00, 0x00, 0x00, 0x04, 0x44, 0x09], rxPduLen := 5, rxStatus := .ok, rxCrc := 0 }

/-- The host's buffer 0 holds these bytes. -/
def holding (bs : List Byte) : State := up.setBuffer 0 bs

/-- The holding registers of EX1. -/
def ex1 : State :=
  { up with host := { up.host with holdingRegisters := [0x1234, 0x5678, 0x55AA, 0xAA55] } }

/-- The host's buffer 0 holds `n` bytes. -/
def filled (n : Nat) : State := { up with mem := (List.range n).map fun k => (k, 0x55) }

/-- What a meaning returned. -/
def resultOf : Out → Option Result
  | .next s => some s.result
  | .fault _ => none
  | .refused _ => none

/-- Whether a meaning answered a next state. -/
def isNext : Out → Bool
  | .next _ => true
  | .fault _ => false
  | .refused _ => false

/-- `CRC_ACC` after a meaning. -/
def crcOf : Out → Option U16
  | .next s => some s.crcAcc
  | .fault _ => none
  | .refused _ => none

/-- Instance 0 after a meaning. -/
def framerOf : Out → Option Framer
  | .next s => s.framers[0]?
  | .fault _ => none
  | .refused _ => none

/-- The host after a meaning. -/
def hostOf : Out → Option HostState
  | .next s => some s.host
  | .fault _ => none
  | .refused _ => none

/-! ### One step per instruction: the vectors of 95_test_vectors.md -/

set_option maxRecDepth 20000 in
/-- CRC1, the published check value, and CRC12. -/
theorem test_crc16 : crc16 [0x31, 0x32, 0x33, 0x34, 0x35, 0x36, 0x37, 0x38, 0x39] 0xFFFF = 0x4B37 ∧
    crc16 [0x01, 0x02] 0x0000 = 0x5180 ∧ crc16 [0x00] 0x40BF = 0xB001 := by decide

theorem test_crcLoad : crcOf (exec (.crcLoad 0x1234) up) = some 0x1234 := by decide

set_option maxRecDepth 20000 in
/-- ENG2, its second step. -/
theorem test_crcFeed : crcOf (exec (.crcFeed 0x00) up) = some 0x40BF := by decide

set_option maxRecDepth 20000 in
/-- ENG4. -/
theorem test_crcBlock : resultOf (exec (.crcBlock (.host 0) 6 0xFFFF) (holding [0x01, 0x03, 0x00, 0x00, 0x00, 0x04])) =
    some (.crc 0x0944) := by decide

/-- ENG6. -/
theorem test_crcBlock_short : resultOf (exec (.crcBlock (.host 0) 3 0) (holding [0x01, 0x02])) =
    some (.refused .badBuffer) := by decide

/-- ENG1. -/
theorem test_crcRead : resultOf (exec .crcRead State.reset) = some (.crc 0xFFFF) := by decide

/-- CFG6. -/
theorem test_rtuCfgBaud : framerOf (exec (.rtuCfgBaud 0 115200) up) = some
    { upFramer with cfgBaud := 115200, t1p5Us := 750, t3p5Us := 1750, interval1 := 750, interval3 := 1750 } := by decide

/-- CFG1. -/
theorem test_rtuCfgBaud_zero : resultOf (exec (.rtuCfgBaud 0 0) State.reset) = some (.status .badArg) := by decide

theorem test_rtuCfgSlave : framerOf (exec (.rtuCfgSlave 0 0x11) up) = some { upFramer with slaveId := 0x11 } := by decide

/-- CFG2. -/
theorem test_rtuBringup : resultOf (exec (.rtuBringup 0) State.reset) = some (.status .notConfigured) := by decide

/-- RST3, its second step, with flags set that it clears. -/
theorem test_rtuBringup_up : framerOf (exec (.rtuBringup 0) (upWith fun i =>
    { i with down := true, t1p5Us := 858, t3p5Us := 2002, evf := 0b1111, rxfifo := [0x55] })) = some
    { upFramer with t1p5Us := 858, t3p5Us := 2002, interval1 := 858, interval3 := 2002, rxfifo := [0x55] } := by decide

theorem test_rtuShutdown : framerOf (exec (.rtuShutdown 0) up) = some { upFramer with down := true } := by decide

/-- RST1. -/
theorem test_rtuIsDown : resultOf (exec (.rtuIsDown 0) State.reset) = some (.flag true) := by decide

set_option maxRecDepth 20000 in
/-- TX1. -/
theorem test_rtuTx : framerOf (exec (.rtuTx 0 0x01 (.host 0) 5) (holding [0x03, 0x00, 0x00, 0x00, 0x04])) = some
    { upFramer with
      txUnit := 0x01, op := .tx, phase := .txWaitDone, de := true
      txAdu := [0x01, 0x03, 0x00, 0x00, 0x00, 0x04, 0x44, 0x09]
      txq := [0x01, 0x03, 0x00, 0x00, 0x00, 0x04, 0x44, 0x09] } := by decide

set_option maxRecDepth 20000 in
/-- TX6: the buffer holds the 254 bytes. -/
theorem test_rtuTx_len254 :
    framerOf (exec (.rtuTx 0 0x01 (.host 0) 254) (filled 254)) = some { upFramer with txStatus := .badArg } := by decide

set_option maxRecDepth 20000 in
/-- R174: BAD_BUFFER before BAD_ARG where the buffer is one byte shorter than its stated length, and before DOWN. -/
theorem test_rtuTx_badBuffer :
    resultOf (exec (.rtuTx 0 0x01 (.host 0) 254) (filled 253)) = some (.refused .badBuffer) ∧
    resultOf (exec (.rtuTx 1 0x01 (.host 0) 1) up) = some (.refused .badBuffer) := ⟨by decide, by decide⟩

/-- An `RXBUF` has 255 bytes (R49): a length of 256 is BAD_BUFFER (R174), one of 255 the command's own BAD_ARG. -/
theorem test_rtuTx_rxbuf :
    resultOf (exec (.rtuTx 0 0x01 (.rx 0) 256) received) = some (.refused .badBuffer) ∧
    resultOf (exec (.rtuTx 0 0x01 (.rx 0) 255) received) = some (.tx 0 .badArg) := by decide

/-- CFG3: completes with `-5`. -/
theorem test_rtuRx_down : resultOf (exec (.rtuRx 0 0) State.reset) = some (.rxFail 0 .down) ∧
    (framerOf (exec (.rtuRx 0 0) State.reset)).map Framer.rxSigned = some (-5) := by decide

/-- RX16. -/
theorem test_rtuRx_busy : resultOf (exec (.rtuRx 0 0) (upWith fun i => { i with op := .tx, phase := .txGuard })) =
    some (.refused .busy) := by decide

/-- RX18. -/
theorem test_rtuRxIsBcast : resultOf (exec (.rtuRxIsBcast 0) (upWith fun i => { i with bcast := true })) =
    some (.flag true) := by decide

/-- P4, step 2. -/
theorem test_rtuRxAvail : resultOf (exec (.rtuRxAvail 0) (upWith fun i => { i with rxfifo := [0x01] })) =
    some (.flag true) := by decide

/-- CFG5. -/
theorem test_rtuStatus : resultOf (exec (.rtuStatus 0) State.reset) = some (.framerStatus .idle .none 0 0 0 0) := by decide

/-- CFG7. -/
theorem test_rtuStatus_inst : resultOf (exec (.rtuStatus 2) State.reset) = some (.refused .badInst) := by decide

/-- EX1. -/
theorem test_pduServe : resultOf (exec (.pduServe (.host 0) 5 false) (ex1.setBuffer 0 [0x03, 0x00, 0x00, 0x00, 0x04])) =
    some (.response [0x03, 0x08, 0x12, 0x34, 0x56, 0x78, 0x55, 0xAA, 0xAA, 0x55]) := by decide

/-- DS1: the write of a broadcast is applied and not answered. -/
theorem test_pduServe_bcast :
    resultOf (exec (.pduServe (.host 0) 5 true) (holding [0x05, 0x00, 0x03, 0xFF, 0x00])) = some .noReply ∧
    (hostOf (exec (.pduServe (.host 0) 5 true) (holding [0x05, 0x00, 0x03, 0xFF, 0x00]))).map
      (fun h => pack h.coils 16) = some [0x08, 0x00] := by decide

/-- DS17. -/
theorem test_pduExc : resultOf (exec (.pduExc 0x81 0x02) up) = some (.excPdu [0x81, 0x02]) := by decide

/-- MS11. -/
theorem test_pduBuildRead : resultOf (exec (.pduBuildRead 0x01 0x01 0 2000) up) =
    some (.build .ok [0x01, 0x00, 0x00, 0x07, 0xD0]) := by decide

/-- MS9 and MS10. -/
theorem test_pduBuildRead_invalid : resultOf (exec (.pduBuildRead 0x00 0x03 0 4) up) = some (.build .localInvalid []) ∧
    resultOf (exec (.pduBuildRead 0x01 0x03 0 126) up) = some (.build .localInvalid []) ∧
    resultOf (exec (.pduBuildRead 0x01 0x05 0 1) up) = some (.build .localInvalid []) := by decide

/-- MS13. -/
theorem test_pduBuildWriteSingle : resultOf (exec (.pduBuildWriteSingle 0x06 1 0xABCD) up) =
    some (.build .ok [0x06, 0x00, 0x01, 0xAB, 0xCD]) := by decide

/-- MS12. -/
theorem test_pduBuildWriteSingle_invalid :
    resultOf (exec (.pduBuildWriteSingle 0x05 0 0x1234) up) = some (.build .localInvalid []) ∧
    resultOf (exec (.pduBuildWriteSingle 0x07 0 0) up) = some (.build .localInvalid []) := by decide

/-- MS14. -/
theorem test_pduBuildWriteMulti_words :
    resultOf (exec (.pduBuildWriteMulti 0x10 1 2 3) (up.setData 3 (.words [0x000A, 0x0102]))) =
      some (.build .ok [0x10, 0x00, 0x01, 0x00, 0x02, 0x04, 0x00, 0x0A, 0x01, 0x02]) := by decide

/-- MS15, and a foreign function code with and without its elements: BAD_BUFFER comes first (R174). -/
theorem test_pduBuildWriteMulti_bits :
    resultOf (exec (.pduBuildWriteMulti 0x0F 0 3 3) (up.setData 3 (.bits [true, true, true]))) =
      some (.build .ok [0x0F, 0x00, 0x00, 0x00, 0x03, 0x01, 0x07]) ∧
    resultOf (exec (.pduBuildWriteMulti 0x07 0 3 3) (up.setData 3 (.bits [true, true, true]))) =
      some (.build .localInvalid []) ∧
    resultOf (exec (.pduBuildWriteMulti 0x07 0 4 3) (up.setData 3 (.bits [true, true, true]))) =
      some (.refused .badBuffer) := by decide

/-- MS26, and BAD_BUFFER before it where the data is not there (R174). -/
theorem test_pduBuildLoopback : resultOf (exec (.pduBuildLoopback (.rx 0) 251) received) = some (.build .localInvalid []) ∧
    resultOf (exec (.pduBuildLoopback (.host 0) 251) up) = some (.refused .badBuffer) ∧
    resultOf (exec (.pduBuildLoopback (.host 0) 0) up) = some (.build .ok [0x08, 0x00, 0x00]) :=
  ⟨by decide, by decide, by decide⟩

/-- MS27, and a raw PDU. -/
theorem test_pduBuildRaw : resultOf (exec (.pduBuildRaw (.host 0) 0) up) = some (.build .localInvalid []) ∧
    resultOf (exec (.pduBuildRaw (.host 0) 2) (holding [0x41, 0x12])) = some (.build .ok [0x41, 0x12]) := by decide

/-- MS17, and EX4. -/
theorem test_pduParseRsp : parseRsp [0x01, 0x00, 0x00, 0x00, 0x0A] [0x01, 0x02, 0xCD, 0xFF] =
      some (.ok, .bits [true, false, true, true, false, false, true, true, true, true]) ∧
    resultOf (exec (.pduParseRsp (.host 0) 5 (.host 1) 2)
      ((holding [0x01, 0x00, 0x0A, 0x00, 0x07]).setBuffer 1 [0x81, 0x02])) =
      some (.parse .illegalDataAddress .none) := by decide

/-- MS16, MS18 to MS25. -/
theorem test_parseRsp :
    parseRsp [0x03, 0x00, 0x00, 0x00, 0x04] [0x03, 0x08, 0x12, 0x34, 0x56, 0x78, 0x55, 0xAA, 0xAA, 0x55] =
      some (.ok, .words [0x1234, 0x5678, 0x55AA, 0xAA55]) ∧
    parseRsp [0x03, 0x00, 0x00, 0x00, 0x04] [0x83, 0x07] = some (.unknownException, .none) ∧
    parseRsp [0x03, 0x00, 0x00, 0x00, 0x04] [0x83, 0x04] = some (.slaveDeviceFailure, .none) ∧
    parseRsp [0x03, 0x00, 0x00, 0x00, 0x04] [0x81] = malformed ∧
    parseRsp [0x03, 0x00, 0x00, 0x00, 0x04] [0x04, 0x08] = malformed ∧
    parseRsp [0x03, 0x00, 0x00, 0x00, 0x04] [0x03, 0x06, 0, 0, 0, 0, 0, 0] = malformed ∧
    parseRsp [0x05, 0x00, 0xAC, 0xFF, 0x00] [0x05, 0x00, 0xAC, 0x00, 0x00] = malformed ∧
    parseRsp [0x08, 0x00, 0x00, 0xA5, 0x37] [0x08, 0x00, 0x00, 0xA5] = malformed ∧
    parseRsp [0x41, 0x12] [0x41, 0x00] = some (.ok, .raw [0x41, 0x00]) := by decide

/-- MS2 and MS5. -/
theorem test_addrSplit : resultOf (exec (.addrSplit 0x00000000 .read) up) = some (.split 0x01 0xFFFF) ∧
    resultOf (exec (.addrSplit 0x0004000A .read) up) = some (.split 0x03 0x0009) := by decide

/-- MS8. -/
theorem test_addrSplit_invalid : resultOf (exec (.addrSplit 0x00010001 .write) up) = some (.splitFail .localInvalid) ∧
    resultOf (exec (.addrSplit 0x00020001 .read) up) = some (.splitFail .localInvalid) := by decide

/-- RD1, on the coils of the vector. -/
theorem test_readCoils : resultOf (exec (.readCoils [0x00, 0x00, 0x00, 0x0A])
    { up with host := { up.host with coils := [true, false, true, true, false, false, true, true,
      true, true, false, false, false, false, false, true] } }) = some (.handler (.ok [0x01, 0x02, 0xCD, 0x03])) := by decide

/-- EX3 and RD8: exceptions, the quantity before the address. -/
theorem test_readCoils_exc : resultOf (exec (.readCoils [0x00, 0x0A, 0x00, 0x07]) up) = some (.handler (.exc 0x02)) ∧
    resultOf (exec (.readCoils [0x00, 0x0A, 0x07, 0xD1]) up) = some (.handler (.exc 0x03)) := by decide

/-- RD11. -/
theorem test_readDiscreteInputs : resultOf (exec (.readDiscreteInputs [0x00, 0x00, 0x00, 0x05])
    { up with host := { up.host with discreteInputs := [true, false, true, true, false, false, false, false] } }) =
    some (.handler (.ok [0x02, 0x01, 0x0D])) := by decide

/-- RD13. -/
theorem test_readHoldingRegisters : resultOf (exec (.readHoldingRegisters [0x00, 0x00, 0x00, 0x04]) ex1) =
    some (.handler (.ok [0x03, 0x08, 0x12, 0x34, 0x56, 0x78, 0x55, 0xAA, 0xAA, 0x55])) := by decide

/-- RD14 to RD16. -/
theorem test_readHoldingRegisters_exc :
    resultOf (exec (.readHoldingRegisters [0x00, 0x00, 0x00, 0x7E]) ex1) = some (.handler (.exc 0x03)) ∧
    resultOf (exec (.readHoldingRegisters [0x00, 0x00, 0x00, 0x7D]) ex1) = some (.handler (.exc 0x02)) ∧
    resultOf (exec (.readHoldingRegisters [0x00, 0x00, 0x00]) ex1) = some (.handler (.exc 0x03)) := by decide

/-- RD17 and RD18. -/
theorem test_readInputRegisters : let s := { up with host := { up.host with inputRegisters := [0x00FF] } }
    resultOf (exec (.readInputRegisters [0x00, 0x00, 0x00, 0x01]) s) = some (.handler (.ok [0x04, 0x02, 0x00, 0xFF])) ∧
    resultOf (exec (.readInputRegisters [0x00, 0x00, 0x00, 0x02]) s) = some (.handler (.exc 0x02)) := by decide

/-- WR1. -/
theorem test_writeSingleCoil :
    resultOf (exec (.writeSingleCoil [0x00, 0x03, 0xFF, 0x00]) up) = some (.handler (.ok [0x05, 0x00, 0x03, 0xFF, 0x00])) ∧
    (hostOf (exec (.writeSingleCoil [0x00, 0x03, 0xFF, 0x00]) up)).map (fun h => pack h.coils 16) =
      some [0x08, 0x00] := by decide

/-- WR2, WR4 and WR5. -/
theorem test_writeSingleCoil_exc :
    resultOf (exec (.writeSingleCoil [0x00, 0x03, 0x00, 0xFF]) up) = some (.handler (.exc 0x03)) ∧
    resultOf (exec (.writeSingleCoil [0x00, 0x10, 0xFF, 0x00]) up) = some (.handler (.exc 0x02)) ∧
    resultOf (exec (.writeSingleCoil [0x00, 0x10, 0x00, 0x01]) up) = some (.handler (.exc 0x03)) := by decide

/-- WR7. -/
theorem test_writeSingleRegister :
    (hostOf (exec (.writeSingleRegister [0x00, 0x01, 0xAB, 0xCD]) up)).map HostState.holdingRegisters =
      some [0x0000, 0xABCD, 0x0000, 0x0000] := by decide

/-- WR9: without `SUPPORT_FC06` a vendor code. -/
theorem test_writeSingleRegister_vendor : resultOf (exec (.writeSingleRegister [0x00, 0x01, 0xAB, 0xCD])
    { up with params := { up.params with supportFc06 := false } }) = some (.handler (.exc 0x01)) := by decide

/-- DS4. -/
theorem test_diagnostics : resultOf (exec (.diagnostics [0x00, 0x00, 0xA5, 0x37]) up) =
    some (.handler (.ok [0x08, 0x00, 0x00, 0xA5, 0x37])) := by decide

/-- DS5 and DS6. -/
theorem test_diagnostics_exc : resultOf (exec (.diagnostics [0x00, 0x01, 0xA5, 0x37]) up) = some (.handler (.exc 0x01)) ∧
    resultOf (exec (.diagnostics [0x00]) up) = some (.handler (.exc 0x03)) := by decide

/-- EX2. -/
theorem test_writeMultipleCoils :
    resultOf (exec (.writeMultipleCoils [0x00, 0x02, 0x00, 0x0A, 0x02, 0xFF, 0x03]) up) =
      some (.handler (.ok [0x0F, 0x00, 0x02, 0x00, 0x0A])) ∧
    (hostOf (exec (.writeMultipleCoils [0x00, 0x02, 0x00, 0x0A, 0x02, 0xFF, 0x03]) up)).map (fun h => pack h.coils 16) =
      some [0xFC, 0x0F] := by decide

/-- WR11 (padding bits), WR12, WR13 and WR14. -/
theorem test_writeMultipleCoils_corners :
    (hostOf (exec (.writeMultipleCoils [0x00, 0x00, 0x00, 0x03, 0x01, 0xFF]) up)).map (fun h => pack h.coils 16) =
      some [0x07, 0x00] ∧
    resultOf (exec (.writeMultipleCoils [0x00, 0x02, 0x00, 0x0A, 0x01, 0xFF]) up) = some (.handler (.exc 0x03)) ∧
    resultOf (exec (.writeMultipleCoils [0x00, 0x02, 0x00, 0x0A, 0x02, 0xFF]) up) = some (.handler (.exc 0x03)) ∧
    resultOf (exec (.writeMultipleCoils [0x00, 0x00, 0x07, 0xB1, 0xF7]) up) = some (.handler (.exc 0x03)) := by decide

/-- WR15. -/
theorem test_writeMultipleRegisters :
    (hostOf (exec (.writeMultipleRegisters [0x00, 0x01, 0x00, 0x02, 0x04, 0x00, 0x0A, 0x01, 0x02]) up)).map
      HostState.holdingRegisters = some [0x0000, 0x000A, 0x0102, 0x0000] := by decide

/-- WR16 and WR17. -/
theorem test_writeMultipleRegisters_exc :
    resultOf (exec (.writeMultipleRegisters [0x00, 0x01, 0x00, 0x02, 0x03, 0x00, 0x0A, 0x01]) up) =
      some (.handler (.exc 0x03)) ∧
    resultOf (exec (.writeMultipleRegisters [0x00, 0x03, 0x00, 0x02, 0x04, 0x00, 0x0A, 0x01, 0x02]) up) =
      some (.handler (.exc 0x02)) := by decide

/-- WR18: the read sees the write. -/
theorem test_readWriteMultipleRegisters :
    resultOf (exec (.readWriteMultipleRegisters [0x00, 0x00, 0x00, 0x02, 0x00, 0x01, 0x00, 0x01, 0x02, 0x12, 0x34]) up) =
      some (.handler (.ok [0x17, 0x04, 0x00, 0x00, 0x12, 0x34])) := by decide

/-- WR22: a get that answers Exc(04) after the write; the write stays. -/
theorem test_readWriteMultipleRegisters_get_exc :
    let s := { up with host := { up.host with answers := [{}, { exc := 0x04 }] } }
    resultOf (exec (.readWriteMultipleRegisters [0x00, 0x00, 0x00, 0x02, 0x00, 0x01, 0x00, 0x01, 0x02, 0x12, 0x34]) s) =
      some (.handler (.exc 0x04)) ∧
    (hostOf (exec (.readWriteMultipleRegisters
      [0x00, 0x00, 0x00, 0x02, 0x00, 0x01, 0x00, 0x01, 0x02, 0x12, 0x34]) s)).map HostState.holdingRegisters =
      some [0x0000, 0x1234, 0x0000, 0x0000] := by decide

/-- DS11. -/
theorem test_vendor : resultOf (exec (.vendor 0x41 [0x12])
    { up with
      params := { up.params with vendor := [0x41] }
      host := { up.host with answers := [{ rsp := [0xC1, 0x05, 0x01] }] } }) =
    some (.handler (.ok [0xC1, 0x05, 0x01])) := by decide

/-- DS8. -/
theorem test_vendor_none : resultOf (exec (.vendor 0x41 [0x12]) up) = some (.handler (.exc 0x01)) := by decide

/-- EX3's response and EX4's code. -/
theorem test_exceptionResponse : resultOf (exec (.exceptionResponse 0x01 0x02) up) =
    some (.excResponse [0x81, 0x02] .illegalDataAddress) := by decide

set_option maxRecDepth 20000 in
/-- RX1. -/
theorem test_rtuAdu : resultOf (exec (.rtuAdu 0 0x01 [0x03, 0x00, 0x00, 0x00, 0x04] 0x0944) waiting) =
    some (.rxOk 0 0x01 [0x03, 0x00, 0x00, 0x00, 0x04]) := by decide

set_option maxRecDepth 20000 in
/-- RX2, RX3. -/
theorem test_rtuAdu_bad : resultOf (exec (.rtuAdu 0 0x01 [0x03, 0x00, 0x00, 0x00, 0x04] 0x0844) waiting) =
      some (.rxFail 0 .crcFail) ∧
    resultOf (exec (.rtuAdu 0 0x02 [0x03, 0x00, 0x00, 0x00, 0x04] 0x3A44) waiting) = some (.rxFail 0 .slaveId) := by decide

set_option maxRecDepth 20000 in
/-- RX5: a byte between T1P5 and T3P5. -/
theorem test_rx_noise : ((eofFramer 0x01 [0x03, 0x00, 0x00, 0x00, 0x04, 0x44, 0x09] 0b0100 true).eventSettle
    up.params (.byte 0x55)).rxStatus = .frameNok := by decide

/-- TX2's drain step and TX3, TX9. -/
theorem test_tx_phases :
    (({ upFramer with op := .tx, phase := .txWaitDone, de := true, evf := 0b1001 } : Framer).control up.params).map
      (fun i => (i.de, i.evf, i.tmr3, i.phase)) = some (false, 0b0001, .running, .txGuard) ∧
    (({ upFramer with op := .tx, phase := .txGuard, evf := 0b1001 } : Framer).control up.params).map
      (fun i => (i.op, i.evf, i.phase, i.txStatus)) = some (.none, 0b1001, .idle, .ok) := by decide

/-- A table word placed after reset is what the first step runs, and it runs. -/
theorem test_withFetchWord : resultOf (step (State.reset.withFetchWord 8 0x04)) = some (.crc 0xFFFF) ∧
    resultOf (step (State.reset.withFetchWord 8 0x14)) = some (.flag true) ∧
    isNext (step (State.reset.withFetchWord 8 0x80)) = true := by decide

/-- Bytes that are no instruction: a command too short, a `use` outside its values, no request, an exception response with a byte
too many, three bytes on the wire. -/
theorem test_malformed :
    resultOf (runInput (.port .command [0x01]) up) = some (.refused .reservedCmd) ∧
    resultOf (runInput (.port .command [0x28, 0x00, 0x00, 0x00, 0x01, 0x03]) up) = some (.splitFail .localInvalid) ∧
    resultOf (runInput (.port .request []) up) = some .noReply ∧
    resultOf (runInput (.port .response [0x83, 0x02, 0x00]) up) = some (.parse .illegalDataAddress .none) ∧
    resultOf (runInput (.port .response [0x03, 0x02]) up) = some (.parse .malformedResponse .none) ∧
    (framerOf (runInput (.port (.wire 0) [0x01, 0x03, 0x00]) up)).map Framer.rxfifo = some [0x01, 0x03, 0x00] := by decide

/-! ### The engines and the environment -/

/-- The environment while an instance sends `n` bytes: `TX_STEP` × n, then the guard (P2, step 11). -/
def sending (n : Nat) : List Input := List.replicate n (.env 0 .txStep) ++ [.controller 0, .env 0 .expireT3p5, .controller 0]

set_option maxRecDepth 20000 in
/-- P2, steps 4 to 11: one turn of the slave cycle. -/
theorem test_slaveCycle :
    (framerOf (slaveCycle 0 ⟨[.port (.wire 0) [0x01, 0x03, 0x00, 0x00, 0x00, 0x04, 0x44, 0x09]], [], sending 13⟩ ex1)).map
      (fun i => (i.wireOut, i.phase, i.txStatus)) =
      some ([0x01, 0x03, 0x08, 0x12, 0x34, 0x56, 0x78, 0x55, 0xAA, 0xAA, 0x55, 0x43, 0x8E], .idle, .ok) := by decide

set_option maxRecDepth 20000 in
/-- R191: a receive error is not answered. -/
theorem test_slaveCycle_error :
    resultOf (slaveCycle 0 ⟨[.env 0 .rxTimeout], [], []⟩ ex1) = some (.rxFail 0 .timeout) ∧
    resultOf (slaveCycle 1 ⟨[], [], []⟩ ex1) = some (.rxFail 1 .down) := by decide

/-- The bytes of EX1's request, one after the other. -/
def retry : List Input :=
  [0x01, 0x03, 0x00, 0x00, 0x00, 0x04, 0x44, 0x09].map fun b => .env 0 (.byte b)

set_option maxRecDepth 40000 in
/-- P4: the master's retry arrives while the first request is served; that reply is never sent, the next turn's RTU_RX takes the
bytes that wait, and one response goes out. -/
theorem test_slaveLoop_stale :
    (framerOf (slaveLoop 0 [⟨[.port (.wire 0) [0x01, 0x03, 0x00, 0x00, 0x00, 0x04, 0x44, 0x09]], retry, []⟩] ex1)).map
      (fun i => (i.txq, i.wireOut, i.rxfifo.length, i.evf)) = some ([], [], 8, 0b0010) ∧
    (framerOf (slaveLoop 0 [⟨[.port (.wire 0) [0x01, 0x03, 0x00, 0x00, 0x00, 0x04, 0x44, 0x09]], retry, []⟩,
      ⟨[.controller 0, .controller 0, .env 0 .expireT1p5, .controller 0, .env 0 .expireT3p5, .controller 0], [],
        sending 13⟩] ex1)).map (fun i => (i.wireOut, i.rxStatus, i.rxfifo)) =
      some ([0x01, 0x03, 0x08, 0x12, 0x34, 0x56, 0x78, 0x55, 0xAA, 0xAA, 0x55, 0x43, 0x8E], .ok, []) := ⟨by decide, by decide⟩

set_option maxRecDepth 40000 in
/-- R191 step 4: a byte that arrives after the receive has ended and before the next command makes the reply stale too. -/
theorem test_slaveCycle_byteAfterReceive :
    (framerOf (slaveCycle 0 ⟨[.port (.wire 0) [0x01, 0x03, 0x00, 0x00, 0x00, 0x04, 0x44, 0x09], .env 0 (.byte 0x01)], [], []⟩
      ex1)).map (fun i => (i.txq, i.op, i.rxfifo)) = some ([], .none, [0x01]) := by decide

set_option maxRecDepth 20000 in
/-- P5: a master read with an exception reply. A read to unit 0 never reaches the transport (R168 items 1 and 4), and a write to
unit 0 is `M_OK` without a receive (P3, item 3). -/
theorem test_masterOperation :
    resultOf ((MasterOp.read 0x0000000B 7).run ⟨0, 0x01, 5000, 9, sending 8, [.port (.wire 0) [0x01, 0x81, 0x02, 0xC1, 0x91]]⟩
      up) = some (.parse .illegalDataAddress .none) ∧
    resultOf ((MasterOp.read 0x0000000B 7).run ⟨0, 0x00, 5000, 9, [], []⟩ up) = some (.build .localInvalid []) ∧
    resultOf ((MasterOp.writeSingle 0x0000000B 0xFF00).run ⟨0, 0x00, 5000, 9, sending 8, []⟩ up) =
      some (.parse .ok .none) := ⟨by decide, by decide, by decide⟩

/-- TIMING_HONEST at 9600 baud (1717 and 4007 µs): the intervals are the least that is honest, and a gap of 1717 µs is too long
for a byte that begins no frame. -/
theorem test_timingHonest :
    timingHonest 0 ⟨0, 0⟩ 0 [⟨0, .env 0 (.byte 0x01), true⟩, ⟨1716, .env 0 (.byte 0x03), false⟩,
      ⟨3433, .env 0 .expireT1p5, false⟩, ⟨5723, .env 0 .expireT3p5, false⟩] up = true ∧
    timingHonest 0 ⟨0, 0⟩ 0 [⟨0, .env 0 (.byte 0x01), true⟩, ⟨1717, .env 0 (.byte 0x03), false⟩] up = false ∧
    timingHonest 0 ⟨0, 0⟩ 0 [⟨0, .env 0 (.byte 0x01), true⟩, ⟨1716, .env 0 .expireT1p5, false⟩] up = false ∧
    timingHonest 0 ⟨0, 0⟩ 0 [⟨0, .env 0 (.byte 0x01), true⟩, ⟨4006, .env 0 .expireT3p5, false⟩] up = false := by decide

/-- The run in which nothing is ever enabled. -/
def restingRun : Run where
  state := fun _ => State.reset
  input := fun _ => .controller 0
  step := fun _ => rfl

/-- It is fair: no duty falls due. -/
theorem test_fair : restingRun.Fair := by
  have reset_at : ∀ n k P, restingRun.at n k P → P Framer.reset := by
    rintro n k P ⟨i, hi, hP⟩
    rw [List.eq_of_mem_replicate (List.mem_of_getElem? hi)] at hP
    exact hP
  refine fun n => ⟨fun k h => ?_, fun k h => ?_, fun k h => ?_, fun k h => ?_⟩
  · exact absurd (reset_at n k _ (h k (Nat.le_refl k)).1) (by decide)
  · exact absurd (reset_at n k _ (h k (Nat.le_refl k)).1) (by decide)
  · exact absurd (reset_at n k _ (h k (Nat.le_refl k))) (by decide)
  · exact absurd (reset_at n k _ (h k (Nat.le_refl k))) fun h => by cases h

/-- The case RTU_BRINGUP opens (notes/assumptions/19.md): bytes waiting, no timer running, no flag set. The receive takes them
and then no controller step is enabled and no timer can expire. -/
theorem test_bringup_over_waiting_bytes :
    let i := ({ upFramer with down := true, rxfifo := [0x01, 0x03], evf := 0b1110 } : Framer).bringup.rxEnter 0
    let j := Framer.settle up.params settleSteps i
    j.phase = .rxBody ∧ j.control up.params = none ∧ j.event .expireT1p5 = none ∧ j.event .expireT3p5 = none ∧
      j.event .rxTimeout = none := by decide

/-! ### Witnesses: states and operands that meet the hypotheses of each statement, each clause at a boundary

A statement whose only hypotheses are those of another carries that one's witness. -/

/-- A host whose next call answers an exception. -/
def answersExc (x : Byte) (s : State) : State := { s with host := { s.host with answers := [{ exc := x }] } }

/-- No table has a capability. -/
def bare : State :=
  { up with
    params := { up.params with
      coils := ⟨16, false, false⟩, discreteInputs := ⟨8, false, false⟩, inputRegisters := ⟨1, false, false⟩
      holdingRegisters := ⟨4, false, false⟩ } }

/-- A vendor entry and one answer of its callback. -/
def vendored (a : HostAnswer) : State :=
  { up with params := { up.params with vendor := [0x40, 0x41] }, host := { up.host with answers := [a] } }

/-- CrcBlockComputesCrc, and the buffer hypotheses of every command with a buffer operand. -/
theorem witness_CrcBlockComputesCrc :
    (holding [1, 2]).Holds (.host 0) [1, 2] ∧ (holding [1, 2]).Short (.host 0) 3 ∧ up.Short (.rx 2) 1 ∧ received.Short (.rx 0) 256 ∧
    received.Holds (.rx 0) [0x03, 0x00, 0x00, 0x00, 0x04] ∧ received.Unreadable (.rx 0) 6 ∧
    received.Unreadable (.rx 0) 255 ∧ waiting.Unreadable (.rx 0) 1 ∧ up.Holds (.host 0) [] ∧ up.Holds (.rx 2) [] :=
  ⟨by decide, ⟨2, by decide, by decide⟩, .inl ⟨rfl, by decide⟩, .inr ⟨_, rfl, by decide⟩,
    .inr ⟨_, rfl, by decide⟩, ⟨_, rfl, by decide⟩, ⟨_, rfl, by decide⟩, ⟨_, rfl, by decide⟩, by decide, .inl rfl⟩

/-- The length of CRC_BLOCK can be 0 with the `RXBUF` of an instance that does not exist (R98 "len = 0"). -/
theorem test_crcBlock_absent : resultOf (exec (.crcBlock (.rx 2) 0 0x1234) up) = some (.crc 0x1234) ∧
    resultOf (exec (.crcBlock (.rx 2) 1 0x1234) up) = some (.refused .badBuffer) := by decide

theorem witness_CrcEngineIndependentOfFramers :
    family (.crcBlock (.host 0) 2 0) = .crc ∧ ∀ k len pre, Instr.crcBlock (.host 0) 2 0 ≠ .crcBlock (.rx k) len pre :=
  ⟨rfl, by simp⟩

/-- EachFamilyChangesOnlyItsOwnState, MemoryFrame, HostCallsAreFewAndInRange: an instruction of each family that answers a next
state. -/
theorem witness_EachFamilyChangesOnlyItsOwnState :
    isNext (exec (.crcFeed 1) up) = true ∧ isNext (exec (.rtuCfgSlave 0 1) up) = true ∧
    isNext (exec (.rtuAdu 0 1 [3] 0) up) = true ∧ isNext (exec (.pduExc 1 2) up) = true ∧
    isNext (exec (.readCoils [0, 0, 0, 1]) up) = true ∧ isNext (exec (.exceptionResponse 1 2) up) = true := by decide

/-- The bounds of TimingIntervals. -/
theorem witness_TimingIntervals : timing 1 = (16500000, 38500000) ∧ timing 9600 = (1717, 4007) ∧
    timing 19200 = (858, 2002) ∧ timing 19201 = (750, 1750) ∧ timing (2 ^ 32 - 1) = (750, 1750) := by decide

/-- A busy instance, an idle one, and none: FramerCommandsRefuseBusyAndBadInstance, RtuCfgBaudSetsRateAndIntervals,
RtuCfgSlaveAndShutdown, QueriesReportRegisters. -/
theorem witness_FramerCommandsRefuseBusyAndBadInstance :
    waiting.framers[(0 : U16).toNat]? = some (upFramer.rxEnter 5000) ∧ (upFramer.rxEnter 5000).op ≠ .none ∧
    up.framers[(0 : U16).toNat]? = some upFramer ∧ upFramer.op = .none ∧
    up.framers[(2 : U16).toNat]? = none ∧ family (.rtuStatus 2) = .framer ∧
    target (.rtuStatus 2) = some (2 : U16).toNat := by decide

/-- RtuBringupTakesUp, RtuRxEntry: not configured and down, and up. -/
theorem witness_RtuBringupTakesUp :
    up.framers[(1 : U16).toNat]? = some Framer.reset ∧ Framer.reset.op = .none ∧ Framer.reset.cfgBaud = 0 ∧
    Framer.reset.down = true ∧ upFramer.cfgBaud ≠ 0 ∧ upFramer.down = false := by decide

/-- RxWaitStartTakesUnitId and RxTimeoutOnlyWhileWaiting. -/
theorem witness_RxWaitStartTakesUnitId : let i := upFramer.rxEnter 5000
    waiting.framers[0]? = some i ∧ i.phase = .rxWaitStart ∧ i.rxfifo = [] ∧ i.op = .rx ∧ i.rxTmo ≠ 0 ∧
    (let j := { i with rxfifo := [0x01, 0x03] }
     (upWith fun _ => j).framers[0]? = some j ∧ j.phase = .rxWaitStart ∧ j.rxfifo = 0x01 :: [0x03]) ∧
    (upFramer.rxEnter 0).rxTmo = 0 := by decide

/-- An instance in RX_BODY that has taken the unit id 1, with these bytes captured, these waiting, and these flags. -/
def bodyFramer (bs fifo : List Byte) (evf : BitVec 4) : Framer :=
  { upFramer with
    op := .rx, phase := .rxBody, rxUnit := 0x01, rxbuf := bs, rxCrc := crc16 (0x01 :: bs) 0xFFFF, rxfifo := fifo, evf := evf }

/-- RxBodyDrainsThenEnds: a full buffer with bytes waiting, the end of the body, and the wait. -/
theorem witness_RxBodyDrainsThenEnds :
    (∀ bs fifo evf, (upWith fun _ => bodyFramer bs fifo evf).framers[0]? = some (bodyFramer bs fifo evf) ∧
      (bodyFramer bs fifo evf).phase = .rxBody ∧ (bodyFramer bs fifo evf).rxbuf = bs ∧
      (bodyFramer bs fifo evf).rxfifo = fifo ∧ (bodyFramer bs fifo evf).evf = evf) ∧
    (List.replicate 255 (0 : Byte)).length ≤ 255 ∧ ([0x55] : List Byte) ≠ [] ∧
    (0b0100 : BitVec 4).getLsbD 2 = true ∧ (0b1011 : BitVec 4).getLsbD 2 = false :=
  ⟨fun _ _ _ => ⟨rfl, rfl, rfl, rfl, rfl⟩, Nat.le_of_eq List.length_replicate, by decide, rfl, rfl⟩

theorem witness_RxEofNoiseEndsFrameNok :
    let i : Framer := { eofFramer 0x01 [0x03] 0b0110 true with rxfifo := [0x55] }
    (upWith fun _ => i).framers[0]? = some i ∧ i.phase = .rxEof ∧ i.op = .rx ∧ i.rxfifo ≠ [] := ⟨rfl, rfl, rfl, by decide⟩

set_option maxRecDepth 20000 in
/-- RxEofValidates: waiting; FRAME_NOK by the flag and by 2 bytes; CRC_FAIL; SLAVE_ID; OK for the own id and for unit 0. Every
`eofFramer` is in RX_EOF with `OP = RX`, no byte waiting and the CRC of what it holds. -/
theorem witness_RxEofValidates :
    (∀ unit bs evf ok, (inEof unit bs evf ok).framers[0]? = some (eofFramer unit bs evf ok) ∧
      (eofFramer unit bs evf ok).phase = .rxEof ∧ (eofFramer unit bs evf ok).op = .rx ∧
      (eofFramer unit bs evf ok).rxfifo = [] ∧ (eofFramer unit bs evf ok).rxCrc = crc16 (unit :: bs) 0xFFFF ∧
      (eofFramer unit bs evf ok).rxUnit = unit ∧ (eofFramer unit bs evf ok).rxbuf = bs ∧
      (eofFramer unit bs evf ok).evf = evf ∧ (eofFramer unit bs evf ok).frameOk = ok ∧
      (eofFramer unit bs evf ok).slaveId = 0x01) ∧
    (0b0100 : BitVec 4).getLsbD 3 = false ∧ (0b1100 : BitVec 4).getLsbD 3 = true ∧
    ([0x03, 0x00] : List Byte).length < 3 ∧ 3 ≤ ([0x03, 0x00, 0x00] : List Byte).length ∧
    crc16 [0x01, 0x03, 0x00, 0x00] 0xFFFF ≠ 0 ∧
    crc16 [0x02, 0x03, 0x00, 0x00, 0x00, 0x04, 0x44, 0x3A] 0xFFFF = 0 ∧ (0x02 : Byte) ≠ 0x01 ∧ (0x02 : Byte) ≠ 0 ∧
    crc16 [0x01, 0x03, 0x00, 0x00, 0x00, 0x04, 0x44, 0x09] 0xFFFF = 0 ∧
    crc16 [0x00, 0x0F, 0x00, 0x02, 0x00, 0x0A, 0x02, 0xFF, 0x03, 0xE8, 0xBB] 0xFFFF = 0 :=
  ⟨fun _ _ _ _ => ⟨rfl, rfl, rfl, rfl, rfl, rfl, rfl, rfl, rfl, rfl⟩, by decide⟩

set_option maxRecDepth 20000 in
/-- GoodFrameIsReceived and BadFrameIsRejected: the shortest and the longest PDU, the own id and unit 0, a wrong CRC, another
unit, an idle instance. -/
theorem witness_GoodFrameIsReceived : let i := upFramer.rxEnter 5000
    waiting.framers[(0 : U16).toNat]? = some i ∧ i.phase = .rxWaitStart ∧ i.op = .rx ∧ i.frameOk = true ∧ i.rxbuf = [] ∧
    i.rxfifo = [] ∧ 1 ≤ ([0x07] : List Byte).length ∧ (List.replicate 253 (0 : Byte)).length ≤ 253 ∧
    (0x01 : Byte) = i.slaveId ∧ (0x02 : Byte) ≠ i.slaveId ∧ (0x02 : Byte) ≠ 0 ∧ (0 : U16) ≠ aduCrc 0x01 [0x07] ∧
    up.framers[(0 : U16).toNat]? = some upFramer ∧ upFramer.phase = .idle := by decide

set_option synthInstance.maxSize 2000 in
set_option maxRecDepth 20000 in
/-- ReceiveEndsAfterSilence: in the body with both timers running, at the end of the frame with both flags set. -/
theorem witness_ReceiveEndsAfterSilence :
    (let i : Framer := { upFramer with
        op := .rx, phase := .rxBody, rxUnit := 0x01, rxCrc := 0x807E, tmr1 := .running, tmr3 := .running }
     i.Inv up.params ∧ i.phase = .rxBody ∧ i.tmr1 = .running ∧ i.tmr3 = .running) ∧
    (let i : Framer := { upFramer with op := .rx, phase := .rxEof, rxUnit := 0x01, rxCrc := 0x807E, evf := 0b1100 }
     i.Inv up.params ∧ i.phase = .rxEof ∧ i.evT1p5 = true ∧ i.evT3p5 = true) := by decide

/-- EnvironmentEvents and TxDrainAndGuard. -/
theorem witness_EnvironmentEvents :
    upFramer.tmr1 = .stopped ∧ upFramer.tmr3 = .stopped ∧ upFramer.txq = [] ∧
    (upFramer.byteHook 0x55).tmr1 = .running ∧ (upFramer.byteHook 0x55).tmr3 = .running ∧
    ({ upFramer with txq := [0x55] } : Framer).txq = 0x55 :: [] := by decide

theorem witness_TxDrainAndGuard :
    let i : Framer := { upFramer with op := .tx, phase := .txWaitDone, evf := 0b0001 }
    let j : Framer := { upFramer with op := .tx, phase := .txGuard, evf := 0b1000 }
    (upWith fun _ => i).framers[0]? = some i ∧ i.phase = .txWaitDone ∧ up.params.txIrq = true ∧ i.evf.getLsbD 0 = true ∧
    ({ up.params with txIrq := false } : Params).txIrq = false ∧ i.txq = [] ∧ upFramer.evf.getLsbD 0 = false ∧
    (upWith fun _ => j).framers[0]? = some j ∧ j.phase = .txGuard ∧ j.op = .tx ∧ j.evf.getLsbD 3 = true ∧
    upFramer.evf.getLsbD 3 = false := by decide

set_option maxRecDepth 20000 in
/-- RtuTxEntry and BuildLoopbackAndRaw: a buffer of 253 bytes that is short for a length of 254, one that is short for a length of
1 and not for 0, one that is not short but may not be read, and an instance that is up and one that is down beside it. -/
theorem witness_RtuTxEntry_buffers :
    (filled 253).Short (.host 0) (254 : U16).toNat ∧
    up.Short (.host 0) (1 : U16).toNat ∧ ¬up.Short (.host 0) (0 : U16).toNat ∧
    received.Short (.rx 0) (256 : U16).toNat ∧ ¬received.Short (.rx 0) (254 : U16).toNat ∧ ¬received.Short (.rx 0) (6 : U16).toNat ∧
    received.Unreadable (.rx 0) (6 : U16).toNat ∧ (received.framers[(0 : U16).toNat]?).isSome ∧
    received.framers[(1 : U16).toNat]? = some Framer.reset :=
  ⟨⟨253, by decide, by decide⟩, ⟨0, by decide, rfl⟩, by decide, .inr ⟨_, rfl, by decide⟩, by decide, by decide,
    ⟨_, rfl, by decide⟩, rfl, rfl⟩

/-- RtuTxEntry and TransmissionPutsAduOnWire, with witness_CrcBlockComputesCrc for the buffers: the lengths at their bounds. -/
theorem witness_RtuTxEntry :
    (0 : U16).toNat < 1 ∧ 253 < (254 : U16).toNat ∧ 1 ≤ (1 : U16).toNat ∧ (253 : U16).toNat ≤ 253 ∧
    upFramer.op = .none ∧ upFramer.down = false ∧ upFramer.txq = [] ∧ Framer.reset.down = true ∧
    ([0x55] : List Byte).length = (1 : U16).toNat ∧ (holding [0x55]).framers[(0 : U16).toNat]? = some upFramer := by decide

/-- ObservationsAfterReset. -/
theorem witness_ObservationsAfterReset : (1 : U16).toNat < up.framers.length ∧ runInput .reset up = .next up.resetBlock ∧
    (1 : U32) ≠ 0 ∧ 1 ≤ (2 : U16).toNat ∧ ¬(holding [1, 2]).resetBlock.Short (.host 0) (2 : U16).toNat :=
  ⟨by decide, rfl, by decide, by decide, by decide⟩

set_option synthInstance.maxSize 2000 in
set_option maxRecDepth 20000 in
/-- StepKeepsInvariant and StepKeepsParameters: a state in the middle of a receive, and its next step. -/
theorem witness_StepKeepsInvariant :
    let s : State := { waiting with inputs := [.env 0 (.byte 0x01), .controller 0] }
    s.Inv ∧ isNext (step s) = true := by decide

/-- InstancesShareNothing: an input of instance 0 seen from instance 1, and two states that agree on instance 0. -/
theorem witness_InstancesShareNothing :
    Input.target (.env 0 (.byte 1)) ≠ some 1 ∧ isNext (runInput (.env 0 (.byte 1)) up) = true ∧
    Input.target (.port .command [0x19, 0x00, 0x00]) ≠ some 1 ∧ Input.env 0 (.byte 1) ≠ .reset ∧
    up.params = ({ up with crcAcc := 0 } : State).params ∧ up.framers[0]? = ({ up with crcAcc := 0 } : State).framers[0]? ∧
    isNext (runInput (.controller 0) up) = true := by decide

/-- RefusedMarkStays. -/
theorem witness_RefusedMarkStays : let s : State := { up with refused := true, inputs := [.controller 0] }
    isNext (step s) = true ∧ s.refused = true ∧ ∀ rest, s.inputs ≠ .reset :: rest := ⟨rfl, rfl, by simp⟩

/-- RefusalChangesNothingElse: a reserved command, and a vendor response of 254 bytes (DS12). -/
theorem witness_RefusalChangesNothingElse :
    runInput (.port .command [0x05]) up = .next (up.refuse .reservedCmd) ∧ up.refused = false ∧
    (up.refuse .reservedCmd).refused = true := ⟨rfl, rfl, rfl⟩

set_option maxRecDepth 20000 in
theorem witness_RefusalChangesNothingElse_vendor :
    resultOf (runInput (.port .request [0x41]) (vendored { rsp := List.replicate 254 0 })) =
      some (.refused .vendorOverlong) := by decide

/-- ReadBitsHandlers and ReadRegistersHandlers: no capability; another length; the quantities 0, 1, the maximum and one more; a
range that ends at the table's end and one past it; both kinds of answer. -/
theorem witness_ReadBitsHandlers :
    (bare.params.table .coils).hasGet = false ∧ (up.params.table .coils).hasGet = true ∧
    ([0, 0, 0] : List Byte).length ≠ 4 ∧ ([0x00, 0x0F, 0x00, 0x01] : List Byte) = putBe16 15 ++ putBe16 1 ∧
    (0 : U16).toNat < 1 ∧ 2000 < (2001 : U16).toNat ∧ 1 ≤ (1 : U16).toNat ∧ (2000 : U16).toNat ≤ 2000 ∧
    (up.params.table .coils).size < (16 : U16).toNat + (1 : U16).toNat ∧
    (15 : U16).toNat + (1 : U16).toNat ≤ (up.params.table .coils).size ∧
    (∃ vs h, hostGet .coils (15 : U16).toNat (1 : U16).toNat up.host = (.ok vs, h)) ∧
    (∃ x h, hostGet .coils (15 : U16).toNat (1 : U16).toNat (answersExc 0x04 up).host = (.error x, h)) :=
  ⟨rfl, rfl, by decide, by decide, by decide, by decide, by decide, by decide, by decide, by decide, ⟨_, _, rfl⟩,
    ⟨_, _, rfl⟩⟩

theorem witness_ReadRegistersHandlers :
    (bare.params.table .holdingRegisters).hasGet = false ∧ (up.params.table .holdingRegisters).hasGet = true ∧
    125 < (126 : U16).toNat ∧ (125 : U16).toNat ≤ 125 ∧
    (up.params.table .holdingRegisters).size < (3 : U16).toNat + (2 : U16).toNat ∧
    (3 : U16).toNat + (1 : U16).toNat ≤ (up.params.table .holdingRegisters).size ∧
    (up.params.table .inputRegisters).hasGet = true ∧
    (∃ vs h, hostGet .inputRegisters 0 1 up.host = (.ok vs, h)) :=
  ⟨rfl, rfl, by decide, by decide, by decide, by decide, rfl, ⟨_, _, rfl⟩⟩

/-- WriteSingleHandlers: legal and illegal values, the last address and one past it, both answers, `SUPPORT_FC06` and not. -/
theorem witness_WriteSingleHandlers :
    (bare.params.table .coils).hasSet = false ∧ (up.params.table .coils).hasSet = true ∧
    ((0xFF00 : U16) = 0xFF00 ∨ (0xFF00 : U16) = 0x0000) ∧ ¬((0x00FF : U16) = 0xFF00 ∨ (0x00FF : U16) = 0x0000) ∧
    (up.params.table .coils).size < (16 : U16).toNat + 1 ∧ (15 : U16).toNat + 1 ≤ (up.params.table .coils).size ∧
    up.params.supportFc06 = true ∧ ({ up.params with supportFc06 := false } : Params).supportFc06 = false ∧
    (∃ h, hostSet .coils (15 : U16).toNat 1 [1] up.host = (none, h)) ∧
    (∃ x h, hostSet .coils (15 : U16).toNat 1 [1] (answersExc 0x02 up).host = (some x, h)) :=
  ⟨rfl, rfl, by decide, by decide, by decide, by decide, rfl, rfl, ⟨_, rfl⟩, ⟨_, _, rfl⟩⟩

/-- WriteMultipleHandlers: the quantities 0, 1968 and 1969 (123 and 124), a wrong byte count, a wrong length, both ranges and
answers. -/
theorem witness_WriteMultipleHandlers :
    (bare.params.table .coils).hasSet = false ∧ (up.params.table .holdingRegisters).hasSet = true ∧
    ([0, 0, 0, 1] : List Byte).length < 5 ∧
    ([0x00, 0x01, 0x00, 0x02, 0x04, 0x00, 0x0A, 0x01, 0x02] : List Byte) =
      putBe16 1 ++ putBe16 2 ++ [4] ++ [0x00, 0x0A, 0x01, 0x02] ∧
    1968 < (1969 : U16).toNat ∧ (1968 : U16).toNat ≤ 1968 ∧ 123 < (124 : U16).toNat ∧ (123 : U16).toNat ≤ 123 ∧
    (4 : Byte).toNat = 2 * (2 : U16).toNat ∧ (3 : Byte).toNat ≠ 2 * (2 : U16).toNat ∧
    ([0x00, 0x0A, 0x01, 0x02] : List Byte).length = (4 : Byte).toNat ∧
    ([0x00, 0x0A, 0x01] : List Byte).length ≠ (4 : Byte).toNat ∧
    (up.params.table .holdingRegisters).size < (3 : U16).toNat + (2 : U16).toNat ∧
    (2 : U16).toNat + (2 : U16).toNat ≤ (up.params.table .holdingRegisters).size ∧
    (∃ h, hostSet .holdingRegisters 2 2 [0x000A, 0x0102] up.host = (none, h)) ∧
    (∃ x h, hostSet .holdingRegisters 2 2 [0x000A, 0x0102] (answersExc 0x04 up).host = (some x, h)) :=
  ⟨rfl, rfl, by decide, by decide, by decide, by decide, by decide, by decide, by decide, by decide, by decide, by decide,
    by decide, by decide, ⟨_, rfl⟩, ⟨_, _, rfl⟩⟩

/-- ReadWriteMultipleHandler: the body of WR18, the bounds of both quantities, each way the two calls can answer. -/
theorem witness_ReadWriteMultipleHandler :
    bare.params.holdingRegisters.hasGet = false ∧ up.params.holdingRegisters.hasGet = true ∧
    up.params.holdingRegisters.hasSet = true ∧ ([0, 0, 0, 2, 0, 1, 0, 1] : List Byte).length < 9 ∧
    ([0x00, 0x00, 0x00, 0x02, 0x00, 0x01, 0x00, 0x01, 0x02, 0x12, 0x34] : List Byte) =
      putBe16 0 ++ putBe16 2 ++ putBe16 1 ++ putBe16 1 ++ [2] ++ [0x12, 0x34] ∧
    121 < (122 : U16).toNat ∧ (121 : U16).toNat ≤ 121 ∧ 125 < (126 : U16).toNat ∧ (125 : U16).toNat ≤ 125 ∧
    (2 : Byte).toNat = 2 * (1 : U16).toNat ∧ ([0x12, 0x34] : List Byte).length = (2 : Byte).toNat ∧
    up.params.holdingRegisters.size < (3 : U16).toNat + (2 : U16).toNat ∧
    (2 : U16).toNat + (2 : U16).toNat ≤ up.params.holdingRegisters.size ∧
    (∃ x h, hostSet .holdingRegisters 1 1 [0x1234] (answersExc 0x04 up).host = (some x, h)) ∧
    (∃ h vs h', hostSet .holdingRegisters 1 1 [0x1234] up.host = (none, h) ∧
      hostGet .holdingRegisters 0 2 h = (.ok vs, h')) ∧
    (∃ h x h', hostSet .holdingRegisters 1 1 [0x1234] { up.host with answers := [{}, { exc := 0x04 }] } = (none, h) ∧
      hostGet .holdingRegisters 0 2 h = (.error x, h')) :=
  ⟨rfl, rfl, rfl, by decide, by decide, by decide, by decide, by decide, by decide, by decide, by decide, by decide,
    by decide, ⟨_, _, rfl⟩, ⟨_, _, _, rfl, rfl⟩, ⟨_, _, _, rfl, rfl⟩⟩

theorem witness_DiagnosticsHandler : ([0x00] : List Byte).length < 2 ∧ ([0x00, 0x00] : List Byte) = putBe16 0x0000 ++ [] ∧
    ([0x00, 0x01, 0xA5] : List Byte) = putBe16 0x0001 ++ [0xA5] ∧ (0x0001 : U16) ≠ 0x0000 := by decide

set_option maxRecDepth 20000 in
/-- VendorHandler: no entry; the second entry; an exception, no bytes, 1, 253 and 254 bytes. -/
theorem witness_VendorHandler :
    (0x41 : Byte) ∉ up.params.vendor ∧ (vendored {}).params.vendor[1]? = some (0x41 : Byte) ∧
    (∀ j < 1, (vendored {}).params.vendor[j]? ≠ some (0x41 : Byte)) ∧
    (∃ x h, hostVendor 1 [0x41] (vendored { exc := 0x07 }).host = (.error x, h)) ∧
    (∃ h, hostVendor 1 [0x41] (vendored {}).host = (.ok [], h)) ∧
    (∃ h, hostVendor 1 [0x41] (vendored { rsp := [0x41] }).host = (.ok [0x41], h)) ∧
    (∃ rsp h, hostVendor 1 [0x41] (vendored { rsp := List.replicate 253 0 }).host = (.ok rsp, h) ∧ rsp.length ≤ 253) ∧
    (∃ rsp h, hostVendor 1 [0x41] (vendored { rsp := List.replicate 254 0 }).host = (.ok rsp, h) ∧ 253 < rsp.length) :=
  ⟨by decide, by decide, by decide, ⟨_, _, rfl⟩, ⟨_, rfl⟩, ⟨_, rfl⟩, ⟨List.replicate 253 0, _, rfl, by simp⟩, ⟨List.replicate 254 0, _, rfl, by simp⟩⟩

set_option maxRecDepth 20000 in
/-- PduServeDispatches, with witness_CrcBlockComputesCrc for the buffers: 254 and 253 bytes, none, a broadcast read, a broadcast
write, and a request that ends each way. -/
theorem witness_PduServeDispatches :
    253 < (254 : U16).toNat ∧ (253 : U16).toNat ≤ 253 ∧ (holding [0x03, 0, 0, 0, 4]).Holds (.host 0) (0x03 :: [0, 0, 0, 4]) ∧
    ([0, 0, 0, 4] : List Byte).length + 1 = (5 : U16).toNat ∧
    (0x03 : Byte) ∈ ([0x01, 0x02, 0x03, 0x04, 0x17] : List Byte) ∧
    (0x05 : Byte) ∉ ([0x01, 0x02, 0x03, 0x04, 0x17] : List Byte) ∧
    resultOf (exec (requestOf 0x03 [0, 0, 0, 4]) ex1) =
      some (.handler (.ok [0x03, 0x08, 0x12, 0x34, 0x56, 0x78, 0x55, 0xAA, 0xAA, 0x55])) ∧
    resultOf (exec (requestOf 0x03 [0, 0, 0, 5]) ex1) = some (.handler (.exc 0x02)) ∧
    resultOf (exec (requestOf 0x41 []) (vendored {})) = some (.handler .noResponse) ∧
    resultOf (exec (requestOf 0x41 []) (vendored { rsp := List.replicate 254 0 })) =
      some (.refused .vendorOverlong) := by decide

/-- ReferenceHostReadsAndWritesTables: a range that ends at the table's end. -/
theorem witness_ReferenceHostReadsAndWritesTables :
    up.host.answers = [] ∧ up.host.Sized up.params ∧ 15 + 1 ≤ (up.params.table .coils).size ∧
    ([0xFFFE] : List U16).length = 1 := by decide

/-- ExceptionCodesPassUnchanged: an exception of the get, the set, the get after a set and the vendor callback, with the log of
the calls that names it. -/
theorem witness_ExceptionCodesPassUnchanged_calls :
    (∃ t h, exec (.readCoils [0, 0, 0, 1]) (answersExc 0x55 up) = .next t ∧
      t.host.calls = (answersExc 0x55 up).host.calls ++ [.get .coils 0 1] ∧
      hostGet .coils 0 1 (answersExc 0x55 up).host = (.error 0x55, h)) ∧
    (∃ t h, exec (.writeSingleCoil [0, 0, 0xFF, 0]) (answersExc 0x55 up) = .next t ∧
      t.host.calls = (answersExc 0x55 up).host.calls ++ [.set .coils 0 1 [1]] ∧
      hostSet .coils 0 1 [1] (answersExc 0x55 up).host = (some 0x55, h)) ∧
    (let s : State := { up with host := { up.host with answers := [{}, { exc := 0x04 }] } }
     ∃ t h h', exec (.readWriteMultipleRegisters [0, 0, 0, 2, 0, 1, 0, 1, 2, 0x12, 0x34]) s = .next t ∧
      t.host.calls = s.host.calls ++ [.set .holdingRegisters 1 1 [0x1234], .get .holdingRegisters 0 2] ∧
      hostSet .holdingRegisters 1 1 [0x1234] s.host = (none, h') ∧ hostGet .holdingRegisters 0 2 h' = (.error 0x04, h)) ∧
    (∃ t h, exec (.vendor 0x41 [0x12]) (vendored { exc := 0x07 }) = .next t ∧
      t.host.calls = (vendored { exc := 0x07 }).host.calls ++ [.vendor 1 [0x41, 0x12]] ∧
      hostVendor 1 [0x41, 0x12] (vendored { exc := 0x07 }).host = (.error 0x07, h)) :=
  ⟨⟨_, _, rfl, rfl, rfl⟩, ⟨_, _, rfl, rfl, rfl⟩, ⟨_, _, _, rfl, rfl, rfl, rfl⟩, ⟨_, _, rfl, rfl, rfl⟩⟩

/-- ExceptionCodesPassUnchanged: the block's own code, and the host's. -/
theorem witness_ExceptionCodesPassUnchanged :
    resultOf (exec (.readCoils []) up) = some (.handler (.exc 0x03)) ∧
    resultOf (exec (.readCoils [0, 0, 0, 1]) (answersExc 0x55 up)) = some (.handler (.exc 0x55)) ∧
    (answersExc 0x55 up).host.answers = { exc := 0x55 } :: [] ∧ family (.readCoils []) = .request := by decide

/-- PduExcEncodes and ExceptionResponseTranslates. -/
theorem witness_PduExcEncodes : (0x81 : Byte).getLsbD 7 = true ∧ (0x05 : Byte) ∉ ([0x01, 0x02, 0x03, 0x04] : List Byte) := by
  decide

/-- BuildReadAndWriteSingle: legal at both bounds, and illegal in each way. -/
theorem witness_BuildReadAndWriteSingle :
    (1 : Byte) ≠ 0 ∧ (1 ≤ (1 : U16).toNat) ∧ (2000 : U16).toNat ≤ 2000 ∧ ¬(2001 : U16).toNat ≤ 2000 ∧
    (125 : U16).toNat ≤ 125 ∧ ¬(126 : U16).toNat ≤ 125 ∧ ¬1 ≤ (0 : U16).toNat ∧
    ¬((0x07 : Byte) = 0x05 ∨ (0x07 : Byte) = 0x06) := by decide

set_option maxRecDepth 20000 in
/-- BuildWriteMulti: as many elements as q asks for, with q one too many and 0. -/
theorem witness_BuildWriteMulti_quantity :
    (124 : U16).toNat ≤ ((up.setData 3 (.words (List.replicate 124 7))).dataWords 3).length ∧ 123 < (124 : U16).toNat ∧
    (1969 : U16).toNat ≤ ((up.setData 3 (.bits (List.replicate 1969 true))).dataBits 3).length ∧ 1968 < (1969 : U16).toNat ∧
    (0 : U16).toNat ≤ (up.dataBits 3).length ∧ (0 : U16).toNat < 1 ∧ (0x07 : Byte) ≠ 0x0F ∧ (0x07 : Byte) ≠ 0x10 :=
  ⟨by simp [State.setData, State.dataWords, up, State.reset, State.resetWith, assocPut, assocGet], by decide,
    by simp [State.setData, State.dataBits, up, State.reset, State.resetWith, assocPut, assocGet], by decide, by decide,
    by decide, by decide, by decide⟩

/-- BuildWriteMulti: q = 1968 and 123, one more, a buffer with q elements and one with fewer. -/
theorem witness_BuildWriteMulti :
    1 ≤ (1968 : U16).toNat ∧ (1968 : U16).toNat ≤ 1968 ∧ ¬(1969 : U16).toNat ≤ 1968 ∧ (123 : U16).toNat ≤ 123 ∧
    (1 : U16).toNat ≤ ((up.setData 3 (.bits [true])).dataBits 3).length ∧
    (up.dataBits 3).length < (1 : U16).toNat ∧ up.dataCount 3 < (1 : U16).toNat ∧
    (1 : U16).toNat ≤ (up.setData 3 (.bits [true])).dataCount 3 ∧ (1 : U16).toNat ≤ (up.setData 3 (.words [7])).dataCount 3 ∧
    (1 : U16).toNat ≤ ((up.setData 3 (.words [7])).dataWords 3).length ∧
    ((up.setData 3 (.bits [true])).dataWords 3).length < (1 : U16).toNat := by decide

/-- BuildLoopbackAndRaw, with witness_CrcBlockComputesCrc and witness_RtuTxEntry_buffers for the buffers. -/
theorem witness_BuildLoopbackAndRaw :
    250 < (251 : U16).toNat ∧ (250 : U16).toNat ≤ 250 ∧ (0 : U16).toNat < 1 ∧ 253 < (254 : U16).toNat ∧
    (253 : U16).toNat ≤ 253 ∧ ([1, 2] : List Byte).length = (2 : U16).toNat := by decide

/-- ParseRspDecodes: a context and a response whose length is more than a buffer of the host can hold, with the other there; one
that may not be read beside one that is short. -/
theorem witness_ParseRspDecodes_capacity :
    up.ShortPdu (.host 0) (254 : U16).toNat ∧ ¬253 < (253 : U16).toNat ∧ (holding [0x03]).HoldsPdu (.host 0) [0x03] ∧
    received.HoldsPdu (.rx 0) [0x03, 0x00, 0x00, 0x00, 0x04] ∧ received.Unreadable (.rx 0) (254 : U16).toNat ∧
    received.ShortPdu (.host 0) (1 : U16).toNat :=
  ⟨.inr ⟨rfl, by decide⟩, by decide, ⟨by decide, fun _ => by decide⟩,
    ⟨.inr ⟨_, rfl, by decide⟩, fun h => Bool.noConfusion h⟩, ⟨_, rfl, by decide⟩, .inl ⟨0, by decide, by decide⟩⟩

/-- ParseRspDecodes: one context and response for each clause, held by two buffers. -/
theorem witness_ParseRspDecodes :
    (let s := (holding [0x01, 0x00, 0x00, 0x00, 0x0A]).setBuffer 1 [0x01, 0x02, 0xCD, 0x03]
     s.HoldsPdu (.host 0) [0x01, 0x00, 0x00, 0x00, 0x0A] ∧ s.HoldsPdu (.host 1) [0x01, 0x02, 0xCD, 0x03]) ∧
    (be16 [0x01, 0x00, 0x00, 0x00, 0x0A] 3).toNat = 10 ∧ ([0x01, 0x02, 0xCD, 0x03] : List Byte).length = 2 + (10 + 7) / 8 ∧
    (([0x01, 0x02, 0xCD, 0x03] : List Byte).getD 1 0).toNat = (10 + 7) / 8 ∧
    ([0x83] : List Byte).head? = some 0x83 ∧ (0x83 : Byte).getLsbD 7 = true ∧ ([0x83] : List Byte).length = 1 ∧
    ([0x83, 0x02] : List Byte)[1]? = some 0x02 ∧ (0x03 : Byte).getLsbD 7 = false ∧ (0x04 : Byte) ≠ 0x03 ∧
    ([0x05, 0x00, 0x03, 0xFF, 0x00] : List Byte).drop 1 = (([0x05, 0x00, 0x03, 0xFF, 0x00] : List Byte).take 5).drop 1 ∧
    ([0x05, 0x00] : List Byte).length < 5 ∧
    (0x41 : Byte) ∉ ([0x01, 0x02, 0x03, 0x04, 0x05, 0x06, 0x08, 0x0F, 0x10] : List Byte) := by decide

/-- AddrSplitSelects: each selector of the rule and one other; the addresses 0 and 1. -/
theorem witness_AddrSplitSelects :
    (0x0000FFFF : U32).extractLsb' 16 16 = (0 : U16) ∧ (0x00010000 : U32).extractLsb' 16 16 = (1 : U16) ∧
    (0x00030001 : U32).extractLsb' 16 16 = (3 : U16) ∧ (0x00040001 : U32).extractLsb' 16 16 = (4 : U16) ∧
    (0x00020001 : U32).extractLsb' 16 16 ∉ ([0, 1, 3, 4] : List U16) ∧
    (0x00040000 : U32).extractLsb' 0 16 = (0 : U16) ∧ (0x00040001 : U32).extractLsb' 0 16 = (1 : U16) := by decide

/-- PackingRoundTrips: a last byte that is full and one with a single bit. -/
theorem witness_PackingRoundTrips : (List.replicate 8 true).length = 8 ∧ (8 + 7) / 8 = 1 ∧ (9 + 7) / 8 = 2 ∧
    pack (List.replicate 9 true) 9 = [0xFF, 0x01] ∧ wordsBe [0x1234] 1 = [0x12, 0x34] := by decide

/-- MasterReadsWhatSlaveHolds: a read to the end of each table, and a master that holds the request and the response. -/
theorem witness_MasterReadsWhatSlaveHolds :
    (1 : Byte) ≠ 0 ∧ ex1.host.answers = [] ∧ 1 ≤ (4 : U16).toNat ∧ (4 : U16).toNat ≤ 125 ∧
    ex1.params.holdingRegisters.hasGet = true ∧ (0 : U16).toNat + (4 : U16).toNat ≤ ex1.params.holdingRegisters.size ∧
    ex1.params.coils.hasGet = true ∧ (12 : U16).toNat + (4 : U16).toNat ≤ ex1.params.coils.size ∧
    (let m := (holding [0x03, 0, 0, 0, 4]).setBuffer 1 [0x03, 0x02, 0x12, 0x34]
     m.Holds (.host 0) (0x03 :: [0, 0, 0, 4]) ∧ m.Holds (.host 1) [0x03, 0x02, 0x12, 0x34]) := by decide

set_option maxRecDepth 20000 in
/-- DecodeOfEncode: a well-formed instruction of each port. -/
theorem witness_DecodeOfEncode : (Instr.pduServe (.rx 0) 5 true).wf = true ∧ (Instr.vendor 0x00 []).wf = true ∧
    (Instr.exceptionResponse 0x7F 0xFF).wf = true ∧ (Instr.rtuAdu 0xFFFF 0x01 [0x81, 0x02] 0x91C1).wf = true := by decide

set_option maxRecDepth 20000 in
/-- StepRunsDecodedInstruction: bytes that decode, nothing pending, and at each port bytes that are no instruction. -/
theorem witness_StepRunsDecodedInstruction :
    ({ up with inputs := [.port .command [0x04]] } : State).inputs = .port .command [0x04] :: [] ∧
    decode .command [0x04] = .ok .crcRead ∧ up.inputs = [] ∧ decode .command [0x01] = .error (.wrongLength 0x01) ∧
    DecodeError.wrongLength 0x01 ≠ .badUse ∧ decode .command [0x28, 0x00, 0x00, 0x00, 0x01, 0x03] = .error .badUse ∧
    decode .request [] = .error .empty ∧ decode .request (List.replicate 254 0x41) = .error .pduTooLong ∧
    decode .response [0x83, 0x02, 0x00] = .error .notExceptionResponse ∧ (0x83 : Byte).getLsbD 7 = true ∧
    decode .response [0x83] = .error .notExceptionResponse ∧ ([0x83] : List Byte).length < 2 ∧
    decode .response [0x03, 0x02] = .error .notExceptionResponse ∧
    (([0x03, 0x02] : List Byte).headD 0).getLsbD 7 = false ∧ decode (.wire 0) [0x01] = .error .notAdu :=
  ⟨rfl, rfl, rfl, rfl, by simp, rfl, rfl, rfl, rfl, rfl, rfl, by decide, rfl, rfl, rfl⟩

/-- ReservedCommandIsRefused: the codes next to those of R68. -/
theorem witness_ReservedCommandIsRefused : ∀ c ∈ ([0x00, 0x05, 0x0F, 0x1A, 0x1F, 0x29, 0xFF] : List Byte),
    c ∉ ([0x01, 0x02, 0x03, 0x04, 0x10, 0x11, 0x12, 0x13, 0x14, 0x15, 0x16, 0x17, 0x18, 0x19, 0x20, 0x21, 0x22, 0x23, 0x24,
      0x25, 0x26, 0x27, 0x28] : List Byte) := by decide

/-- HostReadsOnlyReceivedBytes: the last readable byte, the first unreadable one, a receive in progress, no instance. -/
theorem witness_HostReadsOnlyReceivedBytes :
    (∃ i, received.framers[0]? = some i ∧ i.ReceivedOk ∧ i.op ≠ .rx ∧ i.rxStatus = .ok ∧ 4 < i.rxPduLen ∧ i.rxPduLen ≤ 5) ∧
    (∃ i, waiting.framers[0]? = some i ∧ i.ReceivedOk ∧ i.op = .rx) ∧ up.framers[2]? = none :=
  ⟨⟨_, rfl, by decide⟩, ⟨_, rfl, by decide⟩, rfl⟩

set_option maxRecDepth 20000 in
/-- SlaveCycleSuppressesReplies, its first part: a receive that fails, and one that is `OK` and after which a byte arrives. -/
theorem witness_SlaveCycleSuppressesReplies_head :
    up.running 0 = false ∧
    (∃ e t u, exec (.rtuRx 0 5000) up = .next e ∧
      awaitIdle 0 ([Input.env 0 .rxTimeout].filter (Input.besides 0)) e = (.next t, []) ∧ t.running 0 = false ∧
      runInputs [] t = .next u ∧ t.result = .rxFail 0 .timeout) ∧
    (∃ e t u, exec (.rtuRx 0 5000) up = .next e ∧
      awaitIdle 0 ([Input.port (.wire 0) [0x01, 0x07, 0x41, 0xE2], .env 0 (.byte 0x55)].filter (Input.besides 0)) e =
        (.next t, [.env 0 (.byte 0x55)]) ∧ t.running 0 = false ∧
      runInputs [.env 0 (.byte 0x55)] t = .next u ∧ t.result = .rxOk 0 0x01 [0x07]) :=
  ⟨by decide, ⟨_, _, _, rfl, rfl, by decide, rfl, by decide⟩, ⟨_, _, _, rfl, rfl, by decide, rfl, by decide⟩⟩

/-- SlaveCycleSuppressesReplies: PDU_SERVE of a request, and of a broadcast, and a byte that arrives after it. -/
theorem witness_SlaveCycleSuppressesReplies_serving :
    (∃ s1 s2 j, exec (.pduServe (.rx 0) 5 false) { received with result := .flag false } = .next s1 ∧
      runInputs ([Input.env 0 (.byte 0x55), .port .command [0x11, 0x00, 0x00, 0x09]].filter (Input.whileServing 0)) s1 =
        .next s2 ∧ s2.framers[(0 : U16).toNat]? = some j ∧ j.rxfifo = [0x55] ∧ j.slaveId = 0x09) ∧
    isNext (slaveReply 0 [.env 0 (.byte 0x55)] received) = true ∧
    isNext (exec (.pduServe (.rx 0) 5 true) received) = true :=
  ⟨⟨_, _, _, rfl, rfl, rfl, by decide, by decide⟩, by decide, by decide⟩

/-- SlaveCycleSuppressesReplies: the request of `received` ends with the exception 0x02, and a vendor request without a response. -/
theorem witness_SlaveCycleSuppressesReplies_exception :
    resultOf (exec (requestOf 0x03 [0x00, 0x00, 0x00, 0x04])
      { received with params := { received.params with holdingRegisters := ⟨3, true, true⟩ } }) =
      some (.handler (.exc 0x02)) ∧
    resultOf (exec (requestOf 0x41 []) (vendored {})) = some (.handler .noResponse) := by decide

/-- SlaveCycleSuppressesReplies: a broadcast, a byte that has arrived, and a reply that is sent. -/
theorem witness_SlaveCycleSuppressesReplies :
    (∃ i, received.framers[(0 : U16).toNat]? = some i ∧
      i.readable = 0x03 :: [0x00, 0x00, 0x00, 0x04] ∧ i.rxPduLen = 4 + 1 ∧ i.bcast = false ∧ i.rxfifo = [] ∧ i.op = .none ∧
      i.down = false) ∧
    resultOf (exec (requestOf 0x03 [0x00, 0x00, 0x00, 0x04]) received) =
      some (.handler (.ok [0x03, 0x08, 0, 0, 0, 0, 0, 0, 0, 0])) ∧
    ({ upFramer with bcast := true } : Framer).bcast = true ∧ ({ upFramer with rxfifo := [0x01] } : Framer).rxfifo ≠ [] :=
  ⟨⟨_, rfl, by decide⟩, by decide, rfl, by decide⟩

end Sys2Proof.Tests
end

section
/-! PROOF. The mark REFUSED (00_scope.md R14, 60_exceptions.md R172): one frame relation between a state and the outcome of an
input, kept by every shared operation, hence by every instruction and every input but the reset. -/

namespace Sys2Proof.Machine

@[simp] theorem State.reply_refused (bcast : Bool) (rsp : List Byte) (s : State) :
    (s.reply bcast rsp).refused = s.refused := by
  cases bcast <;> rfl

/-- What an input may do from `s`, as far as the mark REFUSED goes: leave the mark, be refused with nothing else changed, be
refused VENDOR_OVERLONG with the host's state as the callback left it (notes/assumptions/23.md), or fault. It is never without a
meaning (notes/assumptions/7.md). -/
inductive RefusalFrame (s : State) : Out → Prop
  | kept {t : State} (h : t.refused = s.refused) : RefusalFrame s (.next t)
  | refuse {r : Reason} (hr : r ≠ .vendorOverlong) : RefusalFrame s (.next (s.refuse r))
  | overlong (h : HostState) : RefusalFrame s (.next ({ s with host := h }.refuse .vendorOverlong))
  | fault (r : Fault) : RefusalFrame s (.fault r)

namespace RefusalFrame

variable {s : State} {f : List Byte → Out} {g : Framer → Out}

/-! ### The shared operations -/

theorem onFramer {inst : U16} (h : ∀ i, RefusalFrame s (g i)) : RefusalFrame s (onFramer inst s g) := by
  cases hi : s.framers[inst.toNat]? with
  | none => rw [onFramer_none hi]; exact refuse (by decide)
  | some i => rw [onFramer_some hi]; exact h i

theorem onIdle {inst : U16} (h : ∀ i, RefusalFrame s (g i)) : RefusalFrame s (onIdle inst s g) :=
  onFramer fun i => by
    split
    · exact h i
    · exact refuse (by decide)

theorem withBytes {b : BufRef} {n : Nat} (h : ∀ bs, RefusalFrame s (f bs)) : RefusalFrame s (withBytes b n s f) := by
  rcases holds_or_short_or_unreadable b n s with ⟨bs, hl, hb⟩ | hs | hu
  · rw [withBytes_holds hl hb]; exact h bs
  · rw [withBytes_short hs]; exact refuse (by decide)
  · rw [withBytes_unreadable hu]; exact fault _

theorem withPdu {b : BufRef} {n : Nat} (h : ∀ bs, RefusalFrame s (f bs)) : RefusalFrame s (withPdu b n s f) := by
  rcases pdu_holds_or_short_or_unreadable b n s with ⟨bs, hl, hb⟩ | hs | hu
  · rw [withPdu_holds hl hb]; exact h bs
  · rw [withPdu_short hs]; exact refuse (by decide)
  · rw [withPdu_unreadable hu]; exact fault _

theorem unlessShort {b : BufRef} {n : Nat} {o : Out} (h : RefusalFrame s o) : RefusalFrame s (unlessShort b n s o) := by
  by_cases hs : s.Short b n
  · rw [unlessShort_short hs]; exact refuse (by decide)
  · rw [unlessShort_ok hs]; exact h

theorem act (n : Nat) (a : Framer → Option Framer) : RefusalFrame s (.next (s.act n a)) := by
  rcases State.act_cases n a s with h | ⟨_, _, _, _, _, h⟩ <;> exact kept (by rw [h])

/-! ### The answers of the handlers -/

theorem handled {r : Handling} (h : HandlerSpec s.params s.host r) : RefusalFrame s (.next (s.handled r)) := by
  obtain ⟨y, k⟩ := r
  cases y with
  | ok rsp => exact kept rfl
  | exc x => exact kept rfl
  | noResponse => exact kept rfl
  | refuse why => cases h.refuse why rfl; exact overlong k

theorem served {fc : Byte} {bcast : Bool} {r : Handling} (h : HandlerSpec s.params s.host r) :
    RefusalFrame s (.next (s.served fc bcast r)) := by
  obtain ⟨y, k⟩ := r
  cases y with
  | ok rsp => exact kept (State.reply_refused bcast _ { s with host := k })
  | exc x => exact kept (State.reply_refused bcast _ { s with host := k })
  | noResponse => exact kept rfl
  | refuse why => cases h.refuse why rfl; exact overlong k

theorem serve (bcast : Bool) (pdu : List Byte) : RefusalFrame s (.next (s.serve bcast pdu)) := by
  cases pdu with
  | nil => exact kept rfl
  | cons fc body =>
    simp only [State.serve]
    split
    · exact kept rfl
    · exact served .disp

/-! ### The instructions with branches of their own -/

theorem rtuCfgBaud (inst : U16) (b : U32) : RefusalFrame s (execRtuCfgBaud inst b s) :=
  onIdle fun _ => by split <;> exact kept rfl

theorem rtuBringup (inst : U16) : RefusalFrame s (execRtuBringup inst s) :=
  onIdle fun _ => by split <;> exact kept rfl

theorem rtuRx (inst : U16) (tmo : U32) : RefusalFrame s (execRtuRx inst tmo s) :=
  onIdle fun _ => by split <;> exact kept rfl

theorem rtuTx (inst : U16) (unit : Byte) (pdu : BufRef) (len : U16) : RefusalFrame s (execRtuTx inst unit pdu len s) :=
  onIdle fun _ => unlessShort <| by
    split_ifs
    · exact kept rfl
    · exact kept rfl
    · exact withPdu fun _ => kept rfl

theorem pduServe (pdu : BufRef) (len : U16) (bcast : Bool) : RefusalFrame s (execPduServe pdu len bcast s) := by
  simp only [execPduServe]
  split
  · exact refuse (by decide)
  · exact withPdu fun bs => serve bcast bs

theorem pduBuildRead (unit fc : Byte) (a q : U16) : RefusalFrame s (execPduBuildRead unit fc a q s) := by
  simp only [execPduBuildRead]
  split
  · exact kept rfl
  · cases readLimit fc with
    | none => exact kept rfl
    | some qmax => dsimp only; split <;> exact kept rfl

theorem pduBuildWriteSingle (fc : Byte) (a v : U16) : RefusalFrame s (execPduBuildWriteSingle fc a v s) := by
  simp only [execPduBuildWriteSingle]
  split_ifs <;> exact kept rfl

theorem pduBuildWriteMulti (fc : Byte) (a q data : U16) : RefusalFrame s (execPduBuildWriteMulti fc a q data s) := by
  have short : RefusalFrame s (.next (s.refuse .badBuffer)) := refuse (by decide)
  simp only [execPduBuildWriteMulti]
  split_ifs
  · exact short
  · exact kept rfl
  · exact kept rfl
  · exact short
  · exact kept rfl
  · exact kept rfl
  · exact short
  · exact kept rfl

theorem pduBuildLoopback (data : BufRef) (dlen : U16) : RefusalFrame s (execPduBuildLoopback data dlen s) :=
  unlessShort <| by
    split
    · exact kept rfl
    · exact withPdu fun _ => kept rfl

theorem pduBuildRaw (data : BufRef) (dlen : U16) : RefusalFrame s (execPduBuildRaw data dlen s) :=
  unlessShort <| by
    split
    · exact kept rfl
    · exact withPdu fun _ => kept rfl

theorem pduParseRsp (ctx : BufRef) (clen : U16) (rsp : BufRef) (len : U16) :
    RefusalFrame s (execPduParseRsp ctx clen rsp len s) :=
  withPdu fun c => withPdu fun r => by
    cases parseRsp c r with
    | none => exact refuse (by decide)
    | some x => exact kept rfl

theorem addrSplit (addr : U32) (use : AddrUse) : RefusalFrame s (execAddrSplit addr use s) := by
  simp only [execAddrSplit]
  split <;> exact kept rfl

/-! ### Every instruction, and every input but the reset -/

theorem request {i : Instr} (h : family i = .request) : RefusalFrame s (exec i s) := by
  obtain ⟨r, he, hr⟩ := exec_request i s h
  rw [he]; exact handled hr

theorem exec : ∀ i, RefusalFrame s (exec i s)
  | .crcLoad _ | .crcFeed _ | .crcRead => kept rfl
  | .crcBlock _ _ _ => withBytes fun _ => kept rfl
  | .rtuCfgBaud inst b => rtuCfgBaud inst b
  | .rtuCfgSlave _ _ | .rtuShutdown _ => onIdle fun _ => kept rfl
  | .rtuBringup inst => rtuBringup inst
  | .rtuTx inst unit pdu len => rtuTx inst unit pdu len
  | .rtuRx inst tmo => rtuRx inst tmo
  | .rtuIsDown _ | .rtuRxIsBcast _ | .rtuRxAvail _ | .rtuStatus _ => onFramer fun _ => kept rfl
  | .pduServe pdu len bcast => pduServe pdu len bcast
  | .pduExc _ _ | .exceptionResponse _ _ => kept rfl
  | .pduBuildRead unit fc a q => pduBuildRead unit fc a q
  | .pduBuildWriteSingle fc a v => pduBuildWriteSingle fc a v
  | .pduBuildWriteMulti fc a q data => pduBuildWriteMulti fc a q data
  | .pduBuildLoopback data dlen => pduBuildLoopback data dlen
  | .pduBuildRaw data dlen => pduBuildRaw data dlen
  | .pduParseRsp ctx clen rsp len => pduParseRsp ctx clen rsp len
  | .addrSplit addr use => addrSplit addr use
  | .readCoils _ | .readDiscreteInputs _ | .readHoldingRegisters _ | .readInputRegisters _ | .writeSingleCoil _
  | .writeSingleRegister _ | .diagnostics _ | .writeMultipleCoils _ | .writeMultipleRegisters _
  | .readWriteMultipleRegisters _ | .vendor _ _ => request rfl
  | .rtuAdu _ _ _ _ => act _ _

theorem rejectCommand (e : DecodeError) : RefusalFrame s (.next (rejectCommand e s)) := by
  cases e with
  | badUse => exact kept rfl
  | _ => exact refuse (by decide)

theorem reject (p : Port) (bytes : List Byte) (e : DecodeError) : RefusalFrame s (.next (reject p bytes e s)) := by
  cases p with
  | command => exact rejectCommand e
  | request =>
    simp only [Machine.reject]
    split
    · exact kept rfl
    · exact refuse (by decide)
  | response => exact kept rfl
  | wire inst => exact act inst.toNat fun i => some (i.frame s.params bytes)

theorem present (p : Port) (bytes : List Byte) : RefusalFrame s (present p bytes s) := by
  simp only [Machine.present]
  split
  · exact exec _
  · exact reject p bytes _

theorem readRxbuf (inst index : Nat) : RefusalFrame s (readRxbuf inst index s) := by
  simp only [Machine.readRxbuf]
  split
  · exact refuse (by decide)
  · split
    · exact kept rfl
    · exact fault _

theorem runInput {inp : Input} (h : inp ≠ .reset) : RefusalFrame s (runInput inp s) := by
  cases inp with
  | port p bytes => exact present p bytes
  | env inst e => exact act _ _
  | controller inst => exact act _ _
  | readRxbuf inst index => exact readRxbuf inst index
  | setBuffer n bytes => exact kept rfl
  | setData n e => exact kept rfl
  | pokeTables ps => exact kept rfl
  | answer a => exact kept rfl
  | reset => exact absurd rfl h

end RefusalFrame

/-! ### The obligation -/

/-- The states between which the mark appears. -/
theorem RefusalFrame.marked {s t : State} (h : RefusalFrame s (.next t)) (hs : s.refused = false) (ht : t.refused = true) :
    (∃ r, r ≠ .vendorOverlong ∧ t = s.refuse r) ∨ t = { s with host := t.host }.refuse .vendorOverlong := by
  cases h with
  | kept h => rw [h, hs] at ht; cases ht
  | refuse hr => exact .inl ⟨_, hr, rfl⟩
  | overlong k => exact .inr rfl

theorem runInput_ne_refused (inp : Input) (s : State) (r : Refusal) : runInput inp s ≠ .refused r := by
  intro h
  by_cases hi : inp = .reset
  · subst hi; cases h
  · have hf := RefusalFrame.runInput (s := s) hi
    rw [h] at hf; cases hf

theorem step_ne_refused (s : State) (r : Refusal) : step s ≠ .refused r := by
  simp only [step, stepInputs]
  split
  · nofun
  · exact runInput_ne_refused _ _ r

/-- Settles O33: every input but the reset keeps to `RefusalFrame`, whose outcomes with the mark newly set are the two the
statement lists; the reset clears the mark. -/
theorem refusalChangesNothingElse : Obligations.RefusalChangesNothingElse := by
  unfold Obligations.RefusalChangesNothingElse
  refine ⟨fun inp s t hn hs ht => ?_, step_ne_refused⟩
  have hi : inp ≠ .reset := by
    rintro rfl
    cases hn
    cases ht
  have hf := RefusalFrame.runInput (s := s) hi
  rw [hn] at hf
  rcases hf.marked hs ht with ⟨r, hr, rfl⟩ | h
  · exact ⟨r, rfl, fun _ => rfl, fun h => absurd h hr⟩
  · exact ⟨.vendorOverlong, congrArg State.result h, fun hne => absurd rfl hne, fun _ => h⟩

end Sys2Proof.Machine
end

section
/-! PROOF. The frame of every instruction and of every input (10_state.md R35, R47, R48; 60_exceptions.md R183): which part of the
state it may change, and that what it makes of that part keeps the invariant. One effect per family of instructions, one rule
per shared operation, and from them the frame of every input but the reset. -/

namespace Sys2Proof.Machine

/-! ### Outcomes -/

/-- Every next state of the outcome has the property; a fault has none. -/
def Ensures (P : State → Prop) (o : Out) : Prop := ∀ t, o = .next t → P t

namespace Ensures

variable {P : State → Prop} {s t : State} {inst : U16} {b : BufRef} {n : Nat}

theorem next (h : P t) : Ensures P (.next t) := by
  intro u hu; cases hu; exact h

theorem fault (r : Fault) : Ensures P (.fault r) := by
  intro u hu; cases hu

theorem onFramer {g : Framer → Out} (hr : P (s.refuse .badInst))
    (h : ∀ i, s.framers[inst.toNat]? = some i → Ensures P (g i)) : Ensures P (onFramer inst s g) := by
  intro t ht
  rcases onFramer_next ht with rfl | ⟨i, hi, hg⟩
  · exact hr
  · exact h i hi t hg

theorem onIdle {g : Framer → Out} (hr : ∀ r, P (s.refuse r))
    (h : ∀ i, s.framers[inst.toNat]? = some i → i.op = .none → Ensures P (g i)) : Ensures P (onIdle inst s g) := by
  intro t ht
  rcases onIdle_next ht with ⟨r, -, rfl⟩ | ⟨i, hi, ho, hg⟩
  · exact hr r
  · exact h i hi ho t hg

theorem withBytes {f : List Byte → Out} (hr : P (s.refuse .badBuffer)) (h : ∀ bs, Ensures P (f bs)) :
    Ensures P (withBytes b n s f) := by
  intro t ht
  rcases withBytes_next ht with rfl | ⟨bs, -, -, hf⟩
  · exact hr
  · exact h bs t hf

theorem withPdu {f : List Byte → Out} (hr : P (s.refuse .badBuffer)) (h : ∀ bs, Ensures P (f bs)) :
    Ensures P (withPdu b n s f) := by
  intro t ht
  rcases withPdu_next ht with rfl | ⟨bs, -, -, hf⟩
  · exact hr
  · exact h bs t hf

theorem unlessShort {o : Out} (hr : P (s.refuse .badBuffer)) (h : Ensures P o) : Ensures P (unlessShort b n s o) := by
  intro t ht
  rcases unlessShort_next ht with rfl | ho
  · exact hr
  · exact h t ho

end Ensures

/-! ### The effects -/

/-- What may become of the instances `fs`: none of them changes, or the named one does and keeps its invariant. -/
inductive Moves (p : Params) (fs : List Framer) : Option Nat → List Framer → Prop
  | stay {n : Option Nat} : Moves p fs n fs
  | move {n : Nat} {i j : Framer} (hi : fs[n]? = some i) (hj : i.Inv p → j.Inv p) : Moves p fs (some n) (fs.set n j)

/-- A CRC command writes `CRC_ACC` (R35), the result and the mark. -/
inductive CrcEffect (s : State) : State → Prop
  | mk {c : U16} {r : Result} {m : Bool} : CrcEffect s { s with crcAcc := c, result := r, refused := m }

/-- A framer command or a frame on the wire works on its instance, the result and the mark. -/
inductive FramerEffect (s : State) (n : Option Nat) : State → Prop
  | mk {fs : List Framer} {r : Result} {m : Bool} (h : Moves s.params s.framers n fs) :
    FramerEffect s n { s with framers := fs, result := r, refused := m }

/-- A codec command, a request or a response works on the host's buffers, the host, the result and the mark (R48, R154). -/
inductive CodecEffect (s : State) : State → Prop
  | mk {a : Memory} {h : HostState} {r : Result} {m : Bool} (ha : s.mem.wf → a.wf)
    (hh : ∀ p, s.host.Sized p → h.Sized p) : CodecEffect s { s with mem := a, host := h, result := r, refused := m }

/-- The effect of a family of instructions, on instance `n` where it works on one. -/
def Family.Effect (n : Option Nat) (s t : State) : Family → Prop
  | .crc => CrcEffect s t
  | .framer => FramerEffect s n t
  | .codec => CodecEffect s t
  | .request => CodecEffect s t
  | .response => CodecEffect s t
  | .adu => FramerEffect s n t

/-! ### CRC commands and framer commands -/

/-- An instance without a command is not in the drain wait of RTU_TX (R22, R23). -/
theorem Framer.Inv.phase_ne_txWaitDone {p : Params} {i : Framer} (h : i.Inv p) (ho : i.op = .none) :
    i.phase ≠ .txWaitDone := by
  intro hp
  obtain ⟨⟨hop, -⟩, -⟩ := h
  rw [ho, hp] at hop
  cases hop

namespace FramerEffect

variable {s : State}

theorem ret {n : Option Nat} (r : Result) : FramerEffect s n (s.ret r) := mk .stay

theorem refuse {n : Option Nat} (r : Reason) : FramerEffect s n (s.refuse r) := mk .stay

theorem setFramer {n : Nat} {i j : Framer} (hi : s.framers[n]? = some i) (hj : i.Inv s.params → j.Inv s.params) :
    FramerEffect s (some n) (s.setFramer n j) := mk (.move hi hj)

theorem setFramer_ret {n : Nat} {i j : Framer} {r : Result} (hi : s.framers[n]? = some i)
    (hj : i.Inv s.params → j.Inv s.params) : FramerEffect s (some n) ((s.setFramer n j).ret r) := mk (.move hi hj)

theorem act {n : Nat} {f : Framer → Option Framer} (h : ∀ i j, f i = some j → i.Inv s.params → j.Inv s.params) :
    FramerEffect s (some n) (s.act n f) := by
  rcases State.act_cases n f s with hs | ⟨i, j, r, hi, hj, hs⟩
  · rw [hs]; exact mk .stay
  · rw [hs]; exact mk (.move hi (h i j hj))

theorem wireArrival (inst : U16) (bytes : List Byte) : FramerEffect s (some inst.toNat) (s.wireArrival inst bytes) :=
  act fun _ _ hj h => by cases hj; exact Framer.frame_inv h

theorem rtuCfgBaud (inst : U16) (b : U32) :
    Ensures (FramerEffect s (some inst.toNat)) (execRtuCfgBaud inst b s) :=
  .onIdle refuse fun i hi _ => by
    split
    · exact .next (ret _)
    · next hb => exact .next (setFramer_ret hi (Framer.configure_inv · hb))

theorem rtuCfgSlave (inst : U16) (d : Byte) : Ensures (FramerEffect s (some inst.toNat)) (execRtuCfgSlave inst d s) :=
  .onIdle refuse fun _ hi _ => .next (setFramer_ret hi Framer.slaveId_inv)

theorem rtuBringup (inst : U16) : Ensures (FramerEffect s (some inst.toNat)) (execRtuBringup inst s) :=
  .onIdle refuse fun i hi _ => by
    split
    · exact .next (ret _)
    · next hb => exact .next (setFramer_ret hi (Framer.bringup_inv · hb))

theorem rtuShutdown (inst : U16) : Ensures (FramerEffect s (some inst.toNat)) (execRtuShutdown inst s) :=
  .onIdle refuse fun _ hi ho => .next (setFramer_ret hi (Framer.shutdown_inv · ho))

theorem rtuRx (inst : U16) (tmo : U32) : Ensures (FramerEffect s (some inst.toNat)) (execRtuRx inst tmo s) :=
  .onIdle refuse fun i hi ho => by
    split
    · exact .next (setFramer_ret hi fun h => Framer.rxComplete_inv h (by decide) (h.phase_ne_txWaitDone ho))
    · next hd => exact .next (setFramer hi fun h => Framer.rxEnter_inv h ho (eq_false_of_ne_true hd))

theorem rtuTx (inst : U16) (unit : Byte) (pdu : BufRef) (len : U16) :
    Ensures (FramerEffect s (some inst.toNat)) (execRtuTx inst unit pdu len s) :=
  .onIdle refuse fun i hi ho => .unlessShort (refuse _) <| by
    split_ifs with _ hd
    · exact .next (setFramer_ret hi Framer.txStatus_inv)
    · exact .next (setFramer_ret hi Framer.txStatus_inv)
    · exact .withPdu (refuse _) fun bs =>
        .next (setFramer hi fun h => Framer.txEnter_inv h ho (eq_false_of_ne_true hd))

/-- The commands that only look at their instance. -/
theorem query {inst : U16} (f : Framer → Result) :
    Ensures (FramerEffect s (some inst.toNat)) (onFramer inst s fun i => .next (s.ret (f i))) :=
  .onFramer (refuse _) fun _ _ => .next (ret _)

end FramerEffect

/-! ### Codec commands, requests and responses -/

namespace CodecEffect

variable {s t : State}

theorem ret (r : Result) : CodecEffect s (s.ret r) := mk id fun _ h => h

theorem refuse (r : Reason) : CodecEffect s (s.refuse r) := mk id fun _ h => h

/-- Bytes written into the response buffer. -/
theorem respond (bs : List Byte) (r : Result) : CodecEffect s ((s.respond bs).ret r) :=
  mk (Memory.writes_wf _ _ bs) fun _ h => h

/-- A capability call brings the host to `k`, and the codec goes on from there. -/
theorem after_host {k : HostState} (hk : ∀ p, s.host.Sized p → k.Sized p) (h : CodecEffect { s with host := k } t) :
    CodecEffect s t := by
  cases h with
  | mk ha hh => exact mk ha fun p hs => hh p (hk p hs)

theorem handled {r : Handling} (h : HandlerSpec s.params s.host r) : CodecEffect s (s.handled r) := by
  obtain ⟨y, k⟩ := r
  refine after_host h.sized ?_
  cases y with
  | ok rsp => exact respond rsp _
  | exc x => exact ret _
  | noResponse => exact ret _
  | refuse why => exact refuse why

theorem reply (bcast : Bool) (rsp : List Byte) : CodecEffect s (s.reply bcast rsp) := by
  cases bcast with
  | false => exact respond rsp _
  | true => exact ret _

theorem served {fc : Byte} {bcast : Bool} {r : Handling} (h : HandlerSpec s.params s.host r) :
    CodecEffect s (s.served fc bcast r) := by
  obtain ⟨y, k⟩ := r
  refine after_host h.sized ?_
  cases y with
  | ok rsp => exact reply bcast rsp
  | exc x => exact reply bcast _
  | noResponse => exact ret _
  | refuse why => exact refuse why

theorem serve (bcast : Bool) (pdu : List Byte) : CodecEffect s (s.serve bcast pdu) := by
  cases pdu with
  | nil => exact ret _
  | cons fc body =>
    simp only [State.serve]
    split
    · exact ret _
    · exact served .disp

theorem pduServe (pdu : BufRef) (len : U16) (bcast : Bool) : Ensures (CodecEffect s) (execPduServe pdu len bcast s) := by
  simp only [execPduServe]
  split
  · exact .next (refuse _)
  · exact .withPdu (refuse _) fun bs => .next (serve bcast bs)

theorem notBuilt : Ensures (CodecEffect s) (.next s.notBuilt) := .next (ret _)

theorem built (req : List Byte) : Ensures (CodecEffect s) (.next (s.built req)) := .next (respond req _)

theorem pduBuildRead (unit fc : Byte) (a q : U16) : Ensures (CodecEffect s) (execPduBuildRead unit fc a q s) := by
  simp only [execPduBuildRead]
  split
  · exact notBuilt
  · cases readLimit fc with
    | none => exact notBuilt
    | some qmax =>
      dsimp only
      split
      · exact notBuilt
      · exact built _

theorem pduBuildWriteSingle (fc : Byte) (a v : U16) : Ensures (CodecEffect s) (execPduBuildWriteSingle fc a v s) := by
  simp only [execPduBuildWriteSingle]
  split_ifs
  · exact notBuilt
  · exact notBuilt
  · exact built _

theorem pduBuildWriteMulti (fc : Byte) (a q data : U16) :
    Ensures (CodecEffect s) (execPduBuildWriteMulti fc a q data s) := by
  have short : Ensures (CodecEffect s) (.next (s.refuse .badBuffer)) := .next (refuse _)
  simp only [execPduBuildWriteMulti]
  split_ifs
  · exact short
  · exact notBuilt
  · exact built _
  · exact short
  · exact notBuilt
  · exact built _
  · exact short
  · exact notBuilt

theorem pduBuildLoopback (data : BufRef) (dlen : U16) : Ensures (CodecEffect s) (execPduBuildLoopback data dlen s) :=
  .unlessShort (refuse _) <| by
    split
    · exact notBuilt
    · exact .withPdu (refuse _) fun _ => built _

theorem pduBuildRaw (data : BufRef) (dlen : U16) : Ensures (CodecEffect s) (execPduBuildRaw data dlen s) :=
  .unlessShort (refuse _) <| by
    split
    · exact notBuilt
    · exact .withPdu (refuse _) built

theorem pduParseRsp (ctx : BufRef) (clen : U16) (rsp : BufRef) (len : U16) :
    Ensures (CodecEffect s) (execPduParseRsp ctx clen rsp len s) :=
  .withPdu (refuse _) fun c => .withPdu (refuse _) fun r => by
    cases parseRsp c r with
    | none => exact .next (refuse _)
    | some x => exact .next (ret _)

theorem addrSplit (addr : U32) (use : AddrUse) : Ensures (CodecEffect s) (execAddrSplit addr use s) := by
  simp only [execAddrSplit]
  split
  · exact .next (ret _)
  · exact .next (ret _)

theorem request {i : Instr} (h : family i = .request) : Ensures (CodecEffect s) (exec i s) := by
  obtain ⟨r, he, hr⟩ := exec_request i s h
  rw [he]
  exact .next (handled hr)

end CodecEffect

/-! ### Every instruction -/

/-- Every instruction has the effect of its family, on its own instance where it works on one. -/
theorem exec_effect (s : State) : ∀ i, Ensures ((family i).Effect (target i) s) (exec i s)
  | .crcLoad _ | .crcFeed _ | .crcRead => .next .mk
  | .crcBlock _ _ _ => .withBytes (P := CrcEffect s) .mk fun _ => .next .mk
  | .rtuCfgBaud inst b => FramerEffect.rtuCfgBaud inst b
  | .rtuCfgSlave inst d => FramerEffect.rtuCfgSlave inst d
  | .rtuBringup inst => FramerEffect.rtuBringup inst
  | .rtuShutdown inst => FramerEffect.rtuShutdown inst
  | .rtuTx inst unit pdu len => FramerEffect.rtuTx inst unit pdu len
  | .rtuRx inst tmo => FramerEffect.rtuRx inst tmo
  | .rtuIsDown _ | .rtuRxIsBcast _ | .rtuRxAvail _ | .rtuStatus _ => FramerEffect.query _
  | .pduServe pdu len bcast => CodecEffect.pduServe pdu len bcast
  | .pduExc _ _ | .exceptionResponse _ _ => .next (CodecEffect.respond _ _)
  | .pduBuildRead unit fc a q => CodecEffect.pduBuildRead unit fc a q
  | .pduBuildWriteSingle fc a v => CodecEffect.pduBuildWriteSingle fc a v
  | .pduBuildWriteMulti fc a q data => CodecEffect.pduBuildWriteMulti fc a q data
  | .pduBuildLoopback data dlen => CodecEffect.pduBuildLoopback data dlen
  | .pduBuildRaw data dlen => CodecEffect.pduBuildRaw data dlen
  | .pduParseRsp ctx clen rsp len => CodecEffect.pduParseRsp ctx clen rsp len
  | .addrSplit addr use => CodecEffect.addrSplit addr use
  | .readCoils _ | .readDiscreteInputs _ | .readHoldingRegisters _ | .readInputRegisters _ | .writeSingleCoil _
  | .writeSingleRegister _ | .diagnostics _ | .writeMultipleCoils _ | .writeMultipleRegisters _
  | .readWriteMultipleRegisters _ | .vendor _ _ => CodecEffect.request rfl
  | .rtuAdu inst _ _ _ => .next (FramerEffect.wireArrival inst _)

/-- Settles O6: every instruction has the effect of its family (`exec_effect`), and each effect is the frame stated. -/
theorem eachFamilyChangesOnlyItsOwnState : Obligations.EachFamilyChangesOnlyItsOwnState := by
  unfold Obligations.EachFamilyChangesOnlyItsOwnState
  intro i s t hn
  have he := exec_effect s i t hn
  refine ⟨fun hf => ?_, fun hf => ?_, fun hf => ?_⟩
  · rw [hf] at he
    cases he with
    | mk => rfl
  · have he : FramerEffect s (target i) t := by rcases hf with hf | hf <;> (rw [hf] at he; exact he)
    cases he with
    | mk => rfl
  · have he : CodecEffect s t := by rcases hf with hf | hf | hf <;> (rw [hf] at he; exact he)
    cases he with
    | mk => rfl

/-! ### Every input but the reset -/

/-- What an input other than the reset leaves of the state, as far as the instances and the invariant go: the parameters,
the instances it does not work on, the canonical form of the host's stores and the sizes of its tables. -/
structure InputFrame (n : Option Nat) (s t : State) : Prop where
  params : t.params = s.params
  framers : Moves s.params s.framers n t.framers
  mem : s.mem.wf → t.mem.wf
  data : assocWf s.data → assocWf t.data
  host : ∀ p, s.host.Sized p → t.host.Sized p

theorem FramerEffect.inputFrame {s t : State} {n : Option Nat} (h : FramerEffect s n t) : InputFrame n s t := by
  cases h with
  | mk hf => exact ⟨rfl, hf, id, id, fun _ h => h⟩

theorem CodecEffect.inputFrame {s t : State} {n : Option Nat} (h : CodecEffect s t) : InputFrame n s t := by
  cases h with
  | mk ha hh => exact ⟨rfl, .stay, ha, id, hh⟩

theorem CrcEffect.inputFrame {s t : State} {n : Option Nat} (h : CrcEffect s t) : InputFrame n s t := by
  cases h with
  | mk => exact ⟨rfl, .stay, id, id, fun _ h => h⟩

theorem Family.Effect.inputFrame {s t : State} {n : Option Nat} {f : Family} (h : f.Effect n s t) : InputFrame n s t := by
  cases f with
  | crc => exact CrcEffect.inputFrame h
  | framer => exact FramerEffect.inputFrame h
  | codec => exact CodecEffect.inputFrame h
  | request => exact CodecEffect.inputFrame h
  | response => exact CodecEffect.inputFrame h
  | adu => exact FramerEffect.inputFrame h

/-- What arrives on the wire of an instance is decoded to a frame of that instance. -/
theorem target_of_decodeAdu {inst : U16} {bytes : List Byte} {i : Instr} (h : decodeAdu inst bytes = .ok i) :
    target i = some inst.toNat := by
  cases bytes with
  | nil => cases h
  | cons unit rest =>
    simp only [decodeAdu] at h
    split at h
    · cases h; rfl
    · cases h

/-- Bytes at a port work on the instance of the instruction they decode to. -/
theorem Input.target_port {p : Port} {bytes : List Byte} {i : Instr} (h : decode p bytes = .ok i) :
    (Input.port p bytes).target = Machine.target i := by
  cases p with
  | wire inst => exact (target_of_decodeAdu h).symm
  | command => simp only [Input.target, h]
  | request => simp only [Input.target, h]
  | response => simp only [Input.target, h]

namespace InputFrame

variable {s : State}

theorem reject (p : Port) (bytes : List Byte) (e : DecodeError) :
    InputFrame (Input.port p bytes).target s (reject p bytes e s) := by
  rcases reject_cases p bytes e s with ⟨r, h⟩ | ⟨r, -, h⟩ | ⟨inst, rfl, h⟩
  · rw [h]; exact (FramerEffect.refuse r).inputFrame
  · rw [h]; exact (FramerEffect.ret r).inputFrame
  · rw [h]; exact (FramerEffect.wireArrival inst bytes).inputFrame

theorem present (p : Port) (bytes : List Byte) :
    Ensures (InputFrame (Input.port p bytes).target s) (present p bytes s) := by
  intro t ht
  rcases present_next ht with ⟨i, hd, he⟩ | ⟨e, -, rfl⟩
  · rw [Input.target_port hd]
    exact (exec_effect s i t he).inputFrame
  · exact reject p bytes e

theorem readRxbuf (n : Option Nat) (inst index : Nat) : Ensures (InputFrame n s) (readRxbuf inst index s) := by
  simp only [Machine.readRxbuf]
  split
  · exact .next (FramerEffect.refuse _).inputFrame
  · split
    · exact .next (FramerEffect.ret _).inputFrame
    · exact .fault _

theorem runInput {inp : Input} (h : inp ≠ .reset) : Ensures (InputFrame inp.target s) (runInput inp s) := by
  cases inp with
  | port p bytes => exact present p bytes
  | env inst e => exact .next (FramerEffect.act fun _ _ hj h => Framer.event_inv h hj).inputFrame
  | controller inst => exact .next (FramerEffect.act fun _ _ hj h => Framer.control_inv h hj).inputFrame
  | readRxbuf inst index => exact readRxbuf _ inst index
  | setBuffer n bytes =>
    exact .next ⟨rfl, .stay, fun h => Memory.writes_wf _ _ _ (Memory.drop_wf _ n h), id, fun _ h => h⟩
  | setData n e => exact .next ⟨rfl, .stay, id, assocPut_wf _ e _, fun _ h => h⟩
  | pokeTables ps => exact .next ⟨rfl, .stay, id, id, fun _ h => HostState.pokes_sized h⟩
  | answer a => exact .next ⟨rfl, .stay, id, id, fun _ h => h⟩
  | reset => exact absurd rfl h

end InputFrame

/-! ### Instances share nothing -/

theorem Moves.other {p : Params} {fs gs : List Framer} {n : Option Nat} {m : Nat} (h : Moves p fs n gs)
    (hm : n ≠ some m) : gs[m]? = fs[m]? := by
  cases h with
  | stay => rfl
  | move hi hj => exact List.getElem?_set_ne fun hn => hm (congrArg some hn)

/-- What an action does to its instance depends on nothing but that instance. -/
theorem State.act_getElem? (n : Nat) (f : Framer → Option Framer) (s : State) :
    (s.act n f).framers[n]? = s.framers[n]?.map fun i => (f i).getD i := by
  cases hi : s.framers[n]? with
  | none => rw [State.act_none hi, hi]; rfl
  | some i =>
    rw [State.act_some hi]
    cases hf : f i with
    | none => simp only [hi, hf, Option.map_some, Option.getD_none]
    | some j =>
      obtain ⟨r, hr⟩ := State.moved_eq n i j s
      simp only [hr, hf, Option.map_some, Option.getD_some]
      exact State.setFramer_same hi

/-- Settles O31: the frame of every input but the reset moves its own instance only, and an action of an instance is a
function of that instance and the parameters (`State.act_getElem?`). -/
theorem instancesShareNothing : Obligations.InstancesShareNothing := by
  unfold Obligations.InstancesShareNothing
  refine ⟨fun inp s t m hn hr hm => (InputFrame.runInput hr t hn).framers.other hm, ?_⟩
  intro inp s s' t t' n hi hp hs ht ht'
  rcases hi with rfl | ⟨e, rfl⟩
  · cases ht; cases ht'
    rw [State.act_getElem?, State.act_getElem?, hp, hs]
  · cases ht; cases ht'
    rw [State.act_getElem?, State.act_getElem?, hs]

end Sys2Proof.Machine
end

section
/-! PROOF. The invariant of the machine and the mark REFUSED along every step (10_state.md R46), the reset (R45;
70_reset_and_hazards.md R185), and what the host may read of `RXBUF` (R46; 60_exceptions.md R173). -/

namespace Sys2Proof.Machine

/-! ### Every step keeps the invariant -/

theorem Moves.inv {p : Params} {fs gs : List Framer} {n : Option Nat} (h : Moves p fs n gs) (hf : ∀ i ∈ fs, i.Inv p) :
    ∀ i ∈ gs, i.Inv p := by
  cases h with
  | stay => exact hf
  | move hi hj =>
    intro k hk
    rcases List.mem_or_eq_of_mem_set hk with hk | rfl
    · exact hf k hk
    · exact hj (hf _ (List.mem_of_getElem? hi))

theorem Moves.ne_nil {p : Params} {fs gs : List Framer} {n : Option Nat} (h : Moves p fs n gs) (hf : fs ≠ []) :
    gs ≠ [] := by
  cases h with
  | stay => exact hf
  | move hi hj => simpa using hf

theorem InputFrame.inv {s t : State} {n : Option Nat} (h : InputFrame n s t) (hs : s.Inv) : t.Inv := by
  obtain ⟨hp, hf, hm, hd, hh⟩ := h
  obtain ⟨framers, mem, data, host, params, nonempty⟩ := hs
  rw [State.Inv, hp]
  exact ⟨hf.inv framers, hm mem, hd data, hh _ host, params, hf.ne_nil nonempty⟩

/-- An instance after reset has the invariant, whatever the parameters. -/
theorem Framer.reset_inv (p : Params) : Framer.reset.Inv p := by
  refine ⟨by decide, by decide, by decide, by decide, by decide, ?_⟩
  exact ⟨(Bool.and_false _).symm, fun _ => rfl, nofun, nofun⟩

theorem State.resetBlock_inv {s : State} (h : s.Inv) : s.resetBlock.Inv := by
  obtain ⟨-, mem, data, host, params, nonempty⟩ := h
  refine ⟨fun i hi => ?_, mem, data, host, params, ?_⟩
  · rw [List.eq_of_mem_replicate hi]
    exact Framer.reset_inv _
  · simpa [State.resetBlock, State.resetWith] using nonempty

theorem runInput_inv {s : State} (h : s.Inv) (inp : Input) : Ensures State.Inv (runInput inp s) := by
  by_cases hi : inp = .reset
  · subst hi
    exact .next (State.resetBlock_inv h)
  · exact fun t ht => (InputFrame.runInput hi t ht).inv h

/-- A step waits, or performs the oldest pending input. -/
theorem step_next {s t : State} (h : step s = .next t) :
    t = s ∨ ∃ inp rest, s.inputs = inp :: rest ∧ runInput inp { s with inputs := rest } = .next t := by
  simp only [step, stepInputs] at h
  split at h
  · cases h; exact .inl rfl
  · next inp rest hi => exact .inr ⟨inp, rest, hi, h⟩

/-- Settles O29: the reset gives the invariant, and every other input keeps the stores canonical and moves one instance, by an
operation that keeps the instance's invariant (`InputFrame.runInput`). -/
theorem stepKeepsInvariant : Obligations.StepKeepsInvariant := by
  unfold Obligations.StepKeepsInvariant
  intro s t hs hn
  rcases step_next hn with rfl | ⟨inp, rest, -, h⟩
  · exact hs
  · exact runInput_inv (s := { s with inputs := rest }) hs inp t h

/-! ### The mark REFUSED -/

theorem RefusalFrame.refused {s t : State} (h : RefusalFrame s (.next t)) (hs : s.refused = true) : t.refused = true := by
  cases h with
  | kept h => exact h.trans hs
  | refuse _ => rfl
  | overlong _ => rfl

/-- Settles O32: every input but the reset keeps to `RefusalFrame`, none of whose outcomes clears the mark. -/
theorem refusedMarkStays : Obligations.RefusedMarkStays := by
  unfold Obligations.RefusedMarkStays
  intro s t hn hs hr
  rcases step_next hn with rfl | ⟨inp, rest, hi, h⟩
  · exact hs
  · have hinp : inp ≠ .reset := by rintro rfl; exact hr rest hi
    have hf := RefusalFrame.runInput (s := { s with inputs := rest }) hinp
    rw [h] at hf
    exact hf.refused hs

/-! ### The reset -/

/-- Settles O26: every instance of the block after reset is `Framer.reset`, which has the values of R45's table. -/
theorem resetGivesEveryRegisterItsValue : Obligations.ResetGivesEveryRegisterItsValue := by
  unfold Obligations.ResetGivesEveryRegisterItsValue
  intro s
  refine ⟨s.resetBlock, rfl, rfl, rfl, rfl, rfl, List.length_replicate, fun i hi => ?_⟩
  rw [List.eq_of_mem_replicate hi]
  decide

/-- Settles O28: the host's stores are empty and its tables of the configured sizes, and every instance is `Framer.reset`. -/
theorem resetHasInvariant : Obligations.ResetHasInvariant := by
  unfold Obligations.ResetHasInvariant
  refine ⟨fun i hi => ?_, Memory.nil_wf, List.Pairwise.nil, ?_, by decide, by decide⟩
  · rw [List.eq_of_mem_replicate hi]
    exact Framer.reset_inv _
  · exact ⟨List.length_replicate, List.length_replicate, List.length_replicate, List.length_replicate⟩

/-! ### The host's read of `RXBUF` -/

/-- What may be read of `RXBUF` (R46). -/
theorem Framer.readable_getElem? (i : Framer) (k : Nat) :
    i.readable[k]? = if i.op ≠ .rx ∧ i.rxStatus = .ok ∧ k < i.rxPduLen then i.rxbuf[k]? else none := by
  simp only [Framer.readable]
  by_cases hr : i.op ≠ .rx ∧ i.rxStatus = .ok
  · rw [if_pos hr, List.getElem?_take]
    simp only [hr.1, hr.2, not_false_eq_true, true_and, ne_eq]
  · rw [if_neg hr, if_neg fun h => hr ⟨h.1, h.2.1⟩]
    rfl

theorem readRxbuf_none {s : State} {n : Nat} (k : Nat) (h : s.framers[n]? = none) :
    readRxbuf n k s = .next (s.refuse .badInst) := by simp only [readRxbuf, h]

theorem readRxbuf_some {s : State} {n k : Nat} {i : Framer} {b : Byte} (h : s.framers[n]? = some i)
    (hb : i.readable[k]? = some b) : readRxbuf n k s = .next (s.ret (.byte b)) := by simp only [readRxbuf, h, hb]

theorem readRxbuf_unwritten {s : State} {n k : Nat} {i : Framer} (h : s.framers[n]? = some i)
    (hb : i.readable[k]? = none) : readRxbuf n k s = .fault .readUnwritten := by simp only [readRxbuf, h, hb]

/-- Settles O59: after an `OK` completion `RXBUF` holds two bytes more than `RX_PDU_LEN` (`ReceivedOk`), so every byte below it is
there to read, and no other byte is readable. -/
theorem hostReadsOnlyReceivedBytes : Obligations.HostReadsOnlyReceivedBytes := by
  unfold Obligations.HostReadsOnlyReceivedBytes
  refine fun s n k => ⟨fun i hi hrec => ⟨fun hop hst hk => ?_, fun h => ?_⟩, readRxbuf_none k⟩
  · obtain ⟨-, -, hlen, -⟩ := hrec
    have hlen := hlen hop (Nat.ne_zero_of_lt hk)
    have hb : i.rxbuf[k]? = some i.rxbuf[k] := List.getElem?_eq_getElem (by omega)
    refine ⟨_, hb, readRxbuf_some hi ?_⟩
    rw [Framer.readable_getElem?, if_pos ⟨hop, hst, hk⟩, hb]
  · refine readRxbuf_unwritten hi ?_
    rw [Framer.readable_getElem?, if_neg]
    rintro ⟨hop, hst, hk⟩
    rcases h with h | h | h
    · exact hop h
    · exact h hst
    · omega

end Sys2Proof.Machine
end

section
/-! PROOF. What an instruction leaves in the host's buffers (20_memory.md R49; 10_state.md R37): every codec command, request
and response stores the bytes of its result in the response buffer, and no other instruction writes memory. -/

namespace Sys2Proof.Machine

/-- The memory of `t` is that of `s` with the bytes of `t`'s result written into the response buffer. -/
def StoresResult (s t : State) : Prop := t.mem = s.mem.writes (bufAddr responseBuffer 0) (storedBytes t.result)

namespace StoresResult

variable {s : State}

theorem read {t : State} (h : StoresResult s t) (k : Nat) :
    t.mem.read k =
      if bufAddr responseBuffer 0 ≤ k ∧ k < bufAddr responseBuffer 0 + (storedBytes t.result).length
      then (storedBytes t.result)[k - bufAddr responseBuffer 0]? else s.mem.read k := by
  rw [h, Memory.read_writes]

theorem refuse (r : Reason) : StoresResult s (s.refuse r) := rfl

theorem ret {r : Result} (h : storedBytes r = []) : StoresResult s (s.ret r) := by
  rw [StoresResult, State.ret_result, h]; rfl

theorem respond {bs : List Byte} {r : Result} (h : storedBytes r = bs) : StoresResult s ((s.respond bs).ret r) := by
  rw [StoresResult, State.ret_result, h]; rfl

/-! ### The answers of the handlers -/

theorem handled (r : Handling) : StoresResult s (s.handled r) := by
  obtain ⟨y, k⟩ := r
  cases y with
  | ok rsp => exact respond (s := { s with host := k }) rfl
  | exc x => exact ret (s := { s with host := k }) rfl
  | noResponse => exact ret (s := { s with host := k }) rfl
  | refuse why => exact refuse (s := { s with host := k }) why

theorem reply (bcast : Bool) (rsp : List Byte) : StoresResult s (s.reply bcast rsp) := by
  cases bcast with
  | false => exact respond rfl
  | true => exact ret rfl

theorem served (fc : Byte) (bcast : Bool) (r : Handling) : StoresResult s (s.served fc bcast r) := by
  obtain ⟨y, k⟩ := r
  cases y with
  | ok rsp => exact reply (s := { s with host := k }) bcast rsp
  | exc x => exact reply (s := { s with host := k }) bcast _
  | noResponse => exact ret (s := { s with host := k }) rfl
  | refuse why => exact refuse (s := { s with host := k }) why

theorem serve (bcast : Bool) (pdu : List Byte) : StoresResult s (s.serve bcast pdu) := by
  cases pdu with
  | nil => exact ret rfl
  | cons fc body =>
    simp only [State.serve]
    split
    · exact ret rfl
    · exact served fc bcast _

/-! ### The codec commands -/

theorem notBuilt : Ensures (StoresResult s) (.next s.notBuilt) := .next (ret rfl)

theorem built (req : List Byte) : Ensures (StoresResult s) (.next (s.built req)) := .next (respond rfl)

theorem pduServe (pdu : BufRef) (len : U16) (bcast : Bool) : Ensures (StoresResult s) (execPduServe pdu len bcast s) := by
  simp only [execPduServe]
  split
  · exact .next (refuse _)
  · exact .withPdu (refuse _) fun bs => .next (serve bcast bs)

theorem pduBuildRead (unit fc : Byte) (a q : U16) : Ensures (StoresResult s) (execPduBuildRead unit fc a q s) := by
  simp only [execPduBuildRead]
  split
  · exact notBuilt
  · cases readLimit fc with
    | none => exact notBuilt
    | some qmax =>
      dsimp only
      split
      · exact notBuilt
      · exact built _

theorem pduBuildWriteSingle (fc : Byte) (a v : U16) : Ensures (StoresResult s) (execPduBuildWriteSingle fc a v s) := by
  simp only [execPduBuildWriteSingle]
  split_ifs
  · exact notBuilt
  · exact notBuilt
  · exact built _

theorem pduBuildWriteMulti (fc : Byte) (a q data : U16) :
    Ensures (StoresResult s) (execPduBuildWriteMulti fc a q data s) := by
  have short : Ensures (StoresResult s) (.next (s.refuse .badBuffer)) := .next (refuse _)
  simp only [execPduBuildWriteMulti]
  split_ifs
  · exact short
  · exact notBuilt
  · exact built _
  · exact short
  · exact notBuilt
  · exact built _
  · exact short
  · exact notBuilt

theorem pduBuildLoopback (data : BufRef) (dlen : U16) : Ensures (StoresResult s) (execPduBuildLoopback data dlen s) :=
  .unlessShort (refuse _) <| by
    split
    · exact notBuilt
    · exact .withPdu (refuse _) fun _ => built _

theorem pduBuildRaw (data : BufRef) (dlen : U16) : Ensures (StoresResult s) (execPduBuildRaw data dlen s) :=
  .unlessShort (refuse _) <| by
    split
    · exact notBuilt
    · exact .withPdu (refuse _) built

theorem pduParseRsp (ctx : BufRef) (clen : U16) (rsp : BufRef) (len : U16) :
    Ensures (StoresResult s) (execPduParseRsp ctx clen rsp len s) :=
  .withPdu (refuse _) fun c => .withPdu (refuse _) fun r => by
    cases parseRsp c r with
    | none => exact .next (refuse _)
    | some x => exact .next (ret rfl)

theorem addrSplit (addr : U32) (use : AddrUse) : Ensures (StoresResult s) (execAddrSplit addr use s) := by
  simp only [execAddrSplit]
  split
  · exact .next (ret rfl)
  · exact .next (ret rfl)

/-! ### The instructions, family by family -/

theorem codec {i : Instr} (h : family i = .codec) : Ensures (StoresResult s) (exec i s) := by
  cases i with
  | pduServe pdu len bcast => exact pduServe pdu len bcast
  | pduExc fc x => exact .next (respond rfl)
  | pduBuildRead unit fc a q => exact pduBuildRead unit fc a q
  | pduBuildWriteSingle fc a v => exact pduBuildWriteSingle fc a v
  | pduBuildWriteMulti fc a q data => exact pduBuildWriteMulti fc a q data
  | pduBuildLoopback data dlen => exact pduBuildLoopback data dlen
  | pduBuildRaw data dlen => exact pduBuildRaw data dlen
  | pduParseRsp ctx clen rsp len => exact pduParseRsp ctx clen rsp len
  | addrSplit addr use => exact addrSplit addr use
  | _ => cases h

theorem request {i : Instr} (h : family i = .request) : Ensures (StoresResult s) (exec i s) := by
  obtain ⟨r, he, -⟩ := exec_request i s h
  rw [he]
  exact .next (handled r)

theorem response {i : Instr} (h : family i = .response) : Ensures (StoresResult s) (exec i s) := by
  cases i with
  | exceptionResponse fc x => exact .next (respond rfl)
  | _ => cases h

end StoresResult

theorem CrcEffect.mem {s t : State} (h : CrcEffect s t) : t.mem = s.mem := by
  cases h with
  | mk => rfl

theorem FramerEffect.mem {s t : State} {n : Option Nat} (h : FramerEffect s n t) : t.mem = s.mem := by
  cases h with
  | mk => rfl

/-- CRC commands, framer commands and frames on the wire have no effect on memory. -/
theorem exec_mem {i : Instr} {s t : State} (hn : exec i s = .next t)
    (hf : family i = .crc ∨ family i = .framer ∨ family i = .adu) : t.mem = s.mem := by
  have he := exec_effect s i t hn
  rcases hf with hf | hf | hf <;> rw [hf] at he
  · exact CrcEffect.mem he
  · exact FramerEffect.mem he
  · exact FramerEffect.mem he

/-- Settles O54: the effects of the CRC and framer families leave memory (`exec_mem`); every other instruction writes its result's
bytes, none for a result without bytes, into the response buffer (`StoresResult`). -/
theorem memoryFrame : Obligations.MemoryFrame := by
  unfold Obligations.MemoryFrame
  intro i s t hn
  refine ⟨fun hf k => by rw [exec_mem hn hf], fun hf => ?_⟩
  rcases hf with hf | hf | hf
  · exact (StoresResult.codec hf t hn).read
  · exact (StoresResult.request hf t hn).read
  · exact (StoresResult.response hf t hn).read

end Sys2Proof.Machine
end

section
/-! PROOF. The decoder undoes the encoder at every port (30_encoding.md R67 to R84), and the step: the instruction that stands
at a port, bytes that are none, and nothing pending (20_memory.md R60; 70_reset_and_hazards.md R185). -/

namespace Sys2Proof

/-! ### Decoding what was encoded -/

theorem withRef_some {k h l : Byte} {r : BufRef} {f : BufRef → Except DecodeError Instr} (hr : getRef k h l = some r) :
    withRef k h l f = f r := by
  simp only [withRef, hr]

theorem decodeRequest_fits (fc : Byte) {body : List Byte} (h : bodyFits body = true) :
    decodeRequest (fc :: body) = .ok (requestOf fc body) := if_pos h

/-- A function code without a row of its own belongs to the vendor (R73, R88). -/
theorem requestOf_vendor {fc : Byte} (body : List Byte) (h : fc ∉ standardCodes) : requestOf fc body = .vendor fc body := by
  simp only [standardCodes, List.mem_cons, List.not_mem_nil, or_false, not_or] at h
  unfold requestOf
  split <;> simp_all

theorem decodeResponse_encode (fc : BitVec 7) (x : Byte) :
    decodeResponse [1#1 ++ fc, x] = .ok (.exceptionResponse fc x) := by
  have hbit : (1#1 ++ fc).getLsbD 7 = true := BitVec.getLsbD_append.trans rfl
  have hfc : (1#1 ++ fc).extractLsb' 0 7 = fc := BitVec.extractLsb'_append_eq_right
  simp only [decodeResponse, hbit, hfc, if_true]

/-- The CRC is the last two bytes, low byte first (20_memory.md R52). -/
theorem splitCrc_append (pdu : List Byte) (crc : U16) : splitCrc (pdu ++ putLe16 crc) = (pdu, crc) := by
  simp [splitCrc, putLe16]

theorem decodeAdu_encode (inst : U16) (unit : Byte) {pdu : List Byte} (crc : U16) (h1 : 1 ≤ pdu.length)
    (h2 : pdu.length ≤ Config.maxPdu) : decodeAdu inst (unit :: (pdu ++ putLe16 crc)) = .ok (.rtuAdu inst unit pdu crc) := by
  have hl : 3 ≤ (pdu ++ putLe16 crc).length ∧ (pdu ++ putLe16 crc).length ≤ Config.maxPdu + 2 := by
    rw [List.length_append, putLe16_length]; omega
  simp only [decodeAdu, if_pos hl, splitCrc_append]

theorem decode_encode_command {i : Instr} (h : i.port = .command) : decode i.port (encode i) = .ok i := by
  rw [h]
  cases i with
  | crcBlock r _ _ | rtuTx _ _ r _ | pduServe r _ _ | pduBuildLoopback r _ | pduBuildRaw r _ =>
    obtain ⟨k, r1, r0, he, hr⟩ := putRef_eq r
    simp [encode, decode, decodeCommand, putBe16, he, withRef_some hr]
  | pduParseRsp ctx clen rsp len =>
    obtain ⟨j, c1, c0, hec, hc⟩ := putRef_eq ctx
    obtain ⟨k, r1, r0, her, hr⟩ := putRef_eq rsp
    simp [encode, decode, decodeCommand, putBe16, hec, her, withRef_some hc, withRef_some hr]
  | crcLoad _ | crcFeed _ | crcRead | rtuCfgBaud _ _ | rtuCfgSlave _ _ | rtuBringup _ | rtuShutdown _ | rtuIsDown _
  | rtuRx _ _ | rtuRxIsBcast _ | rtuRxAvail _ | rtuStatus _ | pduExc _ _ | pduBuildRead _ _ _ _
  | pduBuildWriteSingle _ _ _ | pduBuildWriteMulti _ _ _ _ | addrSplit _ _ =>
    simp [encode, decode, decodeCommand, putBe16, putBe32]
  | _ => cases h

/-- Decoding undoes encoding, for every well-formed instruction at its port. -/
theorem decode_encode {i : Instr} (h : i.wf = true) : decode i.port (encode i) = .ok i := by
  cases i with
  | readCoils body | readDiscreteInputs body | readHoldingRegisters body | readInputRegisters body | writeSingleCoil body
  | writeSingleRegister body | diagnostics body | writeMultipleCoils body | writeMultipleRegisters body
  | readWriteMultipleRegisters body => exact decodeRequest_fits _ h
  | vendor fc body =>
    simp only [Instr.wf, Bool.and_eq_true, Bool.not_eq_true', List.contains_eq_mem, decide_eq_false_iff_not] at h
    obtain ⟨hfits, hfc⟩ := h
    exact (decodeRequest_fits fc hfits).trans (congrArg _ (requestOf_vendor body hfc))
  | exceptionResponse fc x => exact decodeResponse_encode fc x
  | rtuAdu inst unit pdu crc =>
    simp only [Instr.wf, Bool.and_eq_true, decide_eq_true_eq] at h
    obtain ⟨⟨h1, h2⟩, -⟩ := h
    exact decodeAdu_encode inst unit crc h1 h2
  | _ => exact decode_encode_command rfl

end Sys2Proof

namespace Sys2Proof.Machine

/-! ### The step -/

theorem step_cons {s : State} {inp : Input} {rest : List Input} (h : s.inputs = inp :: rest) :
    step s = runInput inp { s with inputs := rest } := by
  simp only [step, stepInputs, h]

theorem step_nil {s : State} (h : s.inputs = []) : step s = .next s := by
  simp only [step, stepInputs, h]

theorem present_ok {p : Port} {bytes : List Byte} {i : Instr} (h : decode p bytes = .ok i) (s : State) :
    present p bytes s = exec i s := by
  simp only [present, h]

theorem present_error {p : Port} {bytes : List Byte} {e : DecodeError} (h : decode p bytes = .error e) (s : State) :
    present p bytes s = .next (reject p bytes e s) := by
  simp only [present, h]

/-! ### Bytes that are no instruction -/

/-- But for an undefined `use`, bytes that are no command are refused RESERVED_CMD (notes/assumptions/2.md). -/
theorem rejectCommand_of_ne_badUse {e : DecodeError} (h : e ≠ .badUse) (s : State) :
    rejectCommand e s = s.refuse .reservedCmd := by
  cases e with
  | badUse => exact absurd rfl h
  | _ => rfl

/-- A response alone whose exception bit is set is translated by its exception code (R166). -/
theorem parseAlone_exception {r0 : Byte} (x : Byte) (more : List Byte) (h : r0.getLsbD 7 = true) :
    parseAlone (r0 :: x :: more) = masterCode x := if_pos h

theorem parseAlone_malformed {rsp : List Byte} (h : rsp.length < 2 ∨ (rsp.headD 0).getLsbD 7 = false) :
    parseAlone rsp = .malformedResponse := by
  match rsp with
  | [] => rfl
  | [_] => rfl
  | r0 :: x :: more =>
    have hbit : r0.getLsbD 7 = false := h.resolve_left (by simp)
    exact if_neg (by rw [hbit]; decide)

/-- Settles O57: a step is `runInput` of the oldest input, which presents the bytes of a port: what they decode to runs
(`decode_encode` for encoded instructions), and what is no instruction goes to `reject`, port by port. -/
theorem stepRunsDecodedInstruction : Obligations.StepRunsDecodedInstruction := by
  unfold Obligations.StepRunsDecodedInstruction
  refine ⟨fun s p bytes rest i hi hd => ?_, fun s rest i hwf hi => ?_, fun s inp rest => step_cons, fun s => step_nil, ?_⟩
  · exact (step_cons hi).trans (present_ok hd _)
  · exact (step_cons hi).trans (present_ok (decode_encode hwf) _)
  · rintro s t p bytes rest e hi rfl hd
    rw [(step_cons hi).trans (present_error hd _)]
    refine ⟨?_, ?_, ?_, ?_, ?_, ?_⟩
    · rintro rfl rfl
      rfl
    · rintro rfl he
      exact congrArg _ (rejectCommand_of_ne_badUse he _)
    · rintro rfl hb
      exact congrArg _ (if_pos hb)
    · rintro rfl hb
      exact congrArg _ (if_neg hb)
    · rintro rfl
      refine ⟨?_, fun hm => ?_⟩
      · rintro r0 x more rfl hbit
        simp only [reject, parseAlone_exception x more hbit, State.ret]
      · simp only [reject, parseAlone_malformed hm, State.ret]
    · rintro inst rfl
      rfl

end Sys2Proof.Machine
end

section
/-! PROOF. The encodings (30_encoding.md): the decoder undoes the encoder, the words written out from the spec, the reserved
command codes (R69) and the exception response (R84, 47_pdu_master.md R166). -/

namespace Sys2Proof

/-- The command codes of R68. -/
def commandCodes : List Byte :=
  [0x01, 0x02, 0x03, 0x04, 0x10, 0x11, 0x12, 0x13, 0x14, 0x15, 0x16, 0x17, 0x18, 0x19, 0x20, 0x21, 0x22, 0x23, 0x24, 0x25, 0x26,
    0x27, 0x28]

/-- A code outside R68 is rejected by its name, whatever follows it (R69): every arm of the decoder but the last has a code of
R68. -/
theorem decodeCommand_reserved {c : Byte} (operands : List Byte) (h : c ∉ commandCodes) :
    decodeCommand (c :: operands) = .error (.reservedCommand c) := by
  simp only [commandCodes, List.mem_cons, List.not_mem_nil, or_false, not_or] at h
  simp only [decodeCommand]
  split <;> simp_all

end Sys2Proof

namespace Sys2Proof.Machine

/-- Settles O55: `decode_encode`, port by port. -/
theorem decodeOfEncode : Obligations.DecodeOfEncode := fun _ h => decode_encode h

/-- Settles O56: the decoder evaluated on each of the strings. -/
theorem specWordsDecode : Obligations.SpecWordsDecode :=
  ⟨rfl, rfl, rfl, rfl, rfl, rfl, rfl, rfl, rfl, rfl, rfl, rfl⟩

/-- Settles O58: a reserved code is no command (`decodeCommand_reserved`), and what is no command is refused. -/
theorem reservedCommandIsRefused : Obligations.ReservedCommandIsRefused := by
  unfold Obligations.ReservedCommandIsRefused
  intro s c operands h
  have hd : decode .command (c :: operands) = .error (.reservedCommand c) := decodeCommand_reserved operands h
  exact present_error hd s

/-- Setting bit 7 of a function code (R84). -/
theorem excPdu_append (fc : BitVec 7) (x : Byte) : excPdu (0#1 ++ fc) x = [1#1 ++ fc, x] := by
  have hbit : Config.exceptionBit = 1#1 ++ 0#7 := rfl
  rw [excPdu, hbit, BitVec.or_append, BitVec.or_zero]
  rfl

/-- An exception code without a taxonomy entry of its own (47_pdu_master.md R160). -/
theorem masterCode_unknown {x : Byte} (h : x ∉ [0x01, 0x02, 0x03, 0x04]) : masterCode x = .unknownException := by
  simp only [List.mem_cons, List.not_mem_nil, or_false, not_or] at h
  unfold masterCode
  split <;> simp_all

/-- Settles O46: the two bytes are `excPdu_append`'s and the code is `masterCode x`. -/
theorem exceptionResponseTranslates : Obligations.ExceptionResponseTranslates := by
  unfold Obligations.ExceptionResponseTranslates
  intro s fc x
  refine ⟨_, masterCode x, rfl, ?_, ?_, ?_, ?_, ?_, masterCode_unknown⟩
  · rw [excPdu_append]; rfl
  all_goals rintro rfl; rfl

end Sys2Proof.Machine
end

section
/-! PROOF. The reception of a frame with a right CRC: the residual of the CRC (40_crc.md R94, R95) and the validation that passes
(42_rtu_rx.md R123 to R125). -/

namespace Sys2Proof

/-- Composition (R94). -/
theorem crc16_append (a b : List Byte) (p : U16) : crc16 (a ++ b) p = crc16 b (crc16 a p) := by
  induction a generalizing p with
  | nil => rfl
  | cons x a ih => exact ih _

/-- Exclusive-or with its low byte clears a word's low byte. -/
theorem xor_loByte (c : U16) : c ^^^ (loByte c).setWidth 16 = hiByte c ++ 0#8 := by
  have hc : c = hiByte c ++ loByte c := (word_hi_lo c).symm
  have hl : (loByte c).setWidth 16 = 0#8 ++ loByte c := BitVec.setWidth_eq_append (by omega)
  rw [hl]
  nth_rw 1 [hc]
  rw [BitVec.xor_append, BitVec.xor_self, BitVec.xor_zero]

/-- The low byte of a CRC leaves its high byte. -/
theorem crcByte_loByte (c : U16) : crcByte c (loByte c) = (hiByte c).setWidth 16 := by
  rw [crcByte, xor_loByte, crcBits_eight_high]

theorem crcByte_setWidth (b : Byte) : crcByte (b.setWidth 16) b = 0 := by
  rw [crcByte, BitVec.xor_self]; rfl

/-- A CRC fed its own two bytes, low byte first, is 0. -/
theorem crc16_putLe16 (c : U16) : crc16 (putLe16 c) c = 0 := by
  rw [putLe16, crc16_cons, crcByte_loByte, crc16_cons, crcByte_setWidth, crc16_nil]

/-- The residual of an ADU (R95, 30_encoding.md R70). -/
theorem crc16_adu (unit : Byte) (pdu : List Byte) : crc16 (unit :: (pdu ++ putLe16 (aduCrc unit pdu))) 0xFFFF = 0 := by
  rw [← List.cons_append, crc16_append]
  exact crc16_putLe16 _

end Sys2Proof

namespace Sys2Proof.Machine

/-- A whole frame with residual 0 for the instance's own id or for unit 0 passes every check (R123 to R125). -/
theorem Framer.validate_ok {i : Framer} (hok : i.frameOk = true) (hl : 3 ≤ i.rxbuf.length) (hc : i.rxCrc = 0)
    (hu : i.rxUnit = i.slaveId ∨ i.rxUnit = 0) :
    i.validate = { i with
      rxStatus := .ok, rxPduLen := i.rxbuf.length - 2, bcast := decide (i.rxUnit = 0), op := .none, phase := .idle } := by
  have hlen : ¬ i.rxbuf.length < 3 := by omega
  have hunit : ¬ (i.rxUnit ≠ i.slaveId ∧ i.rxUnit ≠ Config.broadcastId) := fun ⟨h1, h2⟩ => hu.elim h1 h2
  rw [Framer.validate, if_neg (by simp [hok]), if_neg hlen, if_neg (not_not.mpr hc), Framer.unitCheck, if_neg hunit]
  rfl

/-- What arrives on the wire of an instance and ends its receive, with the result returned (R125). -/
theorem State.wireArrival_completes {s : State} {inst : U16} {bytes : List Byte} {i : Framer}
    (hi : s.framers[inst.toNat]? = some i) (ho : i.op = .rx) (hn : (i.frame s.params bytes).op = .none) :
    s.wireArrival inst bytes =
      (s.setFramer inst.toNat (i.frame s.params bytes)).ret ((i.frame s.params bytes).rxResult inst.toNat) :=
  (State.act_some hi).trans (State.moved_rx ho hn)

/-- A good frame at an instance that waits for one: captured (`Framer.frame_waiting`), its residual 0 (`crc16_adu`), and every
check passed (`Framer.validate_ok`). -/
theorem Framer.frame_good (p : Params) {i : Framer} {unit : Byte} {pdu : List Byte} (hp : i.phase = .rxWaitStart)
    (hok : i.frameOk = true) (hb : i.rxbuf = []) (hf : i.rxfifo = []) (h1 : 1 ≤ pdu.length) (h2 : pdu.length ≤ 253)
    (hu : unit = i.slaveId ∨ unit = 0) :
    i.frame p (unit :: (pdu ++ putLe16 (aduCrc unit pdu))) = { i with
      phase := .idle, op := .none, evf := (i.evf &&& 0b0001) ||| 0b1100, bcast := decide (unit = 0), rxUnit := unit
      rxbuf := pdu ++ putLe16 (aduCrc unit pdu), rxCrc := 0, rxStatus := .ok, rxPduLen := pdu.length
      tmr1 := .stopped, tmr3 := .stopped } := by
  have hl : (pdu ++ putLe16 (aduCrc unit pdu)).length = pdu.length + 2 := List.length_append
  rw [Framer.frame_waiting p i unit _ hp hf hb (by omega) hok, crc16_adu, Framer.validate_ok]
  case hok => exact hok
  case hl => exact hl.symm ▸ Nat.add_le_add_right h1 2
  case hc => rfl
  case hu => exact hu
  simp only [hl, Nat.add_sub_cancel]

/-- Settles O19: the instance after the frame is `Framer.frame_good`'s, and its result is the PDU of its `RXBUF`. -/
theorem goodFrameIsReceived : Obligations.GoodFrameIsReceived := by
  unfold Obligations.GoodFrameIsReceived
  intro s inst i unit pdu hi hp ho hok hb hf h1 h2 hu
  have hframe := Framer.frame_good s.params hp hok hb hf h1 h2 hu
  show Host.Outcome.next (s.wireArrival inst _) = _
  rw [State.wireArrival_completes hi ho (by rw [hframe]), hframe]
  simp [State.setFramer, State.ret, Framer.rxResult]

end Sys2Proof.Machine
end

section
/-! PROOF. The CRC engine (40_crc.md R94 to R100): the laws of the function, each command as an equation, and that none of them
reads a framer register unless its buffer is an `RXBUF`. -/

namespace Sys2Proof.Machine

/-! ### The function -/

/-- Settles O1: `crc16_append`, which also covers the unit id before a PDU. -/
theorem crcComposition : Obligations.CrcComposition := by
  unfold Obligations.CrcComposition
  exact ⟨crc16_append, fun unit pdu => crc16_append [unit] pdu _⟩

/-- Settles O2: by the composition law the bytes of the CRC are fed to the CRC itself, which they cancel (`crc16_putLe16`). -/
theorem crcResidualZero : Obligations.CrcResidualZero := by
  unfold Obligations.CrcResidualZero
  intro s p
  rw [crc16_append]
  exact crc16_putLe16 _

/-! ### The commands over `CRC_ACC` -/

theorem exec_crcLoad (v : U16) (s : State) : exec (.crcLoad v) s = .next { s with crcAcc := v, result := .done } := rfl

theorem exec_crcFeed (b : Byte) (s : State) :
    exec (.crcFeed b) s = .next { s with crcAcc := crcByte s.crcAcc b, result := .done } := rfl

theorem exec_crcRead (s : State) : exec .crcRead s = .next { s with result := .crc s.crcAcc } := rfl

/-- The accumulator fed its own two bytes, low byte first (R97): `crc16_putLe16`, one command a byte. -/
theorem exec_crcFeed_own_bytes (s : State) :
    Out.andThen (exec (.crcFeed (loByte s.crcAcc)) s) (exec (.crcFeed (hiByte s.crcAcc))) =
      .next { s with crcAcc := 0, result := .done } := by
  have hcancel : crcByte (crcByte s.crcAcc (loByte s.crcAcc)) (hiByte s.crcAcc) = 0 := crc16_putLe16 s.crcAcc
  rw [exec_crcFeed, Out.andThen_next, exec_crcFeed, hcancel]

/-- Settles O3: the equation of each command, CRC_READ's at the reset value of `CRC_ACC` too. -/
theorem crcLoadFeedRead : Obligations.CrcLoadFeedRead := by
  unfold Obligations.CrcLoadFeedRead
  exact ⟨fun s v => exec_crcLoad v s, fun s b => exec_crcFeed b s, exec_crcFeed_own_bytes, exec_crcRead,
    exec_crcRead State.reset⟩

/-! ### CRC_BLOCK -/

theorem exec_crcBlock_holds {buf : BufRef} {len : U16} {bs : List Byte} {s : State} (hl : bs.length = len.toNat)
    (h : s.Holds buf bs) (pre : U16) :
    exec (.crcBlock buf len pre) s = .next { s with crcAcc := crc16 bs pre, result := .crc (crc16 bs pre) } :=
  withBytes_holds hl h

theorem exec_crcBlock_short {buf : BufRef} {len : U16} {s : State} (h : s.Short buf len.toNat) (pre : U16) :
    exec (.crcBlock buf len pre) s = .next { s with refused := true, result := .refused .badBuffer } :=
  withBytes_short h

theorem exec_crcBlock_unreadable {buf : BufRef} {len : U16} {s : State} (h : s.Unreadable buf len.toNat) (pre : U16) :
    exec (.crcBlock buf len pre) s = .fault .readUnwritten :=
  withBytes_unreadable h

/-- Every buffer begins with no bytes, the `RXBUF` of an absent instance too. -/
theorem State.holds_nil (buf : BufRef) (s : State) : s.Holds buf [] := by
  cases buf with
  | host n => exact fun k hk => absurd hk (Nat.not_lt_zero k)
  | rx n => exact .inl rfl

/-- Settles O4: a case of the buffer each, `len = 0` being the case of no bytes, whose CRC is the preload. -/
theorem crcBlockComputesCrc : Obligations.CrcBlockComputesCrc := by
  unfold Obligations.CrcBlockComputesCrc
  intro s buf len pre
  exact ⟨fun bs hl h => exec_crcBlock_holds hl h pre, fun h => exec_crcBlock_short h pre,
    exec_crcBlock_holds rfl (s.holds_nil buf) pre, fun h => exec_crcBlock_unreadable h pre⟩

/-! ### Independence of the framers -/

/-- CRC_BLOCK of a buffer of the host: what the buffer holds is a matter of memory alone, so the same case of it applies whatever
the framer registers are. -/
theorem exec_crcBlock_host (s : State) (fs : List Framer) (n len pre : U16) :
    ∃ t, exec (.crcBlock (.host n) len pre) s = .next t ∧ t.framers = s.framers ∧
      exec (.crcBlock (.host n) len pre) { s with framers := fs } = .next { t with framers := fs } := by
  rcases holds_or_short_or_unreadable (.host n) len.toNat s with ⟨bs, hl, hb⟩ | hs | hu
  · exact ⟨_, exec_crcBlock_holds hl hb pre, rfl, exec_crcBlock_holds (s := { s with framers := fs }) hl hb pre⟩
  · exact ⟨_, exec_crcBlock_short hs pre, rfl, exec_crcBlock_short (s := { s with framers := fs }) hs pre⟩
  · exact hu.elim

/-- Settles O5: by the command. The equations of CRC_LOAD, CRC_FEED and CRC_READ name no framer register, and CRC_BLOCK of a host
buffer is `exec_crcBlock_host`. -/
theorem crcEngineIndependentOfFramers : Obligations.CrcEngineIndependentOfFramers := by
  unfold Obligations.CrcEngineIndependentOfFramers
  intro s fs i hcrc hhost
  cases i with
  | crcLoad v => exact ⟨_, exec_crcLoad v s, rfl, exec_crcLoad v _⟩
  | crcFeed b => exact ⟨_, exec_crcFeed b s, rfl, exec_crcFeed b _⟩
  | crcRead => exact ⟨_, exec_crcRead s, rfl, exec_crcRead _⟩
  | crcBlock buf len pre =>
    cases buf with
    | host n => exact exec_crcBlock_host s fs n len pre
    | rx n => exact absurd rfl (hhost n len pre)
  | _ => cases hcrc

end Sys2Proof.Machine
end

section
/-! PROOF. The timing arithmetic of an instance, its configuration commands and its queries (41_rtu_config.md R101 to R113): each
command as an equation on an idle instance, the busy rule, and the commands to an instance that does not exist. -/

namespace Sys2Proof.Machine

/-! ### The timing arithmetic -/

theorem charTimeUs_slow {b : Nat} (h : b ≤ 19200) : charTimeUs b = 11000000 / b := if_neg (Nat.not_lt.mpr h)

theorem charTimeUs_fast {b : Nat} (h : 19200 < b) : charTimeUs b = 500 := if_pos h

theorem charTimeUs_pos {b : Nat} (h : 1 ≤ b) : 0 < charTimeUs b := by
  by_cases hb : b ≤ 19200
  · rw [charTimeUs_slow hb]
    exact Nat.div_pos (by omega) h
  · rw [charTimeUs_fast (by omega)]
    decide

theorem charTimeUs_one : charTimeUs 1 = 11000000 := charTimeUs_slow (by decide)

/-- No character takes longer than at 1 baud (R103). -/
theorem charTimeUs_le (b : Nat) : charTimeUs b ≤ 11000000 := by
  by_cases hb : b ≤ 19200
  · rw [charTimeUs_slow hb]
    exact Nat.div_le_self _ _
  · rw [charTimeUs_fast (by omega)]
    decide

/-- Settles O7: the two branches of the character time, and its bound at 1 baud, which bounds the two intervals. -/
theorem timingIntervals : Obligations.TimingIntervals := by
  unfold Obligations.TimingIntervals
  refine ⟨fun b _ hb => ?_, fun b hb => ⟨charTimeUs_fast hb, ?_⟩, by decide, by decide, charTimeUs_one, by decide,
    fun b h1 _ => ?_⟩
  · rw [timing, charTimeUs_slow hb]
  · rw [timing, charTimeUs_fast hb]
  · have hpos := charTimeUs_pos h1
    have hle := charTimeUs_le b
    simp only [timing, charTimeUs_one]
    omega

/-! ### The queries -/

section Queries

variable {s : State} {inst : U16} {i : Framer} (hi : s.framers[inst.toNat]? = some i)
include hi

theorem exec_rtuIsDown : exec (.rtuIsDown inst) s = .next { s with result := .flag i.down } := onFramer_some hi

theorem exec_rtuRxIsBcast : exec (.rtuRxIsBcast inst) s = .next { s with result := .flag i.bcast } := onFramer_some hi

theorem exec_rtuRxAvail :
    exec (.rtuRxAvail inst) s = .next { s with result := .flag (decide (0 < i.rxfifo.length)) } := onFramer_some hi

theorem exec_rtuStatus :
    exec (.rtuStatus inst) s = .next
      { s with result := .framerStatus i.phase i.op i.cfgBaud i.t1p5Us i.t3p5Us i.slaveId } := onFramer_some hi

end Queries

/-- Settles O12: the equation of each query; `RXFIFO` holds a byte exactly when it is not empty. -/
theorem queriesReportRegisters : Obligations.QueriesReportRegisters := by
  unfold Obligations.QueriesReportRegisters
  intro s inst i hi
  refine ⟨exec_rtuIsDown hi, exec_rtuRxIsBcast hi, fun hne => ?_, fun he => ?_, exec_rtuStatus hi⟩
  · rw [exec_rtuRxAvail hi, decide_eq_true (List.length_pos_of_ne_nil hne)]
  · rw [exec_rtuRxAvail hi, he]
    rfl

/-! ### The busy rule, and an instance that does not exist -/

/-- A framer command goes on with the instance it names, or is refused BAD_INST. -/
theorem exec_framer (s : State) {c : Instr} (hc : family c = .framer) :
    ∃ inst f, target c = some (BitVec.toNat inst) ∧ exec c s = onFramer inst s f := by
  cases c with
  | rtuCfgBaud inst _ | rtuCfgSlave inst _ | rtuBringup inst | rtuShutdown inst | rtuIsDown inst | rtuTx inst _ _ _
  | rtuRx inst _ | rtuRxIsBcast inst | rtuRxAvail inst | rtuStatus inst => exact ⟨inst, _, rfl, rfl⟩
  | _ => cases hc

theorem exec_framer_absent {s : State} {c : Instr} {n : Nat} (hn : s.framers[n]? = none) (hc : family c = .framer)
    (ht : target c = some n) : exec c s = .next { s with refused := true, result := .refused .badInst } := by
  obtain ⟨inst, f, htarget, hexec⟩ := exec_framer s hc
  obtain rfl : inst.toNat = n := Option.some.inj (htarget.symm.trans ht)
  exact hexec.trans (onFramer_none hn)

/-- Settles O8: the six commands are `onIdle`, which refuses BUSY; the queries have their equations; the last part is
`exec_framer_absent`. -/
theorem framerCommandsRefuseBusyAndBadInstance : Obligations.FramerCommandsRefuseBusyAndBadInstance := by
  unfold Obligations.FramerCommandsRefuseBusyAndBadInstance
  refine fun s inst => ⟨fun i hi hbusy => ?_, fun i hi q hq => ?_, fun hn c hc ht => exec_framer_absent hn hc ht⟩
  · exact ⟨fun _ => onIdle_busy hi hbusy, fun _ => onIdle_busy hi hbusy, onIdle_busy hi hbusy, onIdle_busy hi hbusy,
      fun _ _ _ => onIdle_busy hi hbusy, fun _ => onIdle_busy hi hbusy⟩
  · simp only [List.mem_cons, List.not_mem_nil, or_false] at hq
    rcases hq with rfl | rfl | rfl | rfl
    · exact ⟨_, exec_rtuIsDown hi, nofun⟩
    · exact ⟨_, exec_rtuRxIsBcast hi, nofun⟩
    · exact ⟨_, exec_rtuRxAvail hi, nofun⟩
    · exact ⟨_, exec_rtuStatus hi, nofun⟩

/-! ### The configuration commands -/

/-- The registers that R106 writes; an instance that is down keeps its programmed intervals. -/
theorem Framer.configure_eq (b : U32) (i : Framer) :
    i.configure b = { i with
      cfgBaud := b
      t1p5Us := BitVec.ofNat 32 (timing b.toNat).1
      t3p5Us := BitVec.ofNat 32 (timing b.toNat).2
      interval1 := if i.down then i.interval1 else BitVec.ofNat 32 (timing b.toNat).1
      interval3 := if i.down then i.interval3 else BitVec.ofNat 32 (timing b.toNat).2 } := by
  unfold Framer.configure
  cases i.down <;> rfl

/-- The registers that R108 writes; the four masks together clear every flag. -/
theorem Framer.bringup_eq (i : Framer) :
    i.bringup = { i with interval1 := i.t1p5Us, interval3 := i.t3p5Us, evf := 0b0000, down := false } := by
  have hmask : ~~~(evTxEmptyMask ||| evRxMask ||| evT1p5Mask ||| evT3p5Mask) = 0#4 := by decide
  simp only [Framer.bringup, Framer.clear, Framer.timerInit, hmask, BitVec.and_zero, BitVec.ofNat_eq_ofNat]

/-- Settles O9: the busy rule, and the two branches of R106 on an idle instance. -/
theorem rtuCfgBaudSetsRateAndIntervals : Obligations.RtuCfgBaudSetsRateAndIntervals := by
  unfold Obligations.RtuCfgBaudSetsRateAndIntervals
  intro s inst i b hi
  refine ⟨onIdle_busy hi, fun hidle => ⟨fun hb => ?_, fun hb => ?_⟩⟩
  · exact (onIdle_idle hi hidle).trans (if_pos hb)
  · rw [← Framer.configure_eq]
    exact (onIdle_idle hi hidle).trans (if_neg hb)

/-- Settles O10: the busy rule, and the one register that each of the two writes on an idle instance. -/
theorem rtuCfgSlaveAndShutdown : Obligations.RtuCfgSlaveAndShutdown := by
  unfold Obligations.RtuCfgSlaveAndShutdown
  intro s inst i hi
  exact ⟨fun hbusy => ⟨fun _ => onIdle_busy hi hbusy, onIdle_busy hi hbusy⟩,
    fun hidle => ⟨fun _ => onIdle_idle hi hidle, onIdle_idle hi hidle⟩⟩

/-- Settles O11: the busy rule, and the two branches of R108 on an idle instance. -/
theorem rtuBringupTakesUp : Obligations.RtuBringupTakesUp := by
  unfold Obligations.RtuBringupTakesUp
  intro s inst i hi
  refine ⟨onIdle_busy hi, fun hidle => ⟨fun hb => ?_, fun hb => ?_⟩⟩
  · exact (onIdle_idle hi hidle).trans (if_pos hb)
  · rw [← Framer.bringup_eq]
    exact (onIdle_idle hi hidle).trans (if_neg hb)

end Sys2Proof.Machine
end

section
/-! PROOF. RTU_RX and its phases (42_rtu_rx.md R116 to R125), action by action: an instance action as an equation on the state,
the completion with a status other than `OK`, and the checks of `validate()` in their order. -/

namespace Sys2Proof.Machine

/-! ### An action of an instance on the state -/

section Action

variable {s : State} {n : Nat} {f : Framer → Option Framer} {i j : Framer} (hi : s.framers[n]? = some i)
include hi

theorem State.act_waits (h : f i = none) : s.act n f = s := by rw [State.act_some hi, h]

theorem State.act_moves (h : f i = some j) : s.act n f = s.moved n i j := by rw [State.act_some hi, h]

/-- An action that ends no command. -/
theorem State.act_quiet (h : f i = some j) (ho : j.op = i.op) :
    s.act n f = { s with framers := s.framers.set n j } :=
  (State.act_moves hi h).trans (State.moved_quiet ho)

end Action

/-! ### Completion with a failure (R125) -/

theorem Framer.rxComplete_fail {st : Status} (hst : st ≠ .ok) (i : Framer) :
    i.rxComplete st = { i with rxStatus := st, rxPduLen := 0, bcast := false, op := .none, phase := .idle } := by
  simp only [Framer.rxComplete, hst, if_false, decide_false, Bool.false_and]

theorem Framer.rxResult_rxComplete_fail {st : Status} (hst : st ≠ .ok) (n : Nat) (i : Framer) :
    (i.rxComplete st).rxResult n = .rxFail n st := if_neg hst

/-- An action that ends a receive with another status than `OK`. -/
theorem State.act_rxFail {s : State} {n : Nat} {f : Framer → Option Framer} {i k : Framer} {st : Status}
    (hi : s.framers[n]? = some i) (ho : i.op = .rx) (hst : st ≠ .ok) (h : f i = some (k.rxComplete st)) :
    s.act n f = { s with
      framers := s.framers.set n
        { k with rxStatus := st, rxPduLen := 0, bcast := false, op := .none, phase := .idle }
      result := .rxFail n st } := by
  rw [State.act_moves hi h, State.moved_rx ho rfl, Framer.rxResult_rxComplete_fail hst, Framer.rxComplete_fail hst]
  rfl

/-! ### The enabled step of each phase, and the expiry of a timer (60_exceptions.md R176) -/

theorem Framer.streamAvail_pos {i : Framer} (h : i.rxfifo ≠ []) : 0 < i.streamAvail := List.length_pos_of_ne_nil h

theorem Framer.control_start_wait {p : Params} {i : Framer} (hp : i.phase = .rxWaitStart) (hf : i.rxfifo = []) :
    i.control p = none := by
  simp only [Framer.control, hp, hf]

theorem Framer.control_start {p : Params} {i : Framer} {b : Byte} {rest : List Byte} (hp : i.phase = .rxWaitStart)
    (hf : i.rxfifo = b :: rest) : i.control p = some (i.rxStart b rest) := by
  simp only [Framer.control, hp, hf]

theorem Framer.control_body_drain {p : Params} {i : Framer} (hp : i.phase = .rxBody) (hf : i.rxfifo ≠ []) :
    i.control p = some i.rxDrain := by
  simp only [Framer.control, hp, Framer.streamAvail_pos hf, if_true]

theorem Framer.control_eof_noise {p : Params} {i : Framer} (hp : i.phase = .rxEof) (hf : i.rxfifo ≠ []) :
    i.control p = some i.rxNoise := by
  simp only [Framer.control, hp, Framer.streamAvail_pos hf, if_true]

theorem Framer.event_expireT1p5 {i : Framer} (h : i.tmr1 = .running) :
    i.event .expireT1p5 = some { i with tmr1 := .stopped, evf := i.evf ||| 0b0100 } := if_pos h

theorem Framer.event_expireT3p5 {i : Framer} (h : i.tmr3 = .running) :
    i.event .expireT3p5 = some { i with tmr3 := .stopped, evf := i.evf ||| 0b1000 } := if_pos h

/-- Step DRAIN (R119): `Framer.stores_eq` for the bytes that were waiting. -/
theorem Framer.rxDrain_eq {i : Framer} (h : i.rxbuf.length ≤ 255) :
    i.rxDrain = { i with
      evf := i.evf &&& 0b1101
      rxfifo := []
      rxbuf := i.rxbuf ++ i.rxfifo.take (255 - i.rxbuf.length)
      rxCrc := crc16 (i.rxfifo.take (255 - i.rxbuf.length)) i.rxCrc
      frameOk := i.frameOk && decide (i.rxbuf.length + i.rxfifo.length ≤ 255) } :=
  Framer.stores_eq i.rxfifo { i.clear evRxMask with rxfifo := [] } h

/-! ### The checks of `validate()` -/

/-- The first two checks (R123): the frame flag, and room for one PDU byte and the CRC. -/
theorem Framer.validate_frameNok {i : Framer} (h : i.frameOk = false ∨ i.rxbuf.length < 3) :
    i.validate = i.rxComplete .frameNok := by
  rw [Framer.validate]
  rcases h with hok | hl
  · rw [if_pos hok]
  · rw [if_pos hl, ite_self]

section Checks

variable {i : Framer} (hok : i.frameOk = true) (hl : 3 ≤ i.rxbuf.length)
include hok hl

/-- A whole frame comes to the check of its CRC (R123). -/
theorem Framer.validate_whole : i.validate = if i.rxCrc ≠ 0 then i.rxComplete .crcFail else i.unitCheck := by
  rw [Framer.validate, if_neg (by simp [hok]), if_neg (Nat.not_lt.mpr hl)]

theorem Framer.validate_crcFail (hc : i.rxCrc ≠ 0) : i.validate = i.rxComplete .crcFail :=
  (Framer.validate_whole hok hl).trans (if_pos hc)

theorem Framer.validate_slaveId (hc : i.rxCrc = 0) (hu : i.rxUnit ≠ i.slaveId) (h0 : i.rxUnit ≠ 0) :
    i.validate = i.rxComplete .slaveId := by
  rw [Framer.validate_whole hok hl, if_neg (not_not.mpr hc), Framer.unitCheck]
  exact if_pos ⟨hu, h0⟩

end Checks

/-! ### The obligations on RTU_RX and its phases -/

/-- Settles O15: RX_BODY drains (`Framer.rxDrain_eq`), ends, or waits. -/
theorem rxBodyDrainsThenEnds : Obligations.RxBodyDrainsThenEnds := by
  unfold Obligations.RxBodyDrainsThenEnds
  intro s n i hi hp hl
  refine ⟨fun hf => ?_, fun hf h1 => ?_, fun hf h1 => ?_⟩
  · rw [← Framer.rxDrain_eq hl]
    exact congrArg Host.Outcome.next
      (State.act_quiet hi (Framer.control_body_drain hp hf) (by rw [Framer.rxDrain_eq hl]))
  · exact congrArg Host.Outcome.next (State.act_quiet hi (Framer.control_body_end hp hf h1) rfl)
  · exact congrArg Host.Outcome.next (State.act_waits hi (Framer.control_body_wait hp hf h1))

/-- Settles O17: RX_EOF waits, or ends with the status of the first check that fails, or with `OK` where all pass
(`Framer.validate_ok`). -/
theorem rxEofValidates : Obligations.RxEofValidates := by
  unfold Obligations.RxEofValidates
  intro s n i hi hp ho hf hcrc fails
  refine ⟨fun h3 => congrArg Host.Outcome.next (State.act_waits hi (Framer.control_eof_wait hp hf h3)), fun h3 => ?_⟩
  have hcontrol : i.control s.params = some i.validate := Framer.control_eof_end hp hf h3
  have hfail {st : Status} (hst : st ≠ .ok) (hv : i.validate = i.rxComplete st) :
      runInput (.controller n) s = .next (fails st) :=
    congrArg Host.Outcome.next (State.act_rxFail hi ho hst (hcontrol.trans (congrArg some hv)))
  rw [← hcrc]
  refine ⟨fun h => ?_, fun hok hl hc => ?_, fun hok hl hc hu h0 => ?_, fun hok hl hc hu => ?_⟩
  · exact hfail (by decide) (Framer.validate_frameNok h)
  · exact hfail (by decide) (Framer.validate_crcFail hok hl hc)
  · exact hfail (by decide) (Framer.validate_slaveId hok hl hc hu h0)
  · have hv := Framer.validate_ok hok hl hc hu
    exact congrArg Host.Outcome.next
      ((State.act_moves hi (hcontrol.trans (congrArg some hv))).trans (State.moved_rx ho rfl))

/-- Settles O13: the busy rule, and the two branches of R116 on an idle instance. -/
theorem rtuRxEntry : Obligations.RtuRxEntry := by
  unfold Obligations.RtuRxEntry
  intro s inst tmo i hi
  refine ⟨onIdle_busy hi, fun hidle hdown => ?_, fun hidle hup => ?_⟩
  · rw [← Framer.rxComplete_fail (by decide)]
    exact (onIdle_idle hi hidle).trans (if_pos hdown)
  · exact (onIdle_idle hi hidle).trans (if_neg (ne_true_of_eq_false hup))

/-- Settles O14: RX_WAIT_START waits for a byte, and takes the oldest as the unit id. -/
theorem rxWaitStartTakesUnitId : Obligations.RxWaitStartTakesUnitId := by
  unfold Obligations.RxWaitStartTakesUnitId
  intro s n i hi hp
  refine ⟨fun hf => ?_, fun b rest hf => ?_⟩
  · exact congrArg Host.Outcome.next (State.act_waits hi (Framer.control_start_wait hp hf))
  · exact congrArg Host.Outcome.next (State.act_quiet hi (Framer.control_start hp hf) rfl)

/-- Settles O16: step NOISE completes with FRAME_NOK on the instance without its bytes (`State.act_rxFail`). -/
theorem rxEofNoiseEndsFrameNok : Obligations.RxEofNoiseEndsFrameNok := by
  unfold Obligations.RxEofNoiseEndsFrameNok
  intro s n i hi hp ho hf
  exact congrArg Host.Outcome.next (State.act_rxFail hi ho (by decide) (Framer.control_eof_noise hp hf))

/-- Settles O18: the event is enabled exactly under R118's three conditions, and completes the receive with TIMEOUT. -/
theorem rxTimeoutOnlyWhileWaiting : Obligations.RxTimeoutOnlyWhileWaiting := by
  unfold Obligations.RxTimeoutOnlyWhileWaiting
  intro s n i hi
  refine ⟨fun hp ho ht hf => ?_, fun hoff => ?_⟩
  · have hevent : i.event .rxTimeout = some (i.rxComplete .timeout) := if_pos ⟨hp, ht, List.length_eq_zero_iff.mpr hf⟩
    exact congrArg Host.Outcome.next (State.act_rxFail hi ho (by decide) hevent)
  · have hevent : i.event .rxTimeout = none := if_neg fun ⟨hp, ht, ha⟩ =>
      hoff.elim (absurd hp) fun h => h.elim ht fun hf => hf (List.length_eq_zero_iff.mp ha)
    exact congrArg Host.Outcome.next (State.act_waits hi hevent)

end Sys2Proof.Machine
end

section
/-! PROOF. The arrival of a frame that is not for the instance or damaged (42_rtu_rx.md R123, R124), and of one at an idle
instance (60_exceptions.md R175): the CRC's residual is 0 for the right two bytes alone. -/

namespace Sys2Proof

theorem crcBits_zero (n : Nat) : crcBits n 0 = 0 := by
  induction n with
  | zero => rfl
  | succ n ih => exact ih

/-- A CRC that a byte brings to 0 is that byte. -/
theorem eq_setWidth_of_crcByte_eq_zero {c : U16} {b : Byte} (h : crcByte c b = 0) : c = b.setWidth 16 :=
  BitVec.xor_eq_zero_iff.mp (crcBits_injective 8 _ _ (h.trans (crcBits_zero 8).symm))

/-- Equal CRCs after one and the same byte come from equal CRCs before it. -/
theorem crcByte_injective {c d : U16} {b : Byte} (h : crcByte c b = crcByte d b) : c = d :=
  (BitVec.xor_left_inj _).mp (crcBits_injective 8 _ _ h)

/-- Only its own two bytes, low byte first, bring a CRC to 0 (R95): `c` and `d` are the same after the low byte of `d`, whose high
byte then clears both. -/
theorem crc16_putLe16_eq_zero {c d : U16} (h : crc16 (putLe16 d) c = 0) : d = c := by
  rw [putLe16, crc16_cons, crc16_cons, crc16_nil] at h
  have hlow : crcByte c (loByte d) = crcByte d (loByte d) :=
    (eq_setWidth_of_crcByte_eq_zero h).trans (crcByte_loByte d).symm
  exact (crcByte_injective hlow).symm

/-- The residual of a frame with another CRC is not 0. -/
theorem crc16_frame_ne_zero {unit : Byte} {pdu : List Byte} {crc : U16} (h : crc ≠ aduCrc unit pdu) :
    crc16 (unit :: (pdu ++ putLe16 crc)) 0xFFFF ≠ 0 := by
  rw [← List.cons_append, crc16_append]
  exact mt crc16_putLe16_eq_zero h

end Sys2Proof

namespace Sys2Proof.Machine

/-- An instance that has captured a frame, after the silence that ends it (R121). -/
def Framer.captured (u : Byte) (bs : List Byte) (i : Framer) : Framer :=
  { i with
    rxUnit := u, rxCrc := crc16 (u :: bs) 0xFFFF, phase := .rxEof, rxbuf := bs, tmr1 := .stopped, tmr3 := .stopped
    evf := (i.evf &&& 0b0001) ||| 0b1100 }

/-- A frame that a check rejects, at an instance that waits for one: captured (`Framer.frame_waiting`), and its receive ended with
that check's status. -/
theorem State.wireArrival_rejected {s : State} {inst : U16} {i : Framer} {u : Byte} {bs : List Byte} {st : Status}
    (hi : s.framers[inst.toNat]? = some i) (hp : i.phase = .rxWaitStart) (ho : i.op = .rx) (hok : i.frameOk = true)
    (hb : i.rxbuf = []) (hf : i.rxfifo = []) (hl : bs.length ≤ 255) (hst : st ≠ .ok)
    (hv : (i.captured u bs).validate = (i.captured u bs).rxComplete st) :
    s.wireArrival inst (u :: bs) = { s with
      framers := s.framers.set inst.toNat
        { i.captured u bs with rxStatus := st, rxPduLen := 0, bcast := false, op := .none, phase := .idle }
      result := .rxFail inst.toNat st } := by
  have hframe : i.frame s.params (u :: bs) = (i.captured u bs).rxComplete st :=
    (Framer.frame_waiting s.params i u bs hp hf hb hl hok).trans hv
  exact State.act_rxFail hi ho hst (congrArg some hframe)

/-- An event at an instance that is idle after it: no controller step follows. -/
theorem Framer.eventSettle_idle {p : Params} {i j : Framer} {e : EnvEvent} (he : i.event e = some j) (hp : j.phase = .idle) :
    i.eventSettle p e = j := by
  simp only [Framer.eventSettle, he, settleSteps, Framer.settle, Framer.control_idle hp]

theorem Framer.eventSettle_expireT1p5_idle (p : Params) {i : Framer} (hr : i.tmr1 = .running) (hp : i.phase = .idle) :
    i.eventSettle p .expireT1p5 = { i with tmr1 := .stopped, evf := i.evf ||| 0b0100 } :=
  Framer.eventSettle_idle (Framer.event_expireT1p5 hr) hp

theorem Framer.eventSettle_expireT3p5_idle (p : Params) {i : Framer} (hr : i.tmr3 = .running) (hp : i.phase = .idle) :
    i.eventSettle p .expireT3p5 = { i with tmr3 := .stopped, evf := i.evf ||| 0b1000 } :=
  Framer.eventSettle_idle (Framer.event_expireT3p5 hr) hp

/-- A frame at an idle instance waits in `RXFIFO`, and both intervals of silence pass after it. -/
theorem Framer.frame_idle (p : Params) {i : Framer} (hp : i.phase = .idle) (b : Byte) (bs : List Byte) :
    i.frame p (b :: bs) = { i with
      rxfifo := i.rxfifo ++ b :: bs, evf := (i.evf &&& 0b0001) ||| 0b1110, tmr1 := .stopped, tmr3 := .stopped } := by
  have hevf : ∀ e : BitVec 4, e &&& 0b0001 ||| 2 ||| 0b0100 ||| 0b1000 = e &&& 0b0001 ||| 0b1110 := by decide
  simp only [Framer.frame, Framer.arrive_idle p b bs i hp, Framer.eventSettle_expireT1p5_idle,
    Framer.eventSettle_expireT3p5_idle, hp, hevf]

/-- Settles O20: another CRC leaves a residual (`crc16_frame_ne_zero`), another unit fails the last check, and an idle instance
takes no step (`Framer.frame_idle`). -/
theorem badFrameIsRejected : Obligations.BadFrameIsRejected := by
  unfold Obligations.BadFrameIsRejected
  intro s inst i unit pdu crc hi h1 h2 fails
  have hlen : (pdu ++ putLe16 crc).length = pdu.length + 2 := List.length_append
  have hfits : (pdu ++ putLe16 crc).length ≤ 255 := by omega
  have hwhole : 3 ≤ (pdu ++ putLe16 crc).length := by omega
  refine ⟨fun hp ho hok hb hf => ⟨fun hc => ?_, fun hc hu h0 => ?_⟩, fun hp => ?_⟩
  · refine congrArg Host.Outcome.next (State.wireArrival_rejected hi hp ho hok hb hf hfits (by decide) ?_)
    exact Framer.validate_crcFail hok hwhole (crc16_frame_ne_zero hc)
  · have hres : crc16 (unit :: (pdu ++ putLe16 crc)) 0xFFFF = 0 := by rw [hc, crc16_adu]
    refine congrArg Host.Outcome.next (State.wireArrival_rejected hi hp ho hok hb hf hfits (by decide) ?_)
    exact Framer.validate_slaveId hok hwhole hres hu h0
  · have hframe := Framer.frame_idle s.params hp unit (pdu ++ putLe16 crc)
    exact congrArg Host.Outcome.next (State.act_quiet hi (congrArg some hframe) rfl)

end Sys2Proof.Machine
end

section
/-! PROOF. A receive past its unit id ends once its timers expire (42_rtu_rx.md R127): what each controller step and each expiry
leaves of it, and the five of them in a row. -/

namespace Sys2Proof.Machine

/-! ### A receive past its unit id -/

/-- R127's premise on the timers, and what of the invariant a receive in RX_BODY or RX_EOF needs. -/
structure Framer.Capturing (i : Framer) : Prop where
  op : i.op = .rx
  phase : i.phase = .rxBody ∨ i.phase = .rxEof
  room : i.rxbuf.length ≤ 255
  t1p5 : i.tmr1 = .running ∨ i.evT1p5 = true
  t3p5 : i.tmr3 = .running ∨ i.evT3p5 = true

/-- The same with every byte taken. -/
structure Framer.Drained (i : Framer) : Prop extends i.Capturing where
  fifo : i.rxfifo = []

/-- What an action may do to a receive: leave it waiting, move it on, or end it. -/
inductive Framer.Progress (f : Framer → Option Framer) (Q : Framer → Prop) (i : Framer) : Prop
  | waits (h : f i = none) (q : Q i)
  | moves {j : Framer} (h : f i = some j) (ho : j.op = i.op) (q : Q j)
  | ends {j : Framer} (h : f i = some j) (hp : j.phase = .idle) (ho : j.op = .none)

theorem Framer.Progress.mono {f : Framer → Option Framer} {Q R : Framer → Prop} {i : Framer} (h : i.Progress f Q)
    (hqr : ∀ j, Q j → R j) : i.Progress f R := by
  cases h with
  | waits h q => exact .waits h (hqr _ q)
  | moves h ho q => exact .moves h ho (hqr _ q)
  | ends h hp ho => exact .ends h hp ho

/-! ### The flags of the timers -/

/-- Clearing `EV_RX` leaves the timers' flags. -/
theorem timerFlags_clear_evRx : ∀ e : BitVec 4,
    (e &&& 0b1101).getLsbD 2 = e.getLsbD 2 ∧ (e &&& 0b1101).getLsbD 3 = e.getLsbD 3 := by decide

theorem timerFlags_raise_evT1p5 : ∀ e : BitVec 4,
    (e ||| 0b0100).getLsbD 2 = true ∧ (e ||| 0b0100).getLsbD 3 = e.getLsbD 3 := by decide

theorem timerFlags_raise_evT3p5 : ∀ e : BitVec 4,
    (e ||| 0b1000).getLsbD 2 = e.getLsbD 2 ∧ (e ||| 0b1000).getLsbD 3 = true := by decide

/-! ### The controller steps and the expiries -/

theorem Framer.validate_ends (i : Framer) : i.validate.phase = .idle ∧ i.validate.op = .none := by
  obtain ⟨st, h | h⟩ := i.validate_cases <;> rw [h] <;> exact ⟨rfl, rfl⟩

/-- Step DRAIN takes every byte and touches neither timer nor its flag (R115). -/
theorem Framer.Capturing.rxDrain {i : Framer} (h : i.Capturing) : i.rxDrain.Drained := by
  obtain ⟨h2, h3⟩ := timerFlags_clear_evRx i.evf
  rw [Framer.rxDrain_eq h.room]
  refine ⟨⟨h.op, h.phase, ?_, h.t1p5.imp_right h2.trans, h.t3p5.imp_right h3.trans⟩, rfl⟩
  have := h.room
  simp only [List.length_append, List.length_take]
  omega

/-- The controller with no byte waiting: it leaves RX_BODY where EV_T1P5 is set, and RX_EOF where EV_T3P5 is. -/
theorem Framer.Drained.control (p : Params) {i : Framer} (h : i.Drained) :
    i.Progress (Framer.control p) fun j => j.Drained ∧ (i.evT1p5 = true → j.phase = .rxEof) ∧
      (i.phase = .rxEof → i.evT3p5 = false) := by
  rcases h.phase with hp | hp
  · have hbody : i.phase = .rxEof → i.evT3p5 = false := fun he => absurd (hp.symm.trans he) (by decide)
    cases h1 : i.evT1p5 with
    | true =>
      exact .moves (Framer.control_body_end hp h.fifo h1) rfl
        ⟨{ h with phase := .inr rfl }, fun _ => rfl, hbody⟩
    | false => exact .waits (Framer.control_body_wait hp h.fifo h1) ⟨h, nofun, hbody⟩
  · cases h3 : i.evT3p5 with
    | true =>
      obtain ⟨hidle, hnone⟩ := i.validate_ends
      exact .ends (Framer.control_eof_end hp h.fifo h3) hidle hnone
    | false => exact .waits (Framer.control_eof_wait hp h.fifo h3) ⟨h, fun _ => hp, fun _ => rfl⟩

/-- The controller takes the waiting bytes: RX_BODY stores them, RX_EOF ends at them. -/
theorem Framer.Capturing.control (p : Params) {i : Framer} (h : i.Capturing) :
    i.Progress (Framer.control p) Framer.Drained := by
  by_cases hf : i.rxfifo = []
  · exact (Framer.Drained.control p ⟨h, hf⟩).mono fun _ hj => hj.1
  · rcases h.phase with hp | hp
    · exact .moves (Framer.control_body_drain hp hf) (h.rxDrain.op.trans h.op.symm) h.rxDrain
    · exact .ends (Framer.control_eof_noise hp hf) rfl rfl

theorem Framer.Drained.expireT1p5 {i : Framer} (h : i.Drained) :
    i.Progress (Framer.event .expireT1p5) fun j => j.Drained ∧ j.evT1p5 = true := by
  obtain ⟨h2, h3⟩ := timerFlags_raise_evT1p5 i.evf
  cases hr : i.tmr1 with
  | running =>
    exact .moves (Framer.event_expireT1p5 hr) rfl
      ⟨{ h with t1p5 := .inr h2, t3p5 := h.t3p5.imp_right h3.trans }, h2⟩
  | stopped =>
    have hset : i.evT1p5 = true := h.t1p5.resolve_left (by rw [hr]; decide)
    exact .waits (if_neg (by rw [hr]; decide)) ⟨h, hset⟩

theorem Framer.Drained.expireT3p5 {i : Framer} (h : i.Drained) (hp : i.phase = .rxEof) :
    i.Progress (Framer.event .expireT3p5) fun j => j.Drained ∧ j.phase = .rxEof ∧ j.evT3p5 = true := by
  obtain ⟨h2, h3⟩ := timerFlags_raise_evT3p5 i.evf
  cases hr : i.tmr3 with
  | running =>
    exact .moves (Framer.event_expireT3p5 hr) rfl
      ⟨{ h with t1p5 := h.t1p5.imp_right h2.trans, t3p5 := .inr h3 }, hp, h3⟩
  | stopped =>
    have hset : i.evT3p5 = true := h.t3p5.resolve_left (by rw [hr]; decide)
    exact .waits (if_neg (by rw [hr]; decide)) ⟨h, hp, hset⟩

/-! ### The run -/

/-- The receive of instance `n` goes on as `P` says, or has ended with its result returned (R125). -/
def State.EndedOr (n : Nat) (P : Framer → Prop) (s : State) : Prop :=
  ∃ i, s.framers[n]? = some i ∧
    (i.op = .rx ∧ P i ∨ i.phase = .idle ∧ i.op = .none ∧ s.result = i.rxResult n)

/-- An action that leaves the outcome of a receive that has ended as it is. -/
def KeepsEnded (f : Framer → Option Framer) : Prop :=
  ∀ i j, i.phase = .idle → f i = some j → j.phase = i.phase ∧ j.op = i.op ∧ ∀ n, j.rxResult n = i.rxResult n

theorem keepsEnded_control (p : Params) : KeepsEnded (Framer.control p) := fun i j hp h => by
  rw [Framer.control_idle hp] at h
  cases h

theorem keepsEnded_expire {e : EnvEvent} (he : e = .expireT1p5 ∨ e = .expireT3p5) : KeepsEnded (Framer.event e) := by
  intro i j _ h
  rcases he with rfl | rfl
  all_goals
    simp only [Framer.event] at h
    split_ifs at h
    cases h
    exact ⟨rfl, rfl, fun _ => rfl⟩

/-- One action of the run. -/
theorem State.EndedOr.act {n : Nat} {P Q : Framer → Prop} {f : Framer → Option Framer} {s : State} (h : s.EndedOr n P)
    (hkeep : KeepsEnded f) (hf : ∀ i, P i → i.Progress f Q) : (s.act n f).EndedOr n Q := by
  obtain ⟨i, hi, ⟨ho, hP⟩ | ⟨hp, ho, hr⟩⟩ := h
  · cases hf i hP with
    | waits hw q =>
      rw [State.act_waits hi hw]
      exact ⟨i, hi, .inl ⟨ho, q⟩⟩
    | moves hm hop q =>
      rw [State.act_moves hi hm, State.moved_quiet hop]
      exact ⟨_, State.setFramer_same hi, .inl ⟨hop.trans ho, q⟩⟩
    | ends he hidle hnone =>
      rw [State.act_moves hi he, State.moved_rx ho hnone]
      exact ⟨_, State.setFramer_same hi, .inr ⟨hidle, hnone, rfl⟩⟩
  · cases hfi : f i with
    | none =>
      rw [State.act_waits hi hfi]
      exact ⟨i, hi, .inr ⟨hp, ho, hr⟩⟩
    | some j =>
      obtain ⟨hphase, hop, hres⟩ := hkeep i j hp hfi
      rw [State.act_moves hi hfi, State.moved_quiet hop]
      exact ⟨j, State.setFramer_same hi, .inr ⟨hphase.trans hp, hop.trans ho, hr.trans (hres n).symm⟩⟩

/-- A step of the controller, which reads the parameters of the state it acts on. -/
theorem State.EndedOr.controller {n : Nat} {P Q : Framer → Prop} {s : State} (h : s.EndedOr n P)
    (hf : ∀ p i, P i → i.Progress (Framer.control p) Q) : (s.act n (Framer.control s.params)).EndedOr n Q :=
  h.act (keepsEnded_control s.params) (hf s.params)

/-- Settles O21: the waiting bytes are taken, T1P5 brings the receive to RX_EOF and T3P5 ends it, unless it has ended before. -/
theorem receiveEndsAfterSilence : Obligations.ReceiveEndsAfterSilence := by
  unfold Obligations.ReceiveEndsAfterSilence
  intro s n i hi hinv hphase ht1 ht3
  obtain ⟨⟨hcommand, -⟩, -, -, ⟨hroom, -, -⟩, -, -⟩ := hinv
  have hop : i.op = .rx := by rcases hphase with hp | hp <;> rw [hcommand, hp] <;> rfl
  have h0 : s.EndedOr n Framer.Capturing := ⟨i, hi, .inl ⟨hop, hop, hphase, hroom, ht1, ht3⟩⟩
  have h1 := h0.controller fun p _ h => h.control p
  have h2 := h1.act (keepsEnded_expire (.inl rfl)) fun _ h => h.expireT1p5
  have h3 := h2.controller (Q := fun j => j.Drained ∧ j.phase = .rxEof) fun p _ ⟨h, hset⟩ =>
    (h.control p).mono fun _ ⟨hj, hend, _⟩ => ⟨hj, hend hset⟩
  have h4 := h3.act (keepsEnded_expire (.inr rfl)) fun _ ⟨h, hp⟩ => h.expireT3p5 hp
  have h5 := h4.controller (Q := fun _ => False) fun p _ ⟨h, hp, hset⟩ =>
    (h.control p).mono fun _ ⟨_, _, hwait⟩ => Bool.false_ne_true ((hwait hp).symm.trans hset)
  obtain ⟨j, hj, ⟨-, hfalse⟩ | ⟨hidle, hnone, hres⟩⟩ := h5
  · exact hfalse.elim
  · exact ⟨_, j, rfl, hj, hidle, hnone, hres⟩

end Sys2Proof.Machine
end

section
/-! PROOF. RTU_TX and its phases (43_rtu_tx.md R130 to R133): the registers that each action writes, its checks in R174's order, and
a whole transmission, in which the transmitter's steps empty `TXQ` (60_exceptions.md R178). -/

namespace Sys2Proof.Machine

/-! ### The registers that each action writes -/

theorem Framer.setDe_eq (p : Params) (v : Bool) (i : Framer) :
    i.setDe p v = { i with de := if p.dePresent then v else i.de } := by
  unfold Framer.setDe
  cases p.dePresent <;> rfl

/-- The registers that R130 writes; the ADU as its rule writes it out is `adu` by definition. -/
theorem Framer.txEnter_eq (p : Params) (unit : Byte) (pdu : List Byte) (i : Framer) :
    i.txEnter p unit pdu = { i with
      txUnit := unit
      txAdu := adu unit pdu
      op := .tx
      de := if p.dePresent then true else i.de
      evf := i.evf &&& 0b1110
      txq := i.txq ++ adu unit pdu
      phase := .txWaitDone } := by
  rw [Framer.txEnter, Framer.setDe_eq]
  rfl

/-- The registers that R132 writes. -/
theorem Framer.txRelease_eq (p : Params) (i : Framer) :
    i.txRelease p = { i with
      de := if p.dePresent then false else i.de, evf := i.evf &&& 0b0111, tmr3 := .running, phase := .txGuard } := by
  rw [Framer.txRelease, Framer.setDe_eq]
  rfl

/-! ### The enabled step of each phase -/

/-- The condition of the drain wait (R132). -/
theorem Framer.txDone_iff (p : Params) (i : Framer) :
    i.txDone p = true ↔ (p.txIrq = true ∧ i.evf.getLsbD 0 = true) ∨ (p.txIrq = false ∧ i.txq = []) := by
  cases h : p.txIrq <;> simp [Framer.txDone, Framer.evTxEmpty, Framer.txQueueEmpty, h]

theorem Framer.txDone_eq_false_iff (p : Params) (i : Framer) :
    i.txDone p = false ↔ (p.txIrq = true ∧ i.evf.getLsbD 0 = false) ∨ (p.txIrq = false ∧ i.txq ≠ []) := by
  cases h : p.txIrq <;> simp [Framer.txDone, Framer.evTxEmpty, Framer.txQueueEmpty, h]

theorem Framer.control_drain_end {p : Params} {i : Framer} (hp : i.phase = .txWaitDone) (h : i.txDone p = true) :
    i.control p = some (i.txRelease p) := by
  simp only [Framer.control, hp, h, if_true]

theorem Framer.control_drain_wait {p : Params} {i : Framer} (hp : i.phase = .txWaitDone) (h : i.txDone p = false) :
    i.control p = none := by
  simp only [Framer.control, hp, h, if_false, Bool.false_eq_true]

theorem Framer.control_guard_end {p : Params} {i : Framer} (hp : i.phase = .txGuard) (h : i.evT3p5 = true) :
    i.control p = some i.txFinish := by
  simp only [Framer.control, hp, h, if_true]

theorem Framer.control_guard_wait {p : Params} {i : Framer} (hp : i.phase = .txGuard) (h : i.evT3p5 = false) :
    i.control p = none := by
  simp only [Framer.control, hp, h, if_false, Bool.false_eq_true]

/-- One step of the transmitter (R178): the one that empties `TXQ` raises EV_TX_EMPTY. -/
theorem Framer.event_txStep {i : Framer} {b : Byte} {rest : List Byte} (h : i.txq = b :: rest) :
    i.event .txStep = some { i with
      wireOut := i.wireOut ++ [b], txq := rest, evf := if rest = [] then i.evf ||| 0b0001 else i.evf } := by
  simp only [Framer.event, h]
  split <;> rfl

/-! ### The entry (R130) -/

section Entry

variable {s : State} {inst : U16} {i : Framer} {pdu : BufRef} {len : U16}
variable (hi : s.framers[inst.toNat]? = some i) (hidle : i.op = .none)
include hi hidle

theorem exec_rtuTx_short (unit : Byte) (h : s.Short pdu len.toNat) :
    exec (.rtuTx inst unit pdu len) s = .next { s with refused := true, result := .refused .badBuffer } :=
  (onIdle_idle hi hidle).trans (unlessShort_short h)

variable (hbuf : ¬s.Short pdu len.toNat)
include hbuf

/-- With the buffer there, the checks that remain (R174). -/
theorem exec_rtuTx_whole (unit : Byte) :
    exec (.rtuTx inst unit pdu len) s =
      if len.toNat < 1 ∨ len.toNat > 253 then .next (s.txReturn inst.toNat .badArg i)
      else if i.down then .next (s.txReturn inst.toNat .down i)
      else withPdu pdu len.toNat s fun bs => .next (s.setFramer inst.toNat (i.txEnter s.params unit bs)) :=
  (onIdle_idle hi hidle).trans (unlessShort_ok hbuf)

theorem exec_rtuTx_badArg (unit : Byte) (h : len.toNat < 1 ∨ 253 < len.toNat) :
    exec (.rtuTx inst unit pdu len) s = .next (s.txReturn inst.toNat .badArg i) :=
  (exec_rtuTx_whole hi hidle hbuf unit).trans (if_pos h)

variable (h1 : 1 ≤ len.toNat) (h2 : len.toNat ≤ 253)
include h1 h2

theorem exec_rtuTx_down (unit : Byte) (hdown : i.down = true) :
    exec (.rtuTx inst unit pdu len) s = .next (s.txReturn inst.toNat .down i) := by
  rw [exec_rtuTx_whole hi hidle hbuf, if_neg (by omega), if_pos hdown]

/-- Every check passed, the bytes of the buffer are read. -/
theorem exec_rtuTx_reads (unit : Byte) (hup : i.down = false) :
    exec (.rtuTx inst unit pdu len) s =
      withPdu pdu len.toNat s fun bs => .next (s.setFramer inst.toNat (i.txEnter s.params unit bs)) := by
  rw [exec_rtuTx_whole hi hidle hbuf, if_neg (by omega), if_neg (ne_true_of_eq_false hup)]

end Entry

/-- RTU_TX with every check passed and its bytes there enters the transmission. -/
theorem exec_rtuTx_enters {s : State} {inst : U16} {i : Framer} {buf : BufRef} {len : U16} {p : List Byte}
    (hi : s.framers[inst.toNat]? = some i) (hidle : i.op = .none) (hup : i.down = false) (h1 : 1 ≤ len.toNat)
    (h2 : len.toNat ≤ 253) (hl : p.length = len.toNat) (hb : s.Holds buf p) (unit : Byte) :
    exec (.rtuTx inst unit buf len) s = .next (s.setFramer inst.toNat (i.txEnter s.params unit p)) :=
  (exec_rtuTx_reads hi hidle (not_short_of_holds hl.ge hb) h1 h2 unit hup).trans
    (withPdu_holds hl ⟨hb, fun _ => hl.trans_le h2⟩)

/-! ### A whole transmission -/

/-- An instance whose queued bytes the transmitter has sent (R178). -/
def Framer.transmitted (i : Framer) : Framer :=
  { i with wireOut := i.wireOut ++ i.txq, txq := [], evf := i.evf ||| 0b0001 }

/-- The last step of the transmitter ends the drain wait in both its forms: it empties `TXQ` and raises EV_TX_EMPTY. -/
theorem Framer.txDone_transmitted (p : Params) (i : Framer) : i.transmitted.txDone p = true := by
  have hset : ∀ e : BitVec 4, (e ||| 0b0001).getLsbD 0 = true := by decide
  rw [Framer.txDone_iff]
  cases p.txIrq
  · exact .inr ⟨rfl, rfl⟩
  · exact .inl ⟨rfl, hset i.evf⟩

section Run

variable {s : State} {n : Nat} {i : Framer} (hi : s.framers[n]? = some i)
include hi

/-- An action on an instance that has moved before: only its last value stays. -/
theorem State.act_setFramer {f : Framer → Option Framer} {j k : Framer} (h : f j = some k) :
    (s.setFramer n j).act n f = s.moved n j k := by
  rw [State.act_moves (State.setFramer_same hi) h]
  simp only [State.moved, State.setFramer, List.set_set]

theorem State.act_setFramer_quiet {f : Framer → Option Framer} {j k : Framer} (h : f j = some k) (ho : k.op = j.op) :
    (s.setFramer n j).act n f = s.setFramer n k :=
  (State.act_setFramer hi h).trans (State.moved_quiet ho)

/-- An event on an instance that ends no command, and the inputs after it. -/
theorem runInputs_env_quiet {e : EnvEvent} {rest : List Input} {j k : Framer} (h : j.event e = some k) (ho : k.op = j.op) :
    runInputs (.env n e :: rest) (s.setFramer n j) = runInputs rest (s.setFramer n k) :=
  congrArg (runInputs rest) (State.act_setFramer_quiet hi h ho)

/-- A controller step that ends no command, and the inputs after it. -/
theorem runInputs_controller_quiet {rest : List Input} {j k : Framer} (h : j.control s.params = some k)
    (ho : k.op = j.op) : runInputs (.controller n :: rest) (s.setFramer n j) = runInputs rest (s.setFramer n k) :=
  congrArg (runInputs rest) (State.act_setFramer_quiet hi h ho)

/-- As many steps of the transmitter as bytes are queued send all of them, in order. -/
theorem runInputs_txSteps {b : Byte} {rest : List Byte} {j : Framer} (hq : j.txq = b :: rest) :
    runInputs (List.replicate (rest.length + 1) (.env n .txStep)) (s.setFramer n j) =
      .next (s.setFramer n j.transmitted) := by
  induction rest generalizing b j with
  | nil =>
    refine (runInputs_env_quiet hi (Framer.event_txStep hq) rfl).trans ?_
    rw [Framer.transmitted, hq]
    rfl
  | cons c rest ih =>
    refine (runInputs_env_quiet hi (Framer.event_txStep hq) rfl).trans ((ih (b := c) rfl).trans ?_)
    simp only [Framer.transmitted, hq, List.append_assoc, List.singleton_append, List.cons_ne_nil, if_false]

/-- The guard completes the transmission with its status (R133). -/
theorem runInputs_guard {j : Framer} (hp : j.phase = .txGuard) (ho : j.op = .tx) (h3 : j.evT3p5 = true) :
    runInputs [.controller n] (s.setFramer n j) = .next ((s.setFramer n j.txFinish).ret (.tx n .ok)) :=
  congrArg Host.Outcome.next
    ((State.act_setFramer hi (Framer.control_guard_end hp h3)).trans (State.moved_tx ho rfl))

/-- Once all bytes are sent, the drain wait ends, the guard's timer expires and the guard completes (R132, R133, R176). -/
theorem runInputs_drain_guard {j : Framer} (hp : j.phase = .txWaitDone) (ho : j.op = .tx)
    (hdone : j.txDone s.params = true) :
    runInputs [.controller n, .env n .expireT3p5, .controller n] (s.setFramer n j) = .next
      { s with
        framers := s.framers.set n
          { j with
            de := if s.params.dePresent then false else j.de
            evf := j.evf &&& 0b0111 ||| 0b1000
            tmr3 := .stopped
            txStatus := .ok
            op := .none
            phase := .idle }
        result := .tx n .ok } := by
  have hflag : ∀ e : BitVec 4, (e ||| 0b1000).getLsbD 3 = true := by decide
  have hrelease := (Framer.control_drain_end hp hdone).trans (congrArg some (Framer.txRelease_eq s.params j))
  rw [runInputs_controller_quiet hi hrelease rfl, runInputs_env_quiet hi (Framer.event_expireT3p5 rfl) rfl]
  exact runInputs_guard hi rfl ho (hflag _)

end Run

/-! ### The obligations on RTU_TX and its phases -/

/-- Settles O25: the entry queues the ADU alone, `len + 3` steps send its bytes (`runInputs_txSteps`), and the drain wait and
the guard follow (`runInputs_drain_guard`). -/
theorem transmissionPutsAduOnWire : Obligations.TransmissionPutsAduOnWire := by
  unfold Obligations.TransmissionPutsAduOnWire
  intro s inst unit buf len i p hi hidle hup hq h1 h2 hl hb
  have hevf : ∀ e : BitVec 4, (e &&& 0b1110 ||| 0b0001) &&& 0b0111 ||| 0b1000 = e ||| 0b1001 := by decide
  have hlen : (p ++ putLe16 (aduCrc unit p)).length + 1 = len.toNat + 3 := by
    rw [List.length_append, hl]
    rfl
  have hqueue : (i.txEnter s.params unit p).txq = adu unit p := by rw [Framer.txEnter_eq, hq, List.nil_append]
  rw [exec_rtuTx_enters hi hidle hup h1 h2 hl hb, Out.andThen_next, runInputs_append, ← hlen,
    runInputs_txSteps hi hqueue, Out.andThen_next,
    runInputs_drain_guard hi rfl rfl (Framer.txDone_transmitted s.params _), Framer.txEnter_eq]
  simp only [Framer.transmitted, hq, List.nil_append, hevf, adu]
  cases s.params.dePresent <;> rfl

/-- Settles O23: the busy rule, then the checks in R174's order, and the entry of R130 written out. -/
theorem rtuTxEntry : Obligations.RtuTxEntry := by
  unfold Obligations.RtuTxEntry
  intro s inst unit pdu len i hi
  refine ⟨onIdle_busy hi, fun hidle => exec_rtuTx_short hi hidle unit, fun hidle hbuf => ⟨fun hlen => ?_,
    fun h1 h2 => ⟨fun hdown => ?_, fun hup => ⟨fun hu => ?_, fun p hl hb => ?_⟩⟩⟩⟩
  · exact exec_rtuTx_badArg hi hidle hbuf unit hlen
  · exact exec_rtuTx_down hi hidle hbuf h1 h2 unit hdown
  · exact (exec_rtuTx_reads hi hidle hbuf h1 h2 unit hup).trans (withPdu_unreadable hu)
  · rw [exec_rtuTx_enters hi hidle hup h1 h2 hl hb, Framer.txEnter_eq]
    rfl

/-- Settles O24: each phase ends under its condition (`Framer.txDone_iff` for the drain wait) and waits otherwise. -/
theorem txDrainAndGuard : Obligations.TxDrainAndGuard := by
  unfold Obligations.TxDrainAndGuard
  intro s n i hi
  refine ⟨fun hp => ⟨fun h => ?_, fun h => ?_⟩, fun hp ho => ⟨fun h3 => ?_, fun h3 => ?_⟩⟩
  · have hdone := (Framer.txDone_iff s.params i).mpr h
    rw [← Framer.txRelease_eq]
    exact congrArg Host.Outcome.next
      (State.act_quiet hi (Framer.control_drain_end hp hdone) (by rw [Framer.txRelease_eq]))
  · have hdone := (Framer.txDone_eq_false_iff s.params i).mpr h
    exact congrArg Host.Outcome.next (State.act_waits hi (Framer.control_drain_wait hp hdone))
  · exact congrArg Host.Outcome.next
      ((State.act_moves hi (Framer.control_guard_end hp h3)).trans (State.moved_tx ho rfl))
  · exact congrArg Host.Outcome.next (State.act_waits hi (Framer.control_guard_wait hp h3))

end Sys2Proof.Machine
end

section
/-! PROOF. The packings of bits and words (44_pdu_read.md R139, R140): what stands at each position, and that unpacking gives
back what was packed. -/

namespace Sys2Proof.Machine

/-! ### Bits -/

theorem pack_getLsbD {bits : List Bool} {q j k : Nat} (hj : j < ceil8 q) (hk : k < 8) :
    ((pack bits q).getD j 0).getLsbD k = (decide (8 * j + k < q) && bits.getD (8 * j + k) false) := by
  have hbyte : (pack bits q).getD j 0 = packByte fun k => decide (8 * j + k < q) && bits.getD (8 * j + k) false := by
    simp [pack, hj]
  rw [hbyte, packByte_getLsbD, decide_eq_true hk, Bool.true_and]

theorem unpack_getElem? {d : List Byte} {q i : Nat} (hi : i < q) :
    (unpack d q)[i]? = some ((d.getD (i / 8) 0).getLsbD (i % 8)) := by simp [unpack, hi]

/-- Position `i` stands in bit `i % 8` of byte `i / 8`, on both sides. -/
theorem unpack_pack {bits : List Bool} {q : Nat} (h : bits.length = q) : unpack (pack bits q) q = bits := by
  refine List.ext_getElem? fun i => ?_
  by_cases hi : i < q
  · have hj : i / 8 < ceil8 q := by unfold ceil8; omega
    rw [unpack_getElem? hi, pack_getLsbD hj (Nat.mod_lt i (by decide)), Nat.div_add_mod, decide_eq_true hi, Bool.true_and,
      List.getD_eq_getElem?_getD, List.getElem?_eq_getElem (h ▸ hi), Option.getD_some]
  · have hi : q ≤ i := Nat.le_of_not_lt hi
    rw [List.getElem?_eq_none (by simpa using hi), List.getElem?_eq_none (h ▸ hi)]

@[simp] theorem wordBool_boolWord (b : Bool) : wordBool (boolWord b) = b := by cases b <;> rfl

/-! ### Words -/

theorem wordsBe_succ (v : List U16) (q : Nat) : wordsBe v (q + 1) = wordsBe v q ++ putBe16 (v.getD q 0) := by
  simp [wordsBe, List.range_succ]

/-- Word `i` stands in the two bytes from `2 * i` on. -/
theorem wordsBe_getElem? {v : List U16} {q i k : Nat} (hi : i < q) (hk : k < 2) :
    (wordsBe v q)[2 * i + k]? = (putBe16 (v.getD i 0))[k]? := by
  induction q with
  | zero => cases hi
  | succ q ih =>
    rw [wordsBe_succ]
    rcases Nat.lt_succ_iff_lt_or_eq.mp hi with hi | rfl
    · rw [List.getElem?_append_left (by rw [wordsBe_length]; omega), ih hi]
    · rw [List.getElem?_append_right (by rw [wordsBe_length]; omega), wordsBe_length, Nat.add_sub_cancel_left]

theorem be16_wordsBe {v : List U16} {q i : Nat} (hi : i < q) : be16 (wordsBe v q) (2 * i) = v.getD i 0 := by
  have hh : (wordsBe v q)[2 * i]? = some (hiByte (v.getD i 0)) := wordsBe_getElem? (k := 0) hi (by decide)
  have hl : (wordsBe v q)[2 * i + 1]? = some (loByte (v.getD i 0)) := wordsBe_getElem? (k := 1) hi (by decide)
  rw [be16, List.getD_eq_getElem?_getD, List.getD_eq_getElem?_getD, hh, hl, Option.getD_some, Option.getD_some, word_hi_lo]

theorem unwordsBe_getElem? {d : List Byte} {q i : Nat} (hi : i < q) : (unwordsBe d q)[i]? = some (be16 d (2 * i)) := by
  simp [unwordsBe, hi]

theorem unwordsBe_wordsBe {v : List U16} {q : Nat} (h : v.length = q) : unwordsBe (wordsBe v q) q = v := by
  refine List.ext_getElem? fun i => ?_
  by_cases hi : i < q
  · rw [unwordsBe_getElem? hi, be16_wordsBe hi, List.getD_eq_getElem?_getD, List.getElem?_eq_getElem (h ▸ hi),
      Option.getD_some]
  · have hi : q ≤ i := Nat.le_of_not_lt hi
    rw [List.getElem?_eq_none (by simpa using hi), List.getElem?_eq_none (h ▸ hi)]

/-! ### The obligation -/

/-- Settles O52: each packing and unpacking position by position, and the two round trips from them. -/
theorem packingRoundTrips : Obligations.PackingRoundTrips := by
  unfold Obligations.PackingRoundTrips
  refine ⟨fun bits q => ⟨pack_length bits q, fun j hj k hk => pack_getLsbD hj hk, unpack_pack⟩,
    fun d q => ⟨unpack_length d q, fun i hi => unpack_getElem? hi⟩,
    fun v q => ⟨wordsBe_length v q, fun i hi => ⟨?_, ?_⟩, unwordsBe_wordsBe⟩,
    fun d q => ⟨unwordsBe_length d q, fun i hi => unwordsBe_getElem? hi⟩⟩
  · exact wordsBe_getElem? (k := 0) hi (by decide)
  · exact wordsBe_getElem? (k := 1) hi (by decide)

end Sys2Proof.Machine
end

section
/-! PROOF. The read requests (44_pdu_read.md R141 to R144): the answer of `readTable` check by check in R138's order, the rule it
gives each of its four instructions, and a read from the master's request to the parsed response (46_pdu_dispatch.md R153,
47_pdu_master.md R161, R166). -/

namespace Sys2Proof.Machine

/-! ### The checks of a read handler -/

section Checks

variable {t : TableId} {qmax : Nat} {enc : Nat → List U16 → List Byte} {p : Params} {pdu : List Byte} {h : HostState}
  {fc : Byte} {a q : U16}

theorem readTable_noGet (hg : (p.table t).hasGet = false) :
    readTable t qmax enc p pdu h = (.exc illegalFunction, h) := by
  simp only [readTable, hg, Bool.not_false, if_true]

theorem readTable_badLength (hg : (p.table t).hasGet = true) (hl : pdu.length ≠ 5) :
    readTable t qmax enc p pdu h = (.exc illegalDataValue, h) := by
  simp [readTable, hg, hl]

theorem readTable_badQuantity (hg : (p.table t).hasGet = true) (hq : q.toNat < 1 ∨ qmax < q.toNat) :
    readTable t qmax enc p (fc :: pairBody a q) h = (.exc illegalDataValue, h) := by
  simp only [readTable, hg, be16_pair_second', gt_iff_lt, if_pos hq]
  rfl

theorem readTable_badRange (hg : (p.table t).hasGet = true) (h1 : 1 ≤ q.toNat) (h2 : q.toNat ≤ qmax)
    (hr : (p.table t).size < a.toNat + q.toNat) :
    readTable t qmax enc p (fc :: pairBody a q) h = (.exc illegalDataAddress, h) := by
  have hq : ¬(q.toNat < 1 ∨ qmax < q.toNat) := by omega
  have hr : rangeOk a.toNat q.toNat (p.table t).size = false := decide_eq_false (Nat.not_le.mpr hr)
  simp only [readTable, hg, be16_pair_first', be16_pair_second', gt_iff_lt, if_neg hq, hr]
  rfl

theorem readTable_get (hg : (p.table t).hasGet = true) (h1 : 1 ≤ q.toNat) (h2 : q.toNat ≤ qmax)
    (hr : a.toNat + q.toNat ≤ (p.table t).size) :
    readTable t qmax enc p (fc :: pairBody a q) h = encodeGet (enc q.toNat) (hostGet t a.toNat q.toNat h) := by
  have hq : ¬(q.toNat < 1 ∨ qmax < q.toNat) := by omega
  have hr : rangeOk a.toNat q.toNat (p.table t).size = true := decide_eq_true hr
  simp only [readTable, hg, be16_pair_first', be16_pair_second', gt_iff_lt, if_neg hq, hr]
  rfl

end Checks

/-- An instruction that runs `readTable` on its function code and body keeps to the rule of a read request. -/
theorem readRule_of_exec {instr : List Byte → Instr} {t : TableId} {qmax : Nat} {enc : Nat → List U16 → List Byte}
    (fc : Byte)
    (he : ∀ body s, exec (instr body) s = .next (s.handled (readTable t qmax enc s.params (fc :: body) s.host))) :
    ReadRule instr t qmax enc := by
  intro s body
  refine ⟨fun hg => ?_, fun hg => ⟨fun hl => ?_, ?_⟩⟩
  · rw [he, readTable_noGet hg]; rfl
  · have hl : (fc :: body).length ≠ 5 := fun h => hl (Nat.succ.inj h)
    rw [he, readTable_badLength hg hl]; rfl
  · intro a q hb
    obtain rfl : body = pairBody a q := hb
    refine ⟨fun hq => ?_, fun h1 h2 hr => ?_, fun h1 h2 hr => ⟨fun vs h hok => ?_, fun x h hexc => ?_⟩⟩
    · rw [he, readTable_badQuantity hg hq]; rfl
    · rw [he, readTable_badRange hg h1 h2 hr]; rfl
    · rw [he, readTable_get hg h1 h2 hr, hok]; rfl
    · rw [he, readTable_get hg h1 h2 hr, hexc]; rfl

theorem readCoils_rule : ReadRule .readCoils .coils Config.readBitsMax (bitsResponse 0x01) :=
  readRule_of_exec 0x01 fun _ _ => rfl

theorem readDiscreteInputs_rule :
    ReadRule .readDiscreteInputs .discreteInputs Config.readBitsMax (bitsResponse 0x02) :=
  readRule_of_exec 0x02 fun _ _ => rfl

theorem readHoldingRegisters_rule :
    ReadRule .readHoldingRegisters .holdingRegisters Config.readRegsMax (regsResponse 0x03) :=
  readRule_of_exec 0x03 fun _ _ => rfl

theorem readInputRegisters_rule :
    ReadRule .readInputRegisters .inputRegisters Config.readRegsMax (regsResponse 0x04) :=
  readRule_of_exec 0x04 fun _ _ => rfl

/-- Settles O34: both instructions run `readTable` with `bitsResponse`. -/
theorem readBitsHandlers : Obligations.ReadBitsHandlers := by
  unfold Obligations.ReadBitsHandlers
  exact ⟨readCoils_rule, readDiscreteInputs_rule⟩

/-- Settles O35: both instructions run `readTable` with `regsResponse`. -/
theorem readRegistersHandlers : Obligations.ReadRegistersHandlers := by
  unfold Obligations.ReadRegistersHandlers
  exact ⟨readHoldingRegisters_rule, readInputRegisters_rule⟩

/-! ### The reference host -/

/-- A host with no answer decided answers from its tables (R153). -/
theorem hostGet_reference {t : TableId} {a q : Nat} {h : HostState} (ha : h.answers = []) :
    hostGet t a q h = (.ok (h.elems t a q), h.called (.get t a q)) := by simp only [hostGet, ha]

@[simp] theorem HostState.elems_length (t : TableId) (a q : Nat) (h : HostState) : (h.elems t a q).length = q := by
  simp [HostState.elems]

theorem HostState.map_wordBool_elems_coils (a q : Nat) (h : HostState) :
    (h.elems .coils a q).map wordBool = (List.range q).map fun k => h.coils.getD (a + k) false := by
  simp [HostState.elems, HostState.elem, Function.comp_def]

/-- A legal read served by a host with no answer decided: the elements of its table, encoded. -/
theorem ReadRule.reference {instr : List Byte → Instr} {t : TableId} {qmax : Nat} {enc : Nat → List U16 → List Byte}
    (hrule : ReadRule instr t qmax enc) {s : State} {a q : U16} (ha : s.host.answers = [])
    (hg : (s.params.table t).hasGet = true) (h1 : 1 ≤ q.toNat) (h2 : q.toNat ≤ qmax)
    (hr : a.toNat + q.toNat ≤ (s.params.table t).size) :
    exec (instr (pairBody a q)) s =
      .next (s.answeredOk (s.host.called (.get t a.toNat q.toNat))
        (enc q.toNat (s.host.elems t a.toNat q.toNat))) := by
  obtain ⟨-, hget⟩ := hrule s (pairBody a q)
  obtain ⟨-, hpair⟩ := hget hg
  obtain ⟨-, -, hlegal⟩ := hpair a q rfl
  obtain ⟨hok, -⟩ := hlegal h1 h2 hr
  exact hok _ _ (hostGet_reference ha)

/-! ### The master's side of a read -/

/-- PDU_BUILD_READ with a legal unit, function code and quantity (R161). -/
theorem exec_pduBuildRead_builds {unit fc : Byte} {a q : U16} {qmax : Nat} (s : State) (hu : unit ≠ 0)
    (hfc : readLimit fc = some qmax) (h1 : 1 ≤ q.toNat) (h2 : q.toNat ≤ qmax) :
    exec (.pduBuildRead unit fc a q) s = .next (s.built (fc :: pairBody a q)) := by
  have hq : ¬(q.toNat < 1 ∨ qmax < q.toNat) := by omega
  simp only [exec, execPduBuildRead, if_neg hu, hfc, gt_iff_lt, if_neg hq]

/-- The length of a PDU as an operand stands for itself. -/
theorem toNat_pduLength {bs : List Byte} (h : bs.length ≤ Config.maxPdu) :
    bs.length = (BitVec.ofNat 16 bs.length).toNat := by
  rw [BitVec.toNat_ofNat, Nat.mod_eq_of_lt (Nat.lt_of_le_of_lt h (by decide))]

/-- PDU_PARSE_RSP of two buffers that hold a request and a response that parse (R166). -/
theorem exec_pduParseRsp_parses {m : State} {ctx buf : BufRef} {c r : List Byte} {code : MasterCode} {d : ParseData}
    (hc : m.Holds ctx c) (hcl : c.length ≤ Config.maxPdu) (hr : m.Holds buf r) (hrl : r.length ≤ Config.maxPdu)
    (h : parseRsp c r = some (code, d)) :
    exec (.pduParseRsp ctx (BitVec.ofNat 16 c.length) buf (BitVec.ofNat 16 r.length)) m =
      .next (m.ret (.parse code d)) := by
  simp only [exec, execPduParseRsp, withPdu_holds (toNat_pduLength hcl) ⟨hc, fun _ => hcl⟩,
    withPdu_holds (toNat_pduLength hrl) ⟨hr, fun _ => hrl⟩, h]

theorem bitsResponse_length (fc : Byte) (q : Nat) (vs : List U16) : (bitsResponse fc q vs).length = 2 + ceil8 q := by
  simp only [bitsResponse, List.length_cons, pack_length]; omega

theorem regsResponse_length (fc : Byte) (q : Nat) (vs : List U16) : (regsResponse fc q vs).length = 2 + 2 * q := by
  simp only [regsResponse, List.length_cons, wordsBe_length]; omega

/-- A read-bits response of the right length and byte count (R166). -/
theorem parseBits_ok {fc : Byte} {a q : U16} {rsp : List Byte} (hl : rsp.length = 2 + ceil8 q.toNat)
    (hn : (rsp.getD 1 0).toNat = ceil8 q.toNat) :
    parseBits (fc :: pairBody a q) rsp = some (.ok, .bits (unpack (rsp.drop 2) q.toNat)) := by
  have hc : ¬(fc :: pairBody a q).length < 5 := by simp
  simp only [parseBits, be16_pair_second', if_neg hc, hl, hn, ne_eq, not_true_eq_false, or_self, if_false]

/-- A read-registers response of the right length and byte count (R166). -/
theorem parseRegs_ok {fc : Byte} {a q : U16} {rsp : List Byte} (hl : rsp.length = 2 + 2 * q.toNat)
    (hn : (rsp.getD 1 0).toNat = 2 * q.toNat) :
    parseRegs (fc :: pairBody a q) rsp = some (.ok, .words (unwordsBe (rsp.drop 2) q.toNat)) := by
  have hc : ¬(fc :: pairBody a q).length < 5 := by simp
  simp only [parseRegs, be16_pair_second', if_neg hc, hl, hn, ne_eq, not_true_eq_false, or_self, if_false]

/-- The response to a legal read of coils fits a PDU and parses to the bits packed in it (R75, R139, R166). -/
theorem parseRsp_bitsResponse {a q : U16} {vs : List U16} (hq : q.toNat ≤ Config.readBitsMax) (hv : vs.length = q.toNat) :
    (bitsResponse 0x01 q.toNat vs).length ≤ Config.maxPdu ∧
      parseRsp (0x01 :: pairBody a q) (bitsResponse 0x01 q.toNat vs) = some (.ok, .bits (vs.map wordBool)) := by
  have hlen := bitsResponse_length 0x01 q.toNat vs
  have hc : ceil8 q.toNat ≤ 250 := ceil8_le _ _ hq
  have hcount : ((bitsResponse 0x01 q.toNat vs).getD 1 0).toNat = ceil8 q.toNat :=
    (BitVec.toNat_ofNat ..).trans (Nat.mod_eq_of_lt (by omega))
  refine ⟨by rw [hlen, Config.maxPdu]; omega, ?_⟩
  calc parseRsp (0x01 :: pairBody a q) (bitsResponse 0x01 q.toNat vs)
      = parseBits (0x01 :: pairBody a q) (bitsResponse 0x01 q.toNat vs) := rfl
    _ = some (.ok, .bits (unpack (pack (vs.map wordBool) q.toNat) q.toNat)) := parseBits_ok hlen hcount
    _ = some (.ok, .bits (vs.map wordBool)) := by rw [unpack_pack (by rw [List.length_map, hv])]

/-- The response to a legal read of registers fits a PDU and parses to the words in it (R76, R140, R166). -/
theorem parseRsp_regsResponse {a q : U16} {vs : List U16} (hq : q.toNat ≤ Config.readRegsMax) (hv : vs.length = q.toNat) :
    (regsResponse 0x03 q.toNat vs).length ≤ Config.maxPdu ∧
      parseRsp (0x03 :: pairBody a q) (regsResponse 0x03 q.toNat vs) = some (.ok, .words vs) := by
  have hlen := regsResponse_length 0x03 q.toNat vs
  have hq : q.toNat ≤ 125 := hq
  have hcount : ((regsResponse 0x03 q.toNat vs).getD 1 0).toNat = 2 * q.toNat :=
    (BitVec.toNat_ofNat ..).trans (Nat.mod_eq_of_lt (by omega))
  refine ⟨by rw [hlen, Config.maxPdu]; omega, ?_⟩
  calc parseRsp (0x03 :: pairBody a q) (regsResponse 0x03 q.toNat vs)
      = parseRegs (0x03 :: pairBody a q) (regsResponse 0x03 q.toNat vs) := rfl
    _ = some (.ok, .words (unwordsBe (wordsBe vs q.toNat) q.toNat)) := parseRegs_ok hlen hcount
    _ = some (.ok, .words vs) := by rw [unwordsBe_wordsBe hv]

/-! ### A read from the request to the parsed response -/

/-- Settles O53: the master builds a legal request, the slave answers it with the reference host's elements
(`ReadRule.reference`), and these are what the response parses to (`parseRsp_regsResponse`, `parseRsp_bitsResponse`). -/
theorem masterReadsWhatSlaveHolds : Obligations.MasterReadsWhatSlaveHolds := by
  unfold Obligations.MasterReadsWhatSlaveHolds
  intro s unit a q hu ha h1
  have hreq (fc : Byte) : (fc :: pairBody a q).length ≤ Config.maxPdu := by simp [Config.maxPdu]
  refine ⟨fun hq hg hr => ?_, fun hq hg hr => ?_⟩
  · obtain ⟨hlen, hparse⟩ := parseRsp_regsResponse (a := a) hq (s.host.elems_length .holdingRegisters a.toNat q.toNat)
    exact ⟨pairBody a q, _, _, _, exec_pduBuildRead_builds s hu rfl h1 hq, rfl,
      readHoldingRegisters_rule.reference ha hg h1 hq hr, rfl, hlen,
      fun m ctx buf hc hb => exec_pduParseRsp_parses hc (hreq 0x03) hb hlen hparse⟩
  · obtain ⟨hlen, hparse⟩ := parseRsp_bitsResponse (a := a) hq (s.host.elems_length .coils a.toNat q.toNat)
    rw [HostState.map_wordBool_elems_coils] at hparse
    exact ⟨pairBody a q, _, _, _, exec_pduBuildRead_builds s hu rfl h1 hq, rfl,
      readCoils_rule.reference ha hg h1 hq hr, rfl, hlen,
      fun m ctx buf hc hb => exec_pduParseRsp_parses hc (hreq 0x01) hb hlen hparse⟩

end Sys2Proof.Machine
end

section
/-! PROOF. The write requests (45_pdu_write.md R146 to R150): the answer of `writeSingle`, `writeMulti` and `wrRw` check by check
in R138's order, and the rule these give the instructions that run them. -/

namespace Sys2Proof.Machine

theorem rangeOk_eq_false_iff {a q size : Nat} : rangeOk a q size = false ↔ size < a + q := by
  rw [rangeOk, decide_eq_false_iff_not, Nat.not_le]

/-! ### The checks of a write-single handler -/

section Single

variable {t : TableId} {legal : U16 → Bool} {value : U16 → U16} {p : Params} {pdu : List Byte} {h : HostState} {fc : Byte}
  {a v : U16}

theorem writeSingle_noSet (hs : (p.table t).hasSet = false) :
    writeSingle t legal value p pdu h = (.exc illegalFunction, h) := by
  simp only [writeSingle, hs, Bool.not_false, if_true]

theorem writeSingle_badLength (hs : (p.table t).hasSet = true) (hl : pdu.length ≠ 5) :
    writeSingle t legal value p pdu h = (.exc illegalDataValue, h) := by
  simp [writeSingle, hs, hl]

/-- Of a PDU of the right length, the checks of its own fields one by one, the value before the address (R146, R147). -/
theorem writeSingle_fields (hs : (p.table t).hasSet = true) :
    writeSingle t legal value p (fc :: pairBody a v) h =
      if legal v = false then (.exc illegalDataValue, h)
      else if (p.table t).size < a.toNat + 1 then (.exc illegalDataAddress, h)
      else answerSet (fc :: pairBody a v) (hostSet t a.toNat 1 [value v] h) := by
  have hlen : (fc :: pairBody a v).length = 5 := rfl
  have ht : (fc :: pairBody a v).take 5 = fc :: pairBody a v := rfl
  simp only [writeSingle, hs, be16_pair_first', be16_pair_second', hlen, ht, rangeOk_eq_false_iff, Bool.not_eq_true',
    Bool.true_eq_false, ne_eq, not_true_eq_false, if_false]

end Single

/-- An instruction that under `premise` runs `writeSingle` on its function code and body keeps to the rule of a write-single
request. -/
theorem writeSingleRule_of_exec {premise : State → Prop} {instr : List Byte → Instr} {fc : Byte} {t : TableId}
    {legal : U16 → Bool} {value : U16 → U16}
    (he : ∀ body s, premise s →
      exec (instr body) s = .next (s.handled (writeSingle t legal value s.params (fc :: body) s.host))) :
    WriteSingleRule premise instr fc t (fun v => legal v = true) value := by
  intro s body hp
  rw [he body s hp]
  refine ⟨fun hs => ?_, fun hs => ⟨fun hl => ?_, ?_⟩⟩
  · rw [writeSingle_noSet hs]; rfl
  · have hl : (fc :: body).length ≠ 5 := fun h => hl (Nat.succ.inj h)
    rw [writeSingle_badLength hs hl]; rfl
  · intro a v hb
    obtain rfl : body = pairBody a v := hb
    rw [writeSingle_fields hs]
    refine ⟨fun hv => ?_, fun hv hr => ?_, fun hv hr => ?_⟩
    · rw [if_pos (Bool.eq_false_of_not_eq_true hv)]; rfl
    · rw [if_neg (ne_false_of_eq_true hv), if_pos hr]; rfl
    · rw [if_neg (ne_false_of_eq_true hv), if_neg (Nat.not_lt.mpr hr)]
      refine ⟨fun h hok => ?_, fun x h hexc => ?_⟩
      · rw [hok]; rfl
      · rw [hexc]; rfl

/-- The values WRITE_SINGLE_COIL takes (R146). -/
theorem coilValue_legal_iff (v : U16) : (v == Config.coilOn || v == Config.coilOff) = true ↔ v = 0xFF00 ∨ v = 0x0000 := by
  rw [Bool.or_eq_true, beq_iff_eq, beq_iff_eq]; rfl

/-- The element a coil value stands for (R146). -/
theorem boolWord_coilOn (v : U16) : boolWord (v == Config.coilOn) = if v = 0xFF00 then 1 else 0 := by
  simp only [boolWord, beq_iff_eq, Config.coilOn]

theorem writeSingleCoil_rule :
    WriteSingleRule (fun _ => True) .writeSingleCoil 0x05 .coils (fun v => v = 0xFF00 ∨ v = 0x0000)
      (fun v => if v = 0xFF00 then 1 else 0) := by
  simpa only [coilValue_legal_iff, boolWord_coilOn] using
    writeSingleRule_of_exec (premise := fun _ => True) (instr := .writeSingleCoil) (fc := 0x05) fun _ _ _ => rfl

/-- Function code 0x06 where `SUPPORT_FC06` (R147). -/
theorem exec_writeSingleRegister_supported {s : State} (h6 : s.params.supportFc06 = true) (body : List Byte) :
    exec (.writeSingleRegister body) s = .next (s.handled (wrReg s.params (0x06 :: body) s.host)) := by
  simp only [exec, execWriteSingleRegister, wrReg06, h6, if_true]

/-- Function code 0x06 without `SUPPORT_FC06` (R147). -/
theorem exec_writeSingleRegister_unsupported {s : State} (h6 : s.params.supportFc06 = false) (body : List Byte) :
    exec (.writeSingleRegister body) s = exec (.vendor 0x06 body) s := by
  simp only [exec, execWriteSingleRegister, execVendor, wrReg06, h6, Bool.false_eq_true, if_false]

theorem writeSingleRegister_rule :
    WriteSingleRule (fun s => s.params.supportFc06 = true) .writeSingleRegister 0x06 .holdingRegisters (fun _ => True)
      (fun v => v) := by
  simpa only using writeSingleRule_of_exec (legal := fun _ => true) fun body s h6 => exec_writeSingleRegister_supported h6 body

/-- Settles O36: both instructions run `writeSingle`, the second where `SUPPORT_FC06`. -/
theorem writeSingleHandlers : Obligations.WriteSingleHandlers := by
  unfold Obligations.WriteSingleHandlers
  exact ⟨writeSingleCoil_rule, writeSingleRegister_rule, fun _ body h6 => exec_writeSingleRegister_unsupported h6 body⟩

/-! ### The checks of a write-multiple handler -/

section Multi

variable {t : TableId} {qmax : Nat} {count : Nat → Nat} {dec : List Byte → Nat → List U16} {p : Params} {pdu : List Byte}
  {h : HostState} {fc : Byte} {a q : U16} {n : Byte} {data : List Byte}

theorem writeMulti_noSet (hs : (p.table t).hasSet = false) :
    writeMulti t qmax count dec p pdu h = (.exc illegalFunction, h) := by
  simp only [writeMulti, hs, Bool.not_false, if_true]

theorem writeMulti_short (hs : (p.table t).hasSet = true) (hl : pdu.length < 6) :
    writeMulti t qmax count dec p pdu h = (.exc illegalDataValue, h) := by
  simp [writeMulti, hs, hl]

/-- Of a PDU with a byte count, R148's checks one by one: all those of its own fields have one exception. -/
theorem writeMulti_fields (hs : (p.table t).hasSet = true) :
    writeMulti t qmax count dec p (fc :: (pairBody a q ++ n :: data)) h =
      if q.toNat < 1 ∨ qmax < q.toNat ∨ n.toNat ≠ count q.toNat ∨ data.length ≠ n.toNat then (.exc illegalDataValue, h)
      else if (p.table t).size < a.toNat + q.toNat then (.exc illegalDataAddress, h)
      else answerSet (fc :: pairBody a q) (hostSet t a.toNat q.toNat (dec data q.toNat) h) := by
  have hlen : (fc :: (pairBody a q ++ n :: data)).length = 6 + data.length := by simp; omega
  have hlong : ¬6 + data.length < 6 := by omega
  have hn : (fc :: (pairBody a q ++ n :: data)).getD 5 0 = n := rfl
  have hd : (fc :: (pairBody a q ++ n :: data)).drop 6 = data := rfl
  have ht : (fc :: (pairBody a q ++ n :: data)).take 5 = fc :: pairBody a q := rfl
  simp only [writeMulti, hs, be16_pair_first, be16_pair_second, hlen, hn, hd, ht, hlong, rangeOk_eq_false_iff, ite_or,
    Bool.not_eq_true', Bool.true_eq_false, if_false, gt_iff_lt, ne_eq, Nat.add_left_cancel_iff]

end Multi

/-- An instruction that runs `writeMulti` on its function code and body keeps to the rule of a write-multiple request. -/
theorem writeMultiRule_of_exec {instr : List Byte → Instr} {t : TableId} {qmax : Nat} {count : Nat → Nat}
    {dec : List Byte → Nat → List U16} (fc : Byte)
    (he : ∀ body s, exec (instr body) s =
      .next (s.handled (writeMulti t qmax count dec s.params (fc :: body) s.host))) :
    WriteMultiRule instr fc t qmax count dec := by
  intro s body
  rw [he]
  refine ⟨fun hs => ?_, fun hs => ⟨fun hl => ?_, ?_⟩⟩
  · rw [writeMulti_noSet hs]; rfl
  · have hl : (fc :: body).length < 6 := Nat.succ_lt_succ hl
    rw [writeMulti_short hs hl]; rfl
  · intro a q n data hb
    obtain rfl : body = pairBody a q ++ n :: data := hb
    rw [writeMulti_fields hs]
    refine ⟨fun hbad => ?_, fun h1 h2 hn hl => ?_⟩
    · rw [if_pos hbad]; rfl
    · rw [if_neg (by omega)]
      refine ⟨fun hr => ?_, fun hr => ?_⟩
      · rw [if_pos hr]; rfl
      · rw [if_neg (Nat.not_lt.mpr hr)]
        refine ⟨fun h hok => ?_, fun x h hexc => ?_⟩
        · rw [hok]; rfl
        · rw [hexc]; rfl

/-- Settles O37: both instructions run `writeMulti`. -/
theorem writeMultipleHandlers : Obligations.WriteMultipleHandlers := by
  unfold Obligations.WriteMultipleHandlers
  exact ⟨writeMultiRule_of_exec 0x0F fun _ _ => rfl, writeMultiRule_of_exec 0x10 fun _ _ => rfl⟩

/-! ### The checks of the read/write handler -/

section ReadWrite

variable {p : Params} {pdu : List Byte} {h : HostState} {fc : Byte} {ra rq wa wq : U16} {n : Byte} {data : List Byte}

theorem wrRw_noCapability (hc : p.holdingRegisters.hasGet = false ∨ p.holdingRegisters.hasSet = false) :
    wrRw p pdu h = (.exc illegalFunction, h) := by
  have hc : (p.holdingRegisters.hasGet && p.holdingRegisters.hasSet) = false := Bool.and_eq_false_iff.mpr hc
  simp only [wrRw, Params.table, hc, Bool.not_false, if_true]

theorem wrRw_short (hg : p.holdingRegisters.hasGet = true) (hs : p.holdingRegisters.hasSet = true)
    (hl : pdu.length < 10) : wrRw p pdu h = (.exc illegalDataValue, h) := by
  simp [wrRw, Params.table, hg, hs, hl]

/-- Of a PDU with a byte count, R150's checks one by one, all before the write. -/
theorem wrRw_fields (hg : p.holdingRegisters.hasGet = true) (hs : p.holdingRegisters.hasSet = true) :
    wrRw p (fc :: (pairBody ra rq ++ (pairBody wa wq ++ n :: data))) h =
      if wq.toNat < 1 ∨ 121 < wq.toNat ∨ n.toNat ≠ 2 * wq.toNat ∨ data.length ≠ n.toNat ∨ rq.toNat < 1 ∨
          125 < rq.toNat then (.exc illegalDataValue, h)
      else if p.holdingRegisters.size < wa.toNat + wq.toNat ∨ p.holdingRegisters.size < ra.toNat + rq.toNat then
        (.exc illegalDataAddress, h)
      else thenGet ra.toNat rq.toNat (hostSet .holdingRegisters wa.toNat wq.toNat (unwordsBe data wq.toNat) h) := by
  have hlen : (fc :: (pairBody ra rq ++ (pairBody wa wq ++ n :: data))).length = 10 + data.length := by simp; omega
  have hlong : ¬10 + data.length < 10 := by omega
  have hwa : be16 (fc :: (pairBody ra rq ++ (pairBody wa wq ++ n :: data))) 5 = wa := word_hi_lo wa
  have hwq : be16 (fc :: (pairBody ra rq ++ (pairBody wa wq ++ n :: data))) 7 = wq := word_hi_lo wq
  have hn : (fc :: (pairBody ra rq ++ (pairBody wa wq ++ n :: data))).getD 9 0 = n := rfl
  have hd : (fc :: (pairBody ra rq ++ (pairBody wa wq ++ n :: data))).drop 10 = data := rfl
  simp only [wrRw, Params.table, hg, hs, be16_pair_first, be16_pair_second, hlen, hwa, hwq, hn, hd, hlong,
    rangeOk_eq_false_iff, ite_or, Config.rwWriteMax, Config.rwReadMax, Bool.and_self, Bool.not_eq_true',
    Bool.true_eq_false, if_false, gt_iff_lt, ne_eq, Nat.add_left_cancel_iff]

end ReadWrite

theorem exec_readWriteMultipleRegisters (body : List Byte) (s : State) :
    exec (.readWriteMultipleRegisters body) s = .next (s.handled (wrRw s.params (0x17 :: body) s.host)) := rfl

/-- Settles O38: the checks are `wrRw_fields`; after them the write's answer decides whether the read runs, on the host that
the write left. -/
theorem readWriteMultipleHandler : Obligations.ReadWriteMultipleHandler := by
  unfold Obligations.ReadWriteMultipleHandler
  intro s body
  simp only [exec_readWriteMultipleRegisters]
  refine ⟨fun hc => ?_, fun hg hs => ⟨fun hl => ?_, ?_⟩⟩
  · rw [wrRw_noCapability hc]; rfl
  · have hl : (0x17 :: body).length < 10 := Nat.succ_lt_succ hl
    rw [wrRw_short hg hs hl]; rfl
  · intro ra rq wa wq n data hb
    obtain rfl : body = pairBody ra rq ++ (pairBody wa wq ++ n :: data) := hb
    rw [wrRw_fields hg hs]
    refine ⟨fun hbad => ?_, fun hw1 hw2 hn hl hr1 hr2 => ?_⟩
    · rw [if_pos hbad]; rfl
    · rw [if_neg (by omega)]
      refine ⟨fun hr => ?_, fun hwr hrr => ?_⟩
      · rw [if_pos hr]; rfl
      · rw [if_neg (by omega)]
        refine ⟨fun x h hexc => ?_, fun h hset => ?_⟩
        · rw [hexc]; rfl
        · rw [hset, thenGet]
          refine ⟨fun x h' hexc => ?_, fun vs h' hok => ?_⟩
          · rw [hexc]; rfl
          · rw [hok]; rfl

end Sys2Proof.Machine
end

section
/-! PROOF. DIAGNOSTICS and VENDOR (46_pdu_dispatch.md R158, R159), the exception response (R156), and PDU_SERVE (R154): what it
makes of a request is what the request run as an instruction answers (notes/assumptions/20.md), encoded. -/

namespace Sys2Proof.Machine

/-! ### DIAGNOSTICS -/

theorem exec_diagnostics (body : List Byte) (s : State) :
    exec (.diagnostics body) s = .next (s.handled (diag (0x08 :: body) s.host)) := rfl

theorem diag_short {pdu : List Byte} (h : HostState) (hl : pdu.length < 3) : diag pdu h = (.exc illegalDataValue, h) :=
  if_pos hl

/-- A request that has its sub-function: only the loopback is answered, by itself (R158). -/
theorem diag_sub (fc : Byte) (sub : U16) (data : List Byte) (h : HostState) :
    diag (fc :: (putBe16 sub ++ data)) h =
      if sub ≠ 0x0000 then (.exc illegalFunction, h) else (.ok (fc :: (putBe16 sub ++ data)), h) := by
  have hlong : ¬(fc :: (putBe16 sub ++ data)).length < 3 := by simp
  have hsub : be16 (fc :: (putBe16 sub ++ data)) 1 = sub := word_hi_lo sub
  rw [diag, if_neg hlong, hsub]
  rfl

/-- Settles O39: the length check, and the two answers to a whole sub-function. -/
theorem diagnosticsHandler : Obligations.DiagnosticsHandler := by
  unfold Obligations.DiagnosticsHandler
  intro s body
  rw [exec_diagnostics]
  refine ⟨fun hl => ?_, ?_⟩
  · have hl : (0x08 :: body).length < 3 := Nat.succ_lt_succ hl
    rw [diag_short s.host hl]; rfl
  · rintro sub data rfl
    rw [diag_sub]
    refine ⟨fun hsub => ?_, fun hsub => ?_⟩
    · rw [if_pos hsub]; rfl
    · rw [if_neg (not_not.mpr hsub)]; rfl

/-! ### VENDOR -/

theorem exec_vendor (fc : Byte) (body : List Byte) (s : State) :
    exec (.vendor fc body) s = .next (s.handled (vendorHandler s.params (fc :: body) s.host)) := rfl

theorem vendorHandler_noEntry {p : Params} {fc : Byte} (body : List Byte) (h : HostState) (hfc : fc ∉ p.vendor) :
    vendorHandler p (fc :: body) h = (.exc illegalFunction, h) := by
  have hnone : p.vendor.findIdx? (· == fc) = none :=
    List.findIdx?_eq_none_iff.mpr fun x hx => beq_false_of_ne fun hxfc => hfc (hxfc ▸ hx)
  simp only [vendorHandler, List.headD_cons, hnone]

/-- The least index of `VENDOR` with the function code is the entry called (R159). -/
theorem vendorHandler_entry {p : Params} {fc : Byte} {k : Nat} (body : List Byte) (h : HostState)
    (hk : p.vendor[k]? = some fc) (hfirst : ∀ j < k, p.vendor[j]? ≠ some fc) :
    vendorHandler p (fc :: body) h = answerVendor (hostVendor k (fc :: body) h) := by
  obtain ⟨hlt, hget⟩ := List.getElem?_eq_some_iff.mp hk
  have hsome : p.vendor.findIdx? (· == fc) = some k := by
    refine List.findIdx?_eq_some_iff_getElem.mpr ⟨hlt, beq_iff_eq.mpr hget, fun j hj hbeq => hfirst j hj ?_⟩
    rw [List.getElem?_eq_getElem (Nat.lt_trans hj hlt), beq_iff_eq.mp hbeq]
  simp only [vendorHandler, List.headD_cons, hsome]

theorem answerVendor_fits {rsp : List Byte} (h : HostState) (h1 : 1 ≤ rsp.length) (h2 : rsp.length ≤ 253) :
    answerVendor (.ok rsp, h) = (.ok rsp, h) :=
  (if_neg (Nat.ne_of_gt h1)).trans (if_neg (Nat.not_lt.mpr h2))

theorem answerVendor_overlong {rsp : List Byte} (h : HostState) (hl : 253 < rsp.length) :
    answerVendor (.ok rsp, h) = (.refuse .vendorOverlong, h) :=
  (if_neg (Nat.ne_zero_of_lt hl)).trans (if_pos hl)

/-- Settles O40: no entry, or the first entry's callback and what `answerVendor` makes of each answer. -/
theorem vendorHandler_rule : Obligations.VendorHandler := by
  unfold Obligations.VendorHandler
  intro s fc body
  rw [exec_vendor]
  refine ⟨fun hfc => ?_, fun k hk hfirst => ?_⟩
  · rw [vendorHandler_noEntry body s.host hfc]; rfl
  · rw [vendorHandler_entry body s.host hk hfirst]
    refine ⟨fun x h hexc => ?_, fun h hnone => ?_, fun rsp h hok h1 h2 => ?_, fun rsp h hok hl => ?_⟩
    · rw [hexc]; rfl
    · rw [hnone]; rfl
    · rw [hok, answerVendor_fits h h1 h2]; rfl
    · rw [hok, answerVendor_overlong h hl]; rfl

/-! ### PDU_EXC -/

/-- The exception bit of a function code is bit 7 (30_encoding.md R84). -/
theorem exceptionBit_getLsbD (i : Nat) : (0x80 : Byte).getLsbD i = decide (i = 7) :=
  (BitVec.getLsbD_twoPow 7 i (w := 8)).trans (by simp [eq_comm])

/-- Settles O45: the two bytes are `excPdu`; the exception bit is the single bit 7. -/
theorem pduExcEncodes : Obligations.PduExcEncodes := by
  unfold Obligations.PduExcEncodes
  refine fun s fc x => ⟨rfl, fun hbit => BitVec.eq_of_getLsbD_eq fun i _ => ?_, ?_⟩
  · rw [BitVec.getLsbD_or, exceptionBit_getLsbD]
    by_cases hi : i = 7
    · rw [hi, hbit]; rfl
    · rw [decide_eq_false hi, Bool.or_false]
  · rw [BitVec.getLsbD_or, exceptionBit_getLsbD, decide_eq_true rfl, Bool.or_true]

/-! ### What a handler's result becomes -/

/-- Of a request run as an instruction, the result is the handler's answer. -/
theorem State.answer_of_handled {r : Handling} {s : State} {y : Handled} (h : (s.handled r).result = .handler y) :
    r.1 = y := by
  obtain ⟨z, k⟩ := r
  cases z with
  | refuse why => cases h
  | _ => cases h; rfl

theorem State.refusal_of_handled {r : Handling} {s : State} {why : Reason} (h : (s.handled r).result = .refused why) :
    r.1 = .refuse why := by
  obtain ⟨z, k⟩ := r
  cases z with
  | refuse why => cases h; rfl
  | _ => cases h

@[simp] theorem State.handled_host (r : Handling) (s : State) : (s.handled r).host = r.2 := by
  obtain ⟨z, k⟩ := r
  cases z <;> rfl

/-! ### PDU_SERVE -/

section Serve

variable {s : State} {buf : BufRef} {len : U16} {bcast : Bool} {fc : Byte} {body : List Byte}

theorem exec_pduServe_overlong (hl : 253 < len.toNat) : exec (.pduServe buf len bcast) s = .next (s.refuse .badLen) :=
  if_pos hl

/-- Of an operand within `MAX_PDU`, the bytes asked for are read first. -/
theorem exec_pduServe_reads (hl : len.toNat ≤ 253) :
    exec (.pduServe buf len bcast) s = withPdu buf len.toNat s fun bs => .next (s.serve bcast bs) :=
  if_neg (Nat.not_lt.mpr hl)

theorem exec_pduServe_holds {bs : List Byte} (hl : len.toNat ≤ 253) (hlen : bs.length = len.toNat) (hb : s.Holds buf bs) :
    exec (.pduServe buf len bcast) s = .next (s.serve bcast bs) := by
  rw [exec_pduServe_reads hl, withPdu_holds hlen ⟨hb, fun _ => hlen ▸ hl⟩]

/-- A broadcast read is not dispatched (R145). -/
theorem State.serve_broadcastRead (hfc : fc ∈ readCodes) : s.serve true (fc :: body) = s.ret .noReply :=
  if_pos (List.contains_iff_mem.mpr hfc)

theorem State.serve_dispatches (h : bcast = false ∨ fc ∉ readCodes) :
    s.serve bcast (fc :: body) = s.served fc bcast (dispatch s.params (fc :: body) s.host) := by
  have hskip : (bcast && readCodes.contains fc) = false := by
    rcases h with h | h
    · rw [h, Bool.false_and]
    · rw [Bool.eq_false_of_not_eq_true (mt List.contains_iff_mem.mp h), Bool.and_false]
  simp only [State.serve, hskip, Bool.false_eq_true, if_false]

theorem State.served_ok {r : Handling} {rsp : List Byte} (h : r.1 = .ok rsp) :
    s.served fc bcast r = { s with host := r.2 }.reply bcast rsp := by simp only [State.served, h]

theorem State.served_exc {r : Handling} {x : Byte} (h : r.1 = .exc x) :
    s.served fc bcast r = { s with host := r.2 }.reply bcast [fc ||| 0x80, x] := by simp only [State.served, h]; rfl

theorem State.served_noResponse {r : Handling} (h : r.1 = .noResponse) :
    s.served fc bcast r = { s with host := r.2, result := .noReply } := by simp only [State.served, h]; rfl

/-- A refused response is refused alike in PDU_SERVE and in the request run as an instruction. -/
theorem State.served_refuse {r : Handling} {why : Reason} (h : r.1 = .refuse why) :
    s.served fc bcast r = s.handled r := by simp only [State.served, State.handled, h]

/-- A reply goes into the response buffer, or nowhere after a broadcast (R151). -/
theorem State.next_reply (h : HostState) (rsp : List Byte) :
    (bcast = true →
      (.next ({ s with host := h }.reply bcast rsp) : Out) = .next { s with host := h, result := .noReply }) ∧
    (bcast = false →
      (.next ({ s with host := h }.reply bcast rsp) : Out) = .next
        { s with host := h, mem := s.mem.writes (bufAddr responseBuffer 0) rsp, result := .response rsp }) := by
  constructor
  · rintro rfl; rfl
  · rintro rfl; rfl

end Serve

/-- Settles O41: the checks of the operand, the broadcast read, and the handler that the request instruction also runs
(`exec_requestOf`), its answer by answer. -/
theorem pduServeDispatches : Obligations.PduServeDispatches := by
  unfold Obligations.PduServeDispatches
  intro s buf len bcast run
  refine ⟨exec_pduServe_overlong, fun hl => ⟨fun hs => ?_, fun hu => ?_, fun h0 => ?_, fun fc body hlen hb => ?_⟩⟩
  · exact (exec_pduServe_reads hl).trans (withPdu_short (.inl hs))
  · exact (exec_pduServe_reads hl).trans (withPdu_unreadable hu)
  · exact exec_pduServe_holds hl (h0 ▸ rfl) (State.holds_nil buf s)
  · have hserve : run = .next (s.serve bcast (fc :: body)) := exec_pduServe_holds hl hlen hb
    refine ⟨?_, fun hd => ?_⟩
    · rintro rfl hfc
      exact hserve.trans (congrArg Host.Outcome.next (State.serve_broadcastRead hfc))
    · rw [State.serve_dispatches hd] at hserve
      refine ⟨_, _, exec_requestOf fc body s, hserve, fun rsp hu => ?_, fun x hu => ?_, fun hu => ?_, fun why hu => ?_⟩
      · rw [hserve, State.served_ok (State.answer_of_handled hu), State.handled_host]
        exact State.next_reply _ rsp
      · rw [hserve, State.served_exc (State.answer_of_handled hu), State.handled_host]
        exact State.next_reply _ _
      · rw [hserve, State.served_noResponse (State.answer_of_handled hu), State.handled_host]
      · rw [hserve, State.served_refuse (State.refusal_of_handled hu)]

end Sys2Proof.Machine
end

section
/-! PROOF. The host's capabilities (46_pdu_dispatch.md R152, R153, R157): which calls an instruction makes, what the reference
host does, and where an exception code comes from. -/

namespace Sys2Proof.Machine

/-! ### The calls of an instruction -/

/-- From `h` to `h'` a host has noted at most one call of each capability, each one that R152 allows. -/
def CallsAllowed (p : Params) (h h' : HostState) : Prop :=
  ∃ new, h'.calls = h.calls ++ new ∧
    (new.filter HostCall.isGet).length ≤ 1 ∧
    (new.filter HostCall.isSet).length ≤ 1 ∧
    (new.filter HostCall.isVendor).length ≤ 1 ∧
    (∀ tb a q, HostCall.get tb a q ∈ new → (p.table tb).hasGet = true ∧ 1 ≤ q ∧ a + q ≤ (p.table tb).size) ∧
    (∀ tb a q v, HostCall.set tb a q v ∈ new →
      (p.table tb).hasSet = true ∧ 1 ≤ q ∧ a + q ≤ (p.table tb).size ∧ v.length = q) ∧
    (∀ k req, HostCall.vendor k req ∈ new → req ≠ [] ∧ p.vendor[k]? = some (req.headD 0))

theorem CallsAllowed.none (p : Params) (h : HostState) : CallsAllowed p h h :=
  ⟨[], by simp, by simp, by simp, by simp, nofun, nofun, nofun⟩

/-- The host of `t` is that of `s`: no capability has been called. -/
def HostKept (s t : State) : Prop := t.host = s.host

theorem HostKept.callsAllowed {s t : State} (h : HostKept s t) : CallsAllowed s.params s.host t.host := by
  rw [h]; exact .none _ _

theorem CrcEffect.hostKept {s t : State} (h : CrcEffect s t) : HostKept s t := by
  cases h with
  | mk => rfl

theorem FramerEffect.hostKept {s t : State} {n : Option Nat} (h : FramerEffect s n t) : HostKept s t := by
  cases h with
  | mk => rfl

/-- Of the codec commands, only PDU_SERVE calls the host. -/
theorem exec_codec_hostKept {s : State} {i : Instr} (h : family i = .codec)
    (hi : ∀ pdu len bcast, i ≠ .pduServe pdu len bcast) : Ensures (HostKept s) (exec i s) := by
  have kept {t : State} (ht : t.host = s.host) : Ensures (HostKept s) (.next t) := .next ht
  cases i with
  | pduServe pdu len bcast => exact absurd rfl (hi pdu len bcast)
  | pduExc fc x => exact kept rfl
  | pduBuildRead unit fc a q =>
    simp only [exec, execPduBuildRead]
    split
    · exact kept rfl
    · split
      · exact kept rfl
      · split <;> exact kept rfl
  | pduBuildWriteSingle fc a v =>
    simp only [exec, execPduBuildWriteSingle]
    split_ifs <;> exact kept rfl
  | pduBuildWriteMulti fc a q data =>
    simp only [exec, execPduBuildWriteMulti]
    split_ifs <;> exact kept rfl
  | pduBuildLoopback data dlen =>
    refine .unlessShort rfl ?_
    split
    · exact kept rfl
    · exact .withPdu rfl fun _ => kept rfl
  | pduBuildRaw data dlen =>
    refine .unlessShort rfl ?_
    split
    · exact kept rfl
    · exact .withPdu rfl fun _ => kept rfl
  | pduParseRsp ctx clen rsp len =>
    refine .withPdu rfl fun c => .withPdu rfl fun r => ?_
    split <;> exact kept rfl
  | addrSplit addr use =>
    simp only [exec, execAddrSplit]
    split <;> exact kept rfl
  | _ => cases h

@[simp] theorem State.reply_host (bcast : Bool) (rsp : List Byte) (s : State) : (s.reply bcast rsp).host = s.host := by
  cases bcast <;> rfl

@[simp] theorem State.served_host (fc : Byte) (bcast : Bool) (r : Handling) (s : State) :
    (s.served fc bcast r).host = r.2 := by
  obtain ⟨z, k⟩ := r
  cases z with
  | ok rsp => exact State.reply_host bcast _ { s with host := k }
  | exc x => exact State.reply_host bcast _ { s with host := k }
  | noResponse => rfl
  | refuse why => rfl

/-- Served or not, a request calls the host as its handler does. -/
theorem State.serve_callsAllowed (bcast : Bool) (pdu : List Byte) (s : State) :
    CallsAllowed s.params s.host (s.serve bcast pdu).host := by
  cases pdu with
  | nil => exact .none _ _
  | cons fc body =>
    simp only [State.serve]
    split
    · exact .none _ _
    · rw [State.served_host]
      exact HandlerSpec.disp.calls

theorem exec_pduServe_callsAllowed (s : State) (pdu : BufRef) (len : U16) (bcast : Bool) :
    Ensures (fun t => CallsAllowed s.params s.host t.host) (exec (.pduServe pdu len bcast) s) := by
  simp only [exec, execPduServe]
  split
  · exact .next (.none _ _)
  · exact .withPdu (P := fun t => CallsAllowed s.params s.host t.host) (.none _ _) fun bs =>
      .next (s.serve_callsAllowed bcast bs)

/-- Settles O42: a request calls the host as its handler does (`HandlerSpec.calls`), PDU_SERVE as the handler it dispatches to,
and every other instruction leaves the host alone. -/
theorem hostCallsAreFewAndInRange : Obligations.HostCallsAreFewAndInRange := by
  unfold Obligations.HostCallsAreFewAndInRange
  intro i s t hn
  show CallsAllowed s.params s.host t.host
  have he := exec_effect s i t hn
  cases hf : family i <;> rw [hf] at he
  case crc => exact (CrcEffect.hostKept he).callsAllowed
  case framer => exact (FramerEffect.hostKept he).callsAllowed
  case adu => exact (FramerEffect.hostKept he).callsAllowed
  case codec =>
    by_cases hi : ∃ pdu len bcast, i = .pduServe pdu len bcast
    · obtain ⟨pdu, len, bcast, rfl⟩ := hi
      exact exec_pduServe_callsAllowed s pdu len bcast t hn
    · exact (exec_codec_hostKept hf (fun pdu len bcast h => hi ⟨pdu, len, bcast, h⟩) t hn).callsAllowed
  case request =>
    obtain ⟨r, hr, hspec⟩ := exec_request i s hf
    cases hr.symm.trans hn
    rw [State.handled_host]
    exact hspec.calls
  case response =>
    cases i with
    | exceptionResponse fc x => cases hn; exact .none _ _
    | _ => cases hf

/-! ### The reference host -/

/-- A bit table keeps bit 0 of a value written to it (R153). -/
def TableId.stored (t : TableId) (v : U16) : U16 := if t.isBits then v &&& 1 else v

theorem boolWord_wordBool (v : U16) : boolWord (wordBool v) = v &&& 1 := by
  rw [show (1 : U16) = 1#16 from rfl, BitVec.and_one_eq_setWidth_ofBool_getLsbD, boolWord, wordBool]
  cases v.getLsbD 0 <;> rfl

theorem HostState.elem_called (c : HostCall) (t : TableId) (k : Nat) (h : HostState) :
    (h.called c).elem t k = h.elem t k := by cases t <;> rfl

theorem HostState.elem_setElem_same {p : Params} {t : TableId} {a : Nat} (v : U16) {h : HostState} (hs : h.Sized p)
    (ha : a < (p.table t).size) : (h.setElem t a v).elem t a = TableId.stored t v := by
  obtain ⟨hc, hd, hi, hh⟩ := hs
  cases t with
  | coils =>
    have ha : a < h.coils.length := hc ▸ ha
    simp [HostState.elem, HostState.setElem, TableId.stored, TableId.isBits, boolWord_wordBool, ha]
  | discreteInputs =>
    have ha : a < h.discreteInputs.length := hd ▸ ha
    simp [HostState.elem, HostState.setElem, TableId.stored, TableId.isBits, boolWord_wordBool, ha]
  | inputRegisters =>
    have ha : a < h.inputRegisters.length := hi ▸ ha
    simp [HostState.elem, HostState.setElem, TableId.stored, TableId.isBits, ha]
  | holdingRegisters =>
    have ha : a < h.holdingRegisters.length := hh ▸ ha
    simp [HostState.elem, HostState.setElem, TableId.stored, TableId.isBits, ha]

theorem HostState.elem_setElem_otherTable {t t' : TableId} (a k : Nat) (v : U16) (h : HostState) (ht : t' ≠ t) :
    (h.setElem t a v).elem t' k = h.elem t' k := by
  cases t with
  | coils =>
    cases t' with
    | coils => exact absurd rfl ht
    | _ => rfl
  | discreteInputs =>
    cases t' with
    | discreteInputs => exact absurd rfl ht
    | _ => rfl
  | inputRegisters =>
    cases t' with
    | inputRegisters => exact absurd rfl ht
    | _ => rfl
  | holdingRegisters =>
    cases t' with
    | holdingRegisters => exact absurd rfl ht
    | _ => rfl

/-- Writing one element leaves every other of its table and every other table. -/
theorem HostState.elem_setElem_other {t t' : TableId} {a k : Nat} (v : U16) (h : HostState) (hne : t' ≠ t ∨ k ≠ a) :
    (h.setElem t a v).elem t' k = h.elem t' k := by
  by_cases ht : t' = t
  · have hk : a ≠ k := Ne.symm (hne.resolve_left (not_not.mpr ht))
    subst ht
    cases t' <;> simp [HostState.elem, HostState.setElem, List.getElem?_set_ne hk]
  · exact HostState.elem_setElem_otherTable a k v h ht

/-- Writing a range leaves every element outside it. -/
theorem HostState.elem_setElems_other {t t' : TableId} {a k : Nat} (vs : List U16) (h : HostState)
    (hout : t' ≠ t ∨ k < a ∨ a + vs.length ≤ k) : (h.setElems t a vs).elem t' k = h.elem t' k := by
  induction vs generalizing a h with
  | nil => rfl
  | cons v vs ih =>
    rw [List.length_cons] at hout
    rw [HostState.setElems, ih _ (hout.imp_right (by omega)),
      HostState.elem_setElem_other v h (hout.imp_right (by omega))]

/-- Writing a range gives each of its elements its value. -/
theorem HostState.elem_setElems {p : Params} {t : TableId} {a k : Nat} {vs : List U16} {h : HostState} (hs : h.Sized p)
    (hr : a + vs.length ≤ (p.table t).size) (hk : k < vs.length) :
    (h.setElems t a vs).elem t (a + k) = TableId.stored t (vs.getD k 0) := by
  induction vs generalizing a k h with
  | nil => exact absurd hk (Nat.not_lt_zero k)
  | cons v vs ih =>
    rw [List.length_cons] at hr hk
    rw [HostState.setElems]
    cases k with
    | zero =>
      rw [HostState.elem_setElems_other vs _ (.inr (.inl (by omega))), Nat.add_zero,
        HostState.elem_setElem_same v hs (by omega), List.getD_cons_zero]
    | succ k =>
      rw [show a + (k + 1) = a + 1 + k by omega, ih (HostState.setElem_sized hs) (by omega) (by omega),
        List.getD_cons_succ]

/-- A host with no answer decided writes the range and answers `Ok` (R153). -/
theorem hostSet_reference {t : TableId} {a q : Nat} {vs : List U16} {h : HostState} (ha : h.answers = []) :
    hostSet t a q vs h = (none, (h.called (.set t a q vs)).setElems t a vs) := by simp only [hostSet, ha]

theorem HostState.elems_getElem? {t : TableId} {a q k : Nat} (h : HostState) (hk : k < q) :
    (h.elems t a q)[k]? = some (h.elem t (a + k)) := by simp [HostState.elems, hk]

theorem HostState.called_reference (c : HostCall) {h : HostState} (ha : h.answers = []) :
    h.called c = { h with calls := h.calls ++ [c] } := by simp only [HostState.called, ha, List.tail_nil]

/-- Settles O43: the reference answers of a get and a set, and what a range of writes does inside and outside it. -/
theorem referenceHostReadsAndWritesTables : Obligations.ReferenceHostReadsAndWritesTables := by
  unfold Obligations.ReferenceHostReadsAndWritesTables
  intro p h tb a q ha hs hr
  refine ⟨⟨h.elems tb a q, ?_, h.elems_length tb a q, fun k hk => h.elems_getElem? hk⟩, ?_⟩
  · rw [hostGet_reference ha, HostState.called_reference _ ha]
  · rintro v rfl
    refine ⟨_, hostSet_reference ha, HostState.setElems_calls .., ?_, HostState.setElems_sized hs, fun k hk => ?_,
      fun tb' k hout => ?_⟩
    · rw [HostState.setElems_answers, HostState.called_answers, ha, List.tail_nil]
    · exact HostState.elem_setElems (HostState.called_sized hs) hr hk
    · rw [HostState.elem_setElems_other v _ hout, HostState.elem_called]

/-! ### Exception codes -/

section Decided

variable {h : HostState} {ans : HostAnswer} {rest : List HostAnswer} (ha : h.answers = ans :: rest) (hx : ans.exc ≠ 0)
include ha hx

theorem hostGet_decided_exc (t : TableId) (a q : Nat) : (hostGet t a q h).1 = .error ans.exc := by
  simp only [hostGet, ha, if_neg hx]

theorem hostSet_decided_exc (t : TableId) (a q : Nat) (vs : List U16) : (hostSet t a q vs h).1 = some ans.exc := by
  simp only [hostSet, ha, if_neg hx]

theorem hostVendor_decided_exc (k : Nat) (req : List Byte) : (hostVendor k req h).1 = .error ans.exc := by
  simp only [hostVendor, HostState.vendorAnswer, ha, if_neg hx]

end Decided

/-- Settles O44: the handler behind a request has its exceptions from the block or the host (`HandlerSpec.exc`) and ends with
the exception a capability answers (`HandlerSpec.passes`). -/
theorem exceptionCodesPassUnchanged : Obligations.ExceptionCodesPassUnchanged := by
  unfold Obligations.ExceptionCodesPassUnchanged
  refine ⟨fun i s t x hf hn hx => ?_, fun i s t x h hf hn => ?_, fun h ans rest ha hx => ?_⟩
  · obtain ⟨r, hr, hspec⟩ := exec_request i s hf
    cases hr.symm.trans hn
    exact hspec.exc x (State.answer_of_handled hx)
  · obtain ⟨r, hr, hspec⟩ := exec_request i s hf
    cases hr.symm.trans hn
    have hend (he : r = (.exc x, h)) : s.handled r = s.answeredExc h x := by rw [he]; rfl
    obtain ⟨hget, hset, hsetget, hvendor⟩ := hspec.passes x h
    rw [State.handled_host]
    exact ⟨fun tb a q hc hg => hend (hget tb a q hc hg), fun tb a q v hc hs => hend (hset tb a q v hc hs),
      fun tb a q v tb' a' q' m hc hs hg => hend (hsetget tb a q v tb' a' q' m hc hs hg),
      fun k req hc hv => hend (hvendor k req hc hv)⟩
  · exact ⟨hostGet_decided_exc ha hx, hostSet_decided_exc ha hx, hostVendor_decided_exc ha hx⟩

end Sys2Proof.Machine
end

section
/-! PROOF. The master's codec commands (47_pdu_master.md R161 to R167): which checks each makes and in which order (60_exceptions.md
R174), what it builds where they pass, and the decoding of a response rule by rule (R166). -/

namespace Sys2Proof.Machine

/-! ### PDU_PARSE_RSP -/

/-- What PDU_PARSE_RSP makes of a decoding (R166; notes/assumptions/9.md). -/
def State.parsed (p : Parsed) (s : State) : State :=
  match p with
  | none => s.refuse .badBuffer
  | some (code, d) => s.ret (.parse code d)

section ParseRsp

variable {s : State} {ctx rsp : BufRef} {clen len : U16} {c r : List Byte}
variable (hc : c.length = clen.toNat) (hcb : s.HoldsPdu ctx c)
include hc hcb

/-- With the context there, the response is read. -/
theorem exec_pduParseRsp_reads :
    exec (.pduParseRsp ctx clen rsp len) s = withPdu rsp len.toNat s fun r => .next (s.parsed (parseRsp c r)) := by
  refine (withPdu_holds hc hcb).trans (congrArg (withPdu rsp len.toNat s) (funext fun r => ?_))
  cases parseRsp c r <;> rfl

theorem exec_pduParseRsp_holds (hr : r.length = len.toNat) (hrb : s.HoldsPdu rsp r) :
    exec (.pduParseRsp ctx clen rsp len) s = .next (s.parsed (parseRsp c r)) :=
  (exec_pduParseRsp_reads hc hcb).trans (withPdu_holds hr hrb)

end ParseRsp

/-! ### The decoding of a response (R166) -/

section Decoding

variable {fc f : Byte} {req rest : List Byte}

theorem parseRsp_exception (hf : f.getLsbD 7 = true) (x : Byte) :
    parseRsp (fc :: req) (f :: x :: rest) = some (masterCode x, .none) := if_pos hf

theorem parseRsp_exception_truncated (hf : f.getLsbD 7 = true) : parseRsp (fc :: req) [f] = malformed := if_pos hf

theorem parseRsp_foreign (hf : f.getLsbD 7 = false) (hne : f ≠ fc) : parseRsp (fc :: req) (f :: rest) = malformed :=
  (if_neg (ne_true_of_eq_false hf)).trans (if_pos hne)

theorem parseRsp_normal (hf : fc.getLsbD 7 = false) :
    parseRsp (fc :: req) (fc :: rest) = parseNormal fc (fc :: req) (fc :: rest) :=
  (if_neg (ne_true_of_eq_false hf)).trans (if_neg (not_not.mpr rfl))

variable {c r : List Byte}

theorem parseNormal_bits (h : fc = 0x01 ∨ fc = 0x02) : parseNormal fc c r = parseBits c r := by
  rcases h with rfl | rfl <;> rfl

theorem parseNormal_regs (h : fc = 0x03 ∨ fc = 0x04) : parseNormal fc c r = parseRegs c r := by
  rcases h with rfl | rfl <;> rfl

theorem parseNormal_echo (h : fc ∈ [0x05, 0x06, 0x0F, 0x10]) : parseNormal fc c r = parseEcho c r := by
  simp only [List.mem_cons, List.not_mem_nil, or_false] at h
  rcases h with rfl | rfl | rfl | rfl <;> rfl

theorem parseNormal_loopback : parseNormal 0x08 c r = parseLoopback c r := rfl

/-- Of a function code without a rule of its own, the response is handed on as it is. -/
theorem parseNormal_raw (h : fc ∉ [0x01, 0x02, 0x03, 0x04, 0x05, 0x06, 0x08, 0x0F, 0x10]) :
    parseNormal fc c r = some (.ok, .raw r) := by
  simp only [List.mem_cons, List.not_mem_nil, or_false, not_or] at h
  unfold parseNormal
  split <;> simp_all

/-- Both read rules take the quantity from bytes 3 and 4 of the context. -/
theorem parseNormal_read_short (h : fc ∈ [0x01, 0x02, 0x03, 0x04]) (hc : c.length < 5) : parseNormal fc c r = none := by
  simp only [List.mem_cons, List.not_mem_nil, or_false] at h
  rcases h with rfl | rfl | rfl | rfl <;> exact if_pos hc

section Whole

variable (hc : 5 ≤ c.length)
include hc

theorem parseBits_malformed
    (h : r.length ≠ 2 + ceil8 (be16 c 3).toNat ∨ (r.getD 1 0).toNat ≠ ceil8 (be16 c 3).toNat) :
    parseBits c r = malformed := (if_neg (Nat.not_lt.mpr hc)).trans (if_pos h)

theorem parseBits_data (hl : r.length = 2 + ceil8 (be16 c 3).toNat) (hn : (r.getD 1 0).toNat = ceil8 (be16 c 3).toNat) :
    parseBits c r = some (.ok, .bits (unpack (r.drop 2) (be16 c 3).toNat)) :=
  (if_neg (Nat.not_lt.mpr hc)).trans (if_neg fun h => h.elim (absurd hl) (absurd hn))

theorem parseRegs_malformed
    (h : r.length ≠ 2 + 2 * (be16 c 3).toNat ∨ (r.getD 1 0).toNat ≠ 2 * (be16 c 3).toNat) :
    parseRegs c r = malformed := (if_neg (Nat.not_lt.mpr hc)).trans (if_pos h)

theorem parseRegs_data (hl : r.length = 2 + 2 * (be16 c 3).toNat) (hn : (r.getD 1 0).toNat = 2 * (be16 c 3).toNat) :
    parseRegs c r = some (.ok, .words (unwordsBe (r.drop 2) (be16 c 3).toNat)) :=
  (if_neg (Nat.not_lt.mpr hc)).trans (if_neg fun h => h.elim (absurd hl) (absurd hn))

theorem parseEcho_differs (h : r.length ≠ 5 ∨ r.drop 1 ≠ (c.take 5).drop 1) : parseEcho c r = malformed := by
  by_cases hl : r.length = 5
  · rw [parseEcho, if_neg (not_not.mpr hl), if_neg (Nat.not_lt.mpr hc), if_pos (h.resolve_left (not_not.mpr hl))]
  · exact if_pos hl

theorem parseEcho_repeats (hl : r.length = 5) (h : r.drop 1 = (c.take 5).drop 1) : parseEcho c r = some (.ok, .none) := by
  rw [parseEcho, if_neg (not_not.mpr hl), if_neg (Nat.not_lt.mpr hc), if_neg (not_not.mpr h)]

end Whole

/-- The response's length is checked before the context's bytes are read. -/
theorem parseEcho_malformed (hl : r.length ≠ 5) : parseEcho c r = malformed := if_pos hl

theorem parseEcho_short (hc : c.length < 5) (hl : r.length = 5) : parseEcho c r = none :=
  (if_neg (not_not.mpr hl)).trans (if_pos hc)

end Decoding

/-- Settles O50: the operands are read context first; with both there the answer is `parseRsp`'s, an equation for each rule of
R166. -/
theorem parseRspDecodes : Obligations.ParseRspDecodes := by
  unfold Obligations.ParseRspDecodes
  refine ⟨fun s ctx rsp clen len => ⟨withPdu_unreadable, withPdu_short, fun c hc hcb => ⟨fun hu => ?_, fun h => ?_⟩⟩, ?_⟩
  · exact (exec_pduParseRsp_reads hc hcb).trans (withPdu_unreadable hu)
  · refine (exec_pduParseRsp_reads hc hcb).trans ?_
    rcases h with hs | ⟨rfl, r, hr, hrb⟩
    · exact withPdu_short hs
    · exact withPdu_holds hr hrb
  intro s ctx rsp clen len c r fc hc hcb hr hrb hfc answers short q
  have hrun := exec_pduParseRsp_holds hc hcb hr hrb
  have hanswers {code : MasterCode} {d : ParseData} (h : parseRsp c r = some (code, d)) : answers code d := by
    rw [h] at hrun; exact hrun
  have hshort (h : parseRsp c r = none) : short := by rw [h] at hrun; exact hrun
  obtain ⟨req, rfl⟩ := List.head?_eq_some_iff.mp hfc
  refine ⟨?_, fun f hf hbit => ?_, fun f hf hbit => ?_⟩
  · rintro rfl; exact hanswers rfl
  · obtain ⟨rest, rfl⟩ := List.head?_eq_some_iff.mp hf
    refine ⟨fun hl => ?_, fun x hx => ?_⟩
    · obtain rfl : rest = [] := List.length_eq_zero_iff.mp (Nat.succ.inj hl)
      exact hanswers (parseRsp_exception_truncated hbit)
    · obtain ⟨rest, rfl⟩ : ∃ tail, rest = x :: tail := by
        rw [List.getElem?_cons_succ, ← List.head?_eq_getElem?] at hx
        exact List.head?_eq_some_iff.mp hx
      have hcode : answers (masterCode x) .none := hanswers (parseRsp_exception hbit x)
      refine ⟨?_, ?_, ?_, ?_, fun h => masterCode_unknown h ▸ hcode⟩
      all_goals rintro rfl; exact hcode
  · obtain ⟨rest, rfl⟩ := List.head?_eq_some_iff.mp hf
    refine ⟨fun hne => hanswers (parseRsp_foreign hbit hne), ?_⟩
    rintro rfl
    have hn := parseRsp_normal (req := req) (rest := rest) hbit
    refine ⟨fun h h5 => ?_, fun h h5 => ⟨fun hbad => ?_, fun hl hcount => ?_⟩,
      fun h h5 => ⟨fun hbad => ?_, fun hl hcount => ?_⟩, fun h h5 => ⟨fun hbad => ?_, fun hl heq => ?_⟩,
      fun h h5 => ⟨fun hl => ?_, fun hl => ?_⟩, ?_, fun h => ?_⟩
    · exact hshort (hn.trans (parseNormal_read_short h h5))
    · exact hanswers (hn.trans ((parseNormal_bits h).trans (parseBits_malformed h5 hbad)))
    · exact hanswers (hn.trans ((parseNormal_bits h).trans (parseBits_data h5 hl hcount)))
    · exact hanswers (hn.trans ((parseNormal_regs h).trans (parseRegs_malformed h5 hbad)))
    · exact hanswers (hn.trans ((parseNormal_regs h).trans (parseRegs_data h5 hl hcount)))
    · exact hanswers (hn.trans ((parseNormal_echo h).trans (parseEcho_differs h5 hbad)))
    · exact hanswers (hn.trans ((parseNormal_echo h).trans (parseEcho_repeats h5 hl heq)))
    · exact hanswers (hn.trans ((parseNormal_echo h).trans (parseEcho_malformed hl)))
    · exact hshort (hn.trans ((parseNormal_echo h).trans (parseEcho_short h5 hl)))
    · rintro rfl
      rw [parseNormal_loopback] at hn
      exact ⟨fun hne => hanswers (hn.trans (if_pos hne)), fun heq => hanswers (hn.trans (if_neg (not_not.mpr heq)))⟩
    · exact hanswers (hn.trans (parseNormal_raw h))

/-! ### PDU_BUILD_READ and PDU_BUILD_WRITE_SINGLE -/

theorem readLimit_bits {fc : Byte} (h : fc = 0x01 ∨ fc = 0x02) : readLimit fc = some 2000 := if_pos h

theorem readLimit_regs {fc : Byte} (h : fc = 0x03 ∨ fc = 0x04) : readLimit fc = some 125 := by
  rcases h with rfl | rfl <;> rfl

/-- Only the four read function codes have a limit (R161). -/
theorem readLimit_some {fc : Byte} {qmax : Nat} (h : readLimit fc = some qmax) :
    ((fc = 0x01 ∨ fc = 0x02) ∧ qmax = 2000) ∨ ((fc = 0x03 ∨ fc = 0x04) ∧ qmax = 125) := by
  unfold readLimit at h
  split_ifs at h with hbits hregs
  · exact .inl ⟨hbits, (Option.some.inj h).symm⟩
  · exact .inr ⟨hregs, (Option.some.inj h).symm⟩

/-- PDU_BUILD_READ where a check fails (R161). -/
theorem exec_pduBuildRead_fails {unit fc : Byte} {q : U16} (s : State) (a : U16)
    (h : ∀ qmax, readLimit fc = some qmax → ¬(unit ≠ 0 ∧ 1 ≤ q.toNat ∧ q.toNat ≤ qmax)) :
    exec (.pduBuildRead unit fc a q) s = .next s.notBuilt := by
  simp only [exec, execPduBuildRead]
  split
  · rfl
  · next hu =>
    cases hfc : readLimit fc with
    | none => rfl
    | some qmax =>
      have hq : q.toNat < 1 ∨ q.toNat > qmax := by
        by_contra hin
        exact h qmax hfc ⟨hu, by omega, by omega⟩
      exact if_pos hq

theorem exec_pduBuildWriteSingle_builds {fc : Byte} {v : U16} (s : State) (a : U16)
    (h : (fc = 0x05 ∧ (v = 0xFF00 ∨ v = 0x0000)) ∨ fc = 0x06) :
    exec (.pduBuildWriteSingle fc a v) s = .next (s.built (fc :: pairBody a v)) := by
  rcases h with ⟨rfl, rfl | rfl⟩ | rfl <;> rfl

theorem exec_pduBuildWriteSingle_fails {fc : Byte} {v : U16} (s : State) (a : U16)
    (h : ¬((fc = 0x05 ∧ (v = 0xFF00 ∨ v = 0x0000)) ∨ fc = 0x06)) :
    exec (.pduBuildWriteSingle fc a v) s = .next s.notBuilt := by
  obtain ⟨hcoil, hreg⟩ := not_or.mp h
  by_cases hfc : fc = 0x05
  · exact if_pos ⟨hfc, not_or.mp fun hv => hcoil ⟨hfc, hv⟩⟩
  · exact (if_neg fun hv => hfc hv.1).trans (if_pos ⟨hfc, hreg⟩)

/-- Settles O47: each command builds where its checks pass and answers M_LOCAL_INVALID where one fails; the quantity check is
against the limit of the function code (`readLimit_some`). -/
theorem buildReadAndWriteSingle : Obligations.BuildReadAndWriteSingle := by
  unfold Obligations.BuildReadAndWriteSingle
  refine ⟨fun s unit fc a q => ⟨fun ⟨hu, h1, h⟩ => ?_, fun h => ?_⟩, fun s fc a v => ?_⟩
  · rcases h with ⟨hfc, hq⟩ | ⟨hfc, hq⟩
    · exact exec_pduBuildRead_builds s hu (readLimit_bits hfc) h1 hq
    · exact exec_pduBuildRead_builds s hu (readLimit_regs hfc) h1 hq
  · refine exec_pduBuildRead_fails s a fun qmax hlimit ⟨hu, h1, hq⟩ => h ⟨hu, h1, ?_⟩
    rcases readLimit_some hlimit with ⟨hfc, rfl⟩ | ⟨hfc, rfl⟩
    · exact .inl ⟨hfc, hq⟩
    · exact .inr ⟨hfc, hq⟩
  · exact ⟨exec_pduBuildWriteSingle_builds s a, exec_pduBuildWriteSingle_fails s a⟩

/-! ### PDU_BUILD_WRITE_MULTI -/

/-- The layout of R163, its byte count given as the data's length. -/
theorem cons_writeMultiBody (fc : Byte) (a q : U16) {d : List Byte} {n : Nat} (h : d.length = n) :
    fc :: writeMultiBody a q d = [fc] ++ putBe16 a ++ putBe16 q ++ [BitVec.ofNat 8 n] ++ d := by
  subst h; rfl

/-- What an element buffer holds counts as bits or as words, whichever it holds. -/
theorem State.dataCount_eq_max (data : U16) (s : State) :
    s.dataCount data = max (s.dataBits data).length (s.dataWords data).length := by
  cases h : assocGet data.toNat s.data with
  | none => simp only [State.dataCount, State.dataBits, State.dataWords, h]; rfl
  | some e => cases e <;> simp [State.dataCount, State.dataBits, State.dataWords, h]

/-- R174's order of the two checks, read as a case each. -/
theorem eq_of_count_then_quantity {run short bad good : Out} {n q qmax : Nat}
    (h : run = if n < q then short else if q < 1 ∨ qmax < q then bad else good) :
    (n < q → run = short) ∧ (q ≤ n → (q < 1 ∨ qmax < q → run = bad) ∧ (1 ≤ q → q ≤ qmax → run = good)) := by
  refine ⟨fun hn => h.trans (if_pos hn), fun hn => ?_⟩
  rw [if_neg (Nat.not_lt.mpr hn)] at h
  exact ⟨fun hq => h.trans (if_pos hq), fun h1 h2 => h.trans (if_neg (by omega))⟩

section WriteMulti

variable (s : State) (a q data : U16)

/-- For coils: the elements, then the quantity (R174). -/
theorem exec_pduBuildWriteMulti_coils :
    exec (.pduBuildWriteMulti 0x0F a q data) s =
      if (s.dataBits data).length < q.toNat then .next (s.refuse .badBuffer)
      else if q.toNat < 1 ∨ 1968 < q.toNat then .next s.notBuilt
      else .next (s.built ([0x0F] ++ putBe16 a ++ putBe16 q ++ [BitVec.ofNat 8 ((q.toNat + 7) / 8)] ++
        pack (s.dataBits data) q.toNat)) := by
  rw [← cons_writeMultiBody 0x0F a q (n := (q.toNat + 7) / 8) (pack_length _ _)]
  rfl

/-- For registers: the elements, then the quantity (R174). -/
theorem exec_pduBuildWriteMulti_regs :
    exec (.pduBuildWriteMulti 0x10 a q data) s =
      if (s.dataWords data).length < q.toNat then .next (s.refuse .badBuffer)
      else if q.toNat < 1 ∨ 123 < q.toNat then .next s.notBuilt
      else .next (s.built ([0x10] ++ putBe16 a ++ putBe16 q ++ [BitVec.ofNat 8 (2 * q.toNat)] ++
        wordsBe (s.dataWords data) q.toNat)) := by
  rw [← cons_writeMultiBody 0x10 a q (wordsBe_length _ _)]
  rfl

/-- Of another function code: the elements of either kind, then the function code (notes/assumptions/8.md). -/
theorem exec_pduBuildWriteMulti_foreign {fc : Byte} (hcoils : fc ≠ 0x0F) (hregs : fc ≠ 0x10) :
    exec (.pduBuildWriteMulti fc a q data) s =
      if s.dataCount data < q.toNat then .next (s.refuse .badBuffer) else .next s.notBuilt :=
  (if_neg hcoils).trans (if_neg hregs)

end WriteMulti

/-- Settles O48: by the function code, the checks in R174's order, and the layout of R163 (`cons_writeMultiBody`). -/
theorem buildWriteMulti : Obligations.BuildWriteMulti := by
  unfold Obligations.BuildWriteMulti
  intro s fc a q data run
  refine ⟨?_, ?_, fun hcoils hregs => ?_, s.dataCount_eq_max data⟩
  · rintro rfl; exact eq_of_count_then_quantity (exec_pduBuildWriteMulti_coils s a q data)
  · rintro rfl; exact eq_of_count_then_quantity (exec_pduBuildWriteMulti_regs s a q data)
  · have hrun : run = _ := exec_pduBuildWriteMulti_foreign s a q data hcoils hregs
    exact ⟨fun h => hrun.trans (if_pos h), fun h => hrun.trans (if_neg (Nat.not_lt.mpr h))⟩

/-! ### PDU_BUILD_LOOPBACK and PDU_BUILD_RAW -/

section Buffered

variable {s : State} {data : BufRef} {dlen : U16}

/-- With the buffer there, the length is checked and then the bytes are read (R164, R174). -/
theorem exec_pduBuildLoopback_whole (h : ¬s.Short data dlen.toNat) :
    exec (.pduBuildLoopback data dlen) s =
      if 250 < dlen.toNat then .next s.notBuilt
      else withPdu data dlen.toNat s fun d => .next (s.built ([0x08, 0x00, 0x00] ++ d)) := unlessShort_ok h

/-- With the buffer there, the length is checked and then the bytes are read (R165, R174). -/
theorem exec_pduBuildRaw_whole (h : ¬s.Short data dlen.toNat) :
    exec (.pduBuildRaw data dlen) s =
      if dlen.toNat < 1 ∨ 253 < dlen.toNat then .next s.notBuilt
      else withPdu data dlen.toNat s fun d => .next (s.built d) := unlessShort_ok h

end Buffered

/-- Settles O49: BAD_BUFFER first, then the length, then the bytes of the buffer, which it holds or which may not be read. -/
theorem buildLoopbackAndRaw : Obligations.BuildLoopbackAndRaw := by
  unfold Obligations.BuildLoopbackAndRaw
  intro s data dlen
  refine ⟨fun h => ⟨unlessShort_short h, unlessShort_short h⟩, fun h => ?_⟩
  have hloop := exec_pduBuildLoopback_whole h
  have hraw := exec_pduBuildRaw_whole h
  refine ⟨fun hl => hloop.trans (if_pos hl), fun hl => ?_, fun hl => hraw.trans (if_pos hl), fun h1 h2 => ?_⟩
  · rw [if_neg (Nat.not_lt.mpr hl)] at hloop
    exact ⟨fun d hd hb => hloop.trans (withPdu_holds hd ⟨hb, fun _ => by rw [hd, Config.maxPdu]; omega⟩),
      fun hu => hloop.trans (withPdu_unreadable hu)⟩
  · rw [if_neg (by omega)] at hraw
    exact ⟨fun d hd hb => hraw.trans (withPdu_holds hd ⟨hb, fun _ => hd ▸ h2⟩),
      fun hu => hraw.trans (withPdu_unreadable hu)⟩

/-! ### ADDR_SPLIT -/

theorem exec_addrSplit_some {addr : U32} {use : AddrUse} {fc : Byte} (s : State)
    (h : selectCode use (addr.extractLsb' 16 16) = some fc) :
    exec (.addrSplit addr use) s = .next (s.ret (.split fc (wireAddress addr))) := by
  simp only [exec, execAddrSplit, h]

theorem exec_addrSplit_none {addr : U32} {use : AddrUse} (s : State)
    (h : selectCode use (addr.extractLsb' 16 16) = none) :
    exec (.addrSplit addr use) s = .next (s.ret (.splitFail .localInvalid)) := by
  simp only [exec, execAddrSplit, h]

/-- A selector outside R167's table has no function code, whatever the use. -/
theorem selectCode_other {sel : U16} (h : sel ∉ [0, 1, 3, 4]) (use : AddrUse) : selectCode use sel = none := by
  simp only [List.mem_cons, List.not_mem_nil, or_false, not_or] at h
  obtain ⟨h0, h1, h3, h4⟩ := h
  cases use <;> simp only [selectCode, h0, h1, h3, h4, if_false]

/-- Settles O51: the table of R167, row by row; the offset less 1 at 0 and at 1. -/
theorem addrSplitSelects : Obligations.AddrSplitSelects := by
  unfold Obligations.AddrSplitSelects
  intro s addr sel a gives fails
  have hgives {use : AddrUse} {fc : Byte} (h : selectCode use sel = some fc) : gives use fc := exec_addrSplit_some s h
  have hfails {use : AddrUse} (h : selectCode use sel = none) : fails use := exec_addrSplit_none s h
  refine ⟨fun h => ?_, fun h => ?_, fun h => ?_, fun h => ?_, fun h => ?_, fun h => ?_, fun h => ?_⟩
  · rw [h] at hgives
    exact ⟨hgives rfl, hgives rfl, hgives rfl⟩
  · rw [h] at hgives hfails
    exact ⟨hgives rfl, hfails rfl, hfails rfl⟩
  · rw [h] at hgives hfails
    exact ⟨hgives rfl, hfails rfl, hfails rfl⟩
  · rw [h] at hgives
    exact ⟨hgives rfl, hgives rfl, hgives rfl⟩
  · exact ⟨hfails (selectCode_other h _), hfails (selectCode_other h _), hfails (selectCode_other h _)⟩
  · simp only [a, h]; rfl
  · simp only [a, h]; rfl

end Sys2Proof.Machine
end

section
/-! PROOF. The environment events (60_exceptions.md R175, R176, R178), what no step changes (R188), and what the host sees
after the reset of the block (70_reset_and_hazards.md R186). -/

namespace Sys2Proof.Machine

/-! ### Environment events -/

theorem Framer.event_expireT1p5_stopped {i : Framer} (h : i.tmr1 = .stopped) : i.event .expireT1p5 = none :=
  if_neg (by rw [h]; decide)

theorem Framer.event_expireT3p5_stopped {i : Framer} (h : i.tmr3 = .stopped) : i.event .expireT3p5 = none :=
  if_neg (by rw [h]; decide)

theorem Framer.event_txStep_empty {i : Framer} (h : i.txq = []) : i.event .txStep = none := by
  simp only [Framer.event, h]

section Event

variable {s : State} {n : Nat} {e : EnvEvent} {i j : Framer} (hi : s.framers[n]? = some i)
include hi

/-- An event that ends no command moves its instance and nothing else. -/
theorem runInput_env_quiet (h : i.event e = some j) (ho : j.op = i.op) :
    runInput (.env n e) s = .next { s with framers := s.framers.set n j } :=
  congrArg Host.Outcome.next (State.act_quiet hi h ho)

/-- An event that is not enabled does not happen (notes/assumptions/16.md). -/
theorem runInput_env_waits (h : i.event e = none) : runInput (.env n e) s = .next s :=
  congrArg Host.Outcome.next (State.act_waits hi h)

/-- The byte-arrival hook (R175) with its two changes of `EVF` as masks. -/
theorem runInput_env_byte (b : Byte) :
    runInput (.env n (.byte b)) s = .next
      { s with
        framers := s.framers.set n
          { i with
            rxfifo := i.rxfifo ++ [b], evf := (i.evf ||| 0b0010) &&& 0b0011, tmr1 := .running, tmr3 := .running } } :=
  runInput_env_quiet hi (j := i.byteHook b) rfl rfl

end Event

/-- Settles O22: each event is enabled under its rule's condition, and ends no command. -/
theorem environmentEvents : Obligations.EnvironmentEvents := by
  unfold Obligations.EnvironmentEvents
  intro s n i hi
  refine ⟨runInput_env_byte hi, fun h => ?_, fun h => ?_, fun h => ?_, fun h => ?_, fun b rest h => ?_, fun h => ?_⟩
  · exact runInput_env_quiet hi (Framer.event_expireT1p5 h) rfl
  · exact runInput_env_waits hi (Framer.event_expireT1p5_stopped h)
  · exact runInput_env_quiet hi (Framer.event_expireT3p5 h) rfl
  · exact runInput_env_waits hi (Framer.event_expireT3p5_stopped h)
  · exact runInput_env_quiet hi (Framer.event_txStep h) rfl
  · exact runInput_env_waits hi (Framer.event_txStep_empty h)

/-! ### The parameters and the number of instances -/

theorem Moves.length {p : Params} {fs gs : List Framer} {n : Option Nat} (h : Moves p fs n gs) : gs.length = fs.length := by
  cases h with
  | stay => rfl
  | move _ _ => exact List.length_set

theorem runInput_keepsParameters (s : State) (inp : Input) :
    Ensures (fun t => t.params = s.params ∧ t.framers.length = s.framers.length) (runInput inp s) := by
  by_cases hi : inp = .reset
  · subst hi
    exact .next ⟨rfl, List.length_replicate⟩
  · exact fun t ht => ⟨(InputFrame.runInput hi t ht).params, (InputFrame.runInput hi t ht).framers.length⟩

/-- Settles O30: the reset keeps both by its definition, and every other input by its frame (`InputFrame.runInput`). -/
theorem stepKeepsParameters : Obligations.StepKeepsParameters := by
  unfold Obligations.StepKeepsParameters
  intro s t hn
  rcases step_next hn with rfl | ⟨inp, rest, -, h⟩
  · exact ⟨rfl, rfl⟩
  · exact runInput_keepsParameters { s with inputs := rest } inp t h

/-! ### After the reset -/

theorem State.resetBlock_framers {s : State} {n : Nat} (h : n < s.framers.length) :
    s.resetBlock.framers[n]? = some Framer.reset :=
  (List.getElem?_replicate ..).trans (if_pos h)

section Commands

variable {s : State} {inst : U16} {i : Framer} (hi : s.framers[inst.toNat]? = some i) (hidle : i.op = .none)
include hi hidle

theorem exec_rtuRx_down (hdown : i.down = true) (tmo : U32) :
    exec (.rtuRx inst tmo) s = .next
      ((s.setFramer inst.toNat (i.rxComplete .down)).ret ((i.rxComplete .down).rxResult inst.toNat)) :=
  (onIdle_idle hi hidle).trans (if_pos hdown)

theorem exec_rtuBringup_notConfigured (h : i.cfgBaud = 0) :
    exec (.rtuBringup inst) s = .next (s.ret (.status .notConfigured)) :=
  (onIdle_idle hi hidle).trans (if_pos h)

theorem exec_rtuBringup_configured (h : i.cfgBaud ≠ 0) :
    exec (.rtuBringup inst) s = .next ((s.setFramer inst.toNat i.bringup).ret (.status .ok)) :=
  (onIdle_idle hi hidle).trans (if_neg h)

theorem exec_rtuCfgBaud_sets {b : U32} (h : b ≠ 0) :
    exec (.rtuCfgBaud inst b) s = .next ((s.setFramer inst.toNat (i.configure b)).ret (.status .ok)) :=
  (onIdle_idle hi hidle).trans (if_neg h)

/-- A rate that has been set can be brought up (R106, R108). -/
theorem exec_rtuCfgBaud_rtuBringup {b : U32} (h : b ≠ 0) :
    ∃ u, Out.andThen (exec (.rtuCfgBaud inst b) s) (exec (.rtuBringup inst)) = .next u ∧ u.result = .status .ok := by
  rw [exec_rtuCfgBaud_sets hi hidle h, Out.andThen_next, Framer.configure_eq]
  exact ⟨_, exec_rtuBringup_configured (State.setFramer_same hi) hidle h, rfl⟩

end Commands

/-- Settles O27: after the reset the instance is `Framer.reset`, idle, down and unconfigured, and each command answers with the
values it has there. -/
theorem observationsAfterReset : Obligations.ObservationsAfterReset := by
  unfold Obligations.ObservationsAfterReset
  intro s t inst hlt ht
  cases ht
  have hi := State.resetBlock_framers hlt
  refine ⟨⟨_, exec_rtuIsDown hi, rfl⟩, fun tmo => ⟨_, exec_rtuRx_down hi rfl rfl tmo, rfl⟩,
    fun unit pdu len h1 h2 hbuf => ⟨_, exec_rtuTx_down hi rfl hbuf h1 h2 unit rfl, rfl⟩,
    ⟨_, exec_rtuBringup_notConfigured hi rfl rfl, rfl⟩, fun b hb => exec_rtuCfgBaud_rtuBringup hi rfl hb,
    ⟨_, exec_rtuRxIsBcast hi, rfl⟩, ⟨_, exec_rtuRxAvail hi, rfl⟩, ⟨_, exec_crcRead _, rfl⟩, ⟨_, exec_rtuStatus hi, rfl⟩⟩

end Sys2Proof.Machine
end

section
/-! PROOF. The slave cycle (70_reset_and_hazards.md R191, R192): PDU_SERVE's result decides whether anything is sent, a byte that
has arrived discards the response, and otherwise RTU_TX takes the response from the response buffer. -/

namespace Sys2Proof.Machine

/-! ### PDU_SERVE within the cycle -/

theorem CodecEffect.framers {s t : State} (h : CodecEffect s t) : t.framers = s.framers := by
  cases h with
  | mk _ _ => rfl

theorem exec_pduServe_framers {s t : State} {buf : BufRef} {len : U16} {bcast : Bool}
    (h : exec (.pduServe buf len bcast) s = .next t) : t.framers = s.framers :=
  (CodecEffect.pduServe buf len bcast t h).framers

/-- A result without a response to send. -/
def Unanswered (t : State) : Prop := ∀ rsp, t.result ≠ .response rsp

theorem Unanswered.ret_noReply (s : State) : Unanswered (s.ret .noReply) := nofun

theorem Unanswered.refuse (r : Reason) (s : State) : Unanswered (s.refuse r) := nofun

theorem Unanswered.served_broadcast (fc : Byte) (r : Handling) (s : State) : Unanswered (s.served fc true r) := by
  obtain ⟨y, k⟩ := r
  cases y with
  | ok rsp => exact ret_noReply _
  | exc x => exact ret_noReply _
  | noResponse => exact ret_noReply _
  | refuse why => exact refuse why _

theorem Unanswered.serve_broadcast (pdu : List Byte) (s : State) : Unanswered (s.serve true pdu) := by
  cases pdu with
  | nil => exact ret_noReply s
  | cons fc body =>
    by_cases hfc : fc ∈ readCodes
    · rw [State.serve_broadcastRead hfc]; exact ret_noReply s
    · rw [State.serve_dispatches (.inr hfc)]; exact served_broadcast fc _ s

/-- A broadcast is never answered (R151, R191). -/
theorem Unanswered.pduServe_broadcast (s : State) (buf : BufRef) (len : U16) :
    Ensures Unanswered (exec (.pduServe buf len true) s) := by
  simp only [exec, execPduServe]
  split
  · exact .next (refuse .badLen s)
  · exact .withPdu (refuse .badBuffer s) fun bs => .next (serve_broadcast bs s)

/-- The response PDU_SERVE makes of a handler's answer (R154), if it makes one. -/
def Handled.response? (fc : Byte) : Handled → Option (List Byte)
  | .ok rsp => some rsp
  | .exc x => some [fc ||| 0x80, x]
  | .noResponse => none
  | .refuse _ => none

theorem State.served_response {s : State} {fc : Byte} {bcast : Bool} {r : Handling} {rsp : List Byte}
    (h : r.1.response? fc = some rsp) : s.served fc bcast r = { s with host := r.2 }.reply bcast rsp := by
  obtain ⟨y, k⟩ := r
  cases y with
  | ok rsp => cases h; exact State.served_ok rfl
  | exc x => cases h; exact State.served_exc rfl
  | noResponse => cases h
  | refuse why => cases h

/-- PDU_SERVE of the PDU an instance has received. -/
theorem exec_pduServe_received {s : State} {inst : U16} {i : Framer} (hi : s.framers[inst.toNat]? = some i)
    (hlen : i.rxPduLen = i.readable.length) (hmax : i.rxPduLen ≤ 253) (bcast : Bool) :
    exec (.pduServe (.rx inst) (BitVec.ofNat 16 i.rxPduLen) bcast) s = .next (s.serve bcast i.readable) := by
  have hn : (BitVec.ofNat 16 i.rxPduLen).toNat = i.rxPduLen := by rw [BitVec.toNat_ofNat]; omega
  exact exec_pduServe_holds (hn.trans_le hmax) (hlen.symm.trans hn.symm) (.inr ⟨i, hi, List.prefix_rfl⟩)

/-! ### The reply -/

/-- The inputs beside a request that is served: an environment event is never held back. -/
theorem filter_whileServing_env (inst : U16) (n : Nat) (e : EnvEvent) :
    [Input.env n e].filter (Input.whileServing inst) = [.env n e] := rfl

section Reply

variable {inst : U16} {serving : List Input} {s s1 s2 : State} {i j : Framer} (hi : s.framers[inst.toNat]? = some i)
variable (h1 : exec (.pduServe (.rx inst) (BitVec.ofNat 16 i.rxPduLen) i.bcast) (s.ret (.flag i.bcast)) = .next s1)
variable (h2 : runInputs (serving.filter (Input.whileServing inst)) s1 = .next s2)
include hi h1 h2

/-- A response of PDU_SERVE goes on to the check for bytes that have arrived. -/
theorem slaveReply_response {rsp : List Byte} (hr : s1.result = .response rsp) :
    slaveReply inst serving s = answerUnlessStale inst rsp s2 := by
  rw [slaveReply_eq hi, h1, Out.andThen_next, h2, Out.andThen_next]
  simp only [hr]

/-- Without one nothing is sent. -/
theorem slaveReply_quiet (hr : Unanswered s1) : slaveReply inst serving s = .next s2 := by
  rw [slaveReply_eq hi, h1, Out.andThen_next, h2, Out.andThen_next]
  split
  · next rsp h => exact absurd h (hr rsp)
  · rfl

/-- Once a byte has arrived, nothing is sent and the byte stays (R192). -/
theorem slaveReply_stale (hj : s2.framers[inst.toNat]? = some j) (hf : j.rxfifo ≠ []) :
    ∃ t, slaveReply inst serving s = .next t ∧ t.framers = s2.framers := by
  by_cases hr : ∃ rsp, s1.result = .response rsp
  · obtain ⟨rsp, hr⟩ := hr
    exact ⟨_, (slaveReply_response hi h1 h2 hr).trans (answerUnlessStale_stale hj hf), rfl⟩
  · exact ⟨s2, slaveReply_quiet hi h1 h2 (not_exists.mp hr), rfl⟩

/-- A broadcast is not answered (R191). -/
theorem slaveReply_broadcast (hb : i.bcast = true) : slaveReply inst serving s = .next s2 := by
  have hserve := h1
  rw [hb] at hserve
  exact slaveReply_quiet hi h1 h2 (Unanswered.pduServe_broadcast _ _ _ s1 hserve)

end Reply

/-- A reply that does not fault has served its request and let the other inputs happen. -/
theorem slaveReply_next {inst : U16} {serving : List Input} {s t : State} {i : Framer}
    (hi : s.framers[inst.toNat]? = some i) (h : slaveReply inst serving s = .next t) :
    ∃ s1 s2, exec (.pduServe (.rx inst) (BitVec.ofNat 16 i.rxPduLen) i.bcast) (s.ret (.flag i.bcast)) = .next s1 ∧
      runInputs (serving.filter (Input.whileServing inst)) s1 = .next s2 := by
  rw [slaveReply_eq hi] at h
  obtain ⟨s1, h1, h⟩ := Out.andThen_eq_next h
  obtain ⟨s2, h2, -⟩ := Out.andThen_eq_next h
  exact ⟨s1, s2, h1, h2⟩

/-- A byte that arrives while the request is served waits for the next receive (R192). -/
theorem slaveReply_byte {inst : U16} {s t : State} {i : Framer} {b : Byte} (hi : s.framers[inst.toNat]? = some i)
    (h : slaveReply inst [.env inst.toNat (.byte b)] s = .next t) :
    t.framers = s.framers.set inst.toNat
      { i with
        rxfifo := i.rxfifo ++ [b]
        evf := (i.evf ||| 0b0010) &&& 0b0011
        tmr1 := .running
        tmr3 := .running } := by
  obtain ⟨s1, s2, h1, h2⟩ := slaveReply_next hi h
  have hframers : s1.framers = s.framers := exec_pduServe_framers (s := s.ret (.flag i.bcast)) h1
  have hi1 : s1.framers[inst.toNat]? = some i := hframers ▸ hi
  have hbyte := h2
  rw [filter_whileServing_env, runInputs, runInput_env_byte hi1] at hbyte
  obtain rfl := Host.Outcome.next.inj hbyte
  obtain ⟨u, hu, hstale⟩ := slaveReply_stale hi h1 h2 (State.setFramer_same hi1) (List.concat_ne_nil _ _)
  rw [Host.Outcome.next.inj (h.symm.trans hu), hstale, hframers]

/-- With nothing happening beside it, a reply that is suppressed leaves the instances as they were. -/
theorem slaveReply_suppressed {inst : U16} {s t : State} {i : Framer} (hi : s.framers[inst.toNat]? = some i)
    (hsup : i.bcast = true ∨ i.rxfifo ≠ []) (h : slaveReply inst [] s = .next t) : t.framers = s.framers := by
  obtain ⟨s1, s2, h1, h2⟩ := slaveReply_next hi h
  have hframers : s1.framers = s.framers := exec_pduServe_framers (s := s.ret (.flag i.bcast)) h1
  obtain rfl : s1 = s2 := Host.Outcome.next.inj h2
  rcases hsup with hb | hf
  · rw [Host.Outcome.next.inj (h.symm.trans (slaveReply_broadcast hi h1 h2 hb)), hframers]
  · obtain ⟨u, hu, hstale⟩ := slaveReply_stale hi h1 h2 (hframers ▸ hi) hf
    rw [Host.Outcome.next.inj (h.symm.trans hu), hstale, hframers]

/-! ### RTU_TX of the response -/

/-- The response buffer holds what was written into it. -/
theorem State.respond_holds (rsp : List Byte) (s : State) : (s.respond rsp).Holds (.host responseBuffer) rsp := by
  intro k hk
  have hin : bufAddr responseBuffer 0 ≤ bufAddr responseBuffer k ∧
      bufAddr responseBuffer k < bufAddr responseBuffer 0 + rsp.length := by simp only [bufAddr]; omega
  have hoff : bufAddr responseBuffer k - bufAddr responseBuffer 0 = k := by simp only [bufAddr]; omega
  rw [State.respond_mem, Memory.read_writes, if_pos hin, hoff]

/-- With no byte waiting, the response of an instance that is up is handed to RTU_TX with unit `SLAVE_ID`. -/
theorem answerUnlessStale_enters {inst : U16} {rsp : List Byte} {s : State} {i : Framer}
    (hi : s.framers[inst.toNat]? = some i) (hf : i.rxfifo = []) (hidle : i.op = .none) (hup : i.down = false)
    (hmin : 1 ≤ rsp.length) (hmax : rsp.length ≤ 253) :
    answerUnlessStale inst rsp s = .next
      (((s.ret (.flag false)).respond rsp).setFramer inst.toNat (i.txEnter s.params i.slaveId rsp)) := by
  have hn : rsp.length = (BitVec.ofNat 16 rsp.length).toNat := toNat_pduLength hmax
  exact (answerUnlessStale_sends hi hf).trans (exec_rtuTx_enters (s := (s.ret (.flag false)).respond rsp) hi hidle hup
    (hn ▸ hmin) (hn ▸ hmax) hn (State.respond_holds rsp _) i.slaveId)

/-! ### The cycle's first part -/

section Cycle

variable {s e t u : State} {inst : U16} {turn : SlaveTurn} {left : List Input} (hs : s.running inst = false)
variable (he : exec (.rtuRx inst 5000) s = .next e)
variable (hw : awaitIdle inst (turn.rxWait.filter (Input.besides inst)) e = (.next t, left))
variable (hr : t.running inst = false) (hl : runInputs left t = .next u)
include hs he hw hr hl

/-- A receive that fails ends the turn (R191 "if s != OK then continue"). -/
theorem slaveCycle_rxFail {n : Nat} {st : Status} (h : t.result = .rxFail n st) :
    slaveCycle inst turn s = .next (u.ret (.rxFail n st)) := by
  refine (if_neg (ne_true_of_eq_false hs)).trans ((blocking_completes he hw hr hl).trans ?_)
  rw [h]; rfl

/-- An `OK` receive is served. -/
theorem slaveCycle_rxOk {n : Nat} {id : Byte} {pdu : List Byte} (h : t.result = .rxOk n id pdu) :
    slaveCycle inst turn s =
      Out.andThen (slaveReply inst turn.serving (u.ret (.rxOk n id pdu))) (runBeside inst turn.txWait) := by
  refine (if_neg (ne_true_of_eq_false hs)).trans ((blocking_completes he hw hr hl).trans ?_)
  rw [h]; rfl

end Cycle

/-! ### A request served with nothing beside it -/

section Served

variable {s : State} {inst : U16} {i : Framer} {fc : Byte} {body : List Byte} (hi : s.framers[inst.toNat]? = some i)
variable (hread : i.readable = fc :: body) (hlen : i.rxPduLen = body.length + 1) (hmax : i.rxPduLen ≤ 253)
include hi hread hlen hmax

theorem exec_pduServe_request :
    exec (.pduServe (.rx inst) (BitVec.ofNat 16 i.rxPduLen) i.bcast) (s.ret (.flag i.bcast)) =
      .next ((s.ret (.flag i.bcast)).serve i.bcast (fc :: body)) := by
  rw [← hread]
  exact exec_pduServe_received (s := s.ret (.flag i.bcast)) hi (by rw [hread, hlen]; rfl) hmax i.bcast

/-- A broadcast read reaches no handler (R145). -/
theorem slaveReply_broadcastRead (hb : i.bcast = true) (hfc : fc ∈ readCodes) :
    slaveReply inst [] s = .next (s.ret .noReply) := by
  have h1 := exec_pduServe_request hi hread hlen hmax
  rw [hb, State.serve_broadcastRead hfc, ← hb] at h1
  exact slaveReply_quiet hi h1 rfl (Unanswered.ret_noReply _)

variable (hb : i.bcast = false)
include hb

/-- A request that is not a broadcast is dispatched (R154). -/
theorem exec_pduServe_dispatches :
    exec (.pduServe (.rx inst) (BitVec.ofNat 16 i.rxPduLen) i.bcast) (s.ret (.flag i.bcast)) =
      .next ((s.ret (.flag i.bcast)).served fc false (dispatch s.params (fc :: body) s.host)) := by
  rw [exec_pduServe_request hi hread hlen hmax, hb, State.serve_dispatches (.inl rfl)]
  rfl

theorem slaveReply_noResponse (h : (dispatch s.params (fc :: body) s.host).1 = .noResponse) :
    slaveReply inst [] s =
      .next { s with host := (dispatch s.params (fc :: body) s.host).2, result := .noReply } := by
  have h1 := exec_pduServe_dispatches hi hread hlen hmax hb
  rw [State.served_noResponse h] at h1
  exact slaveReply_quiet hi h1 rfl nofun

variable (hf : i.rxfifo = []) (hidle : i.op = .none) (hup : i.down = false)
include hf hidle hup

/-- The response is sent, normal or exception. -/
theorem slaveReply_sends {rsp : List Byte}
    (hrsp : (dispatch s.params (fc :: body) s.host).1.response? fc = some rsp)
    (h1 : 1 ≤ rsp.length) (h2 : rsp.length ≤ 253) :
    ∃ t, slaveReply inst [] s = .next t ∧ t.host = (dispatch s.params (fc :: body) s.host).2 ∧
      t.framers = s.framers.set inst.toNat (i.txEnter s.params i.slaveId rsp) := by
  have hserve := exec_pduServe_dispatches hi hread hlen hmax hb
  rw [State.served_response hrsp] at hserve
  refine ⟨_, (slaveReply_response (serving := []) hi hserve rfl rfl).trans
    (answerUnlessStale_enters ?_ hf hidle hup h1 h2), rfl, rfl⟩
  exact hi

end Served

/-- Settles O60: `slaveCycle_rxFail` and `slaveCycle_rxOk` for the receive; then what PDU_SERVE answers and whether a byte has
arrived decide what is sent. -/
theorem slaveCycleSuppressesReplies : Obligations.SlaveCycleSuppressesReplies := by
  unfold Obligations.SlaveCycleSuppressesReplies
  refine ⟨fun s e t u inst turn left hs he hw hr hl => ⟨fun n st => slaveCycle_rxFail hs he hw hr hl,
    fun n id pdu => slaveCycle_rxOk hs he hw hr hl⟩, fun s inst i hi => ?_⟩
  refine ⟨fun serving s1 s2 h1 h2 => ⟨slaveReply_broadcast hi h1 h2, fun j => slaveReply_stale hi h1 h2⟩,
    fun b t => slaveReply_byte hi, fun h t => slaveReply_suppressed hi h, fun fc body hread hlen hmax => ⟨fun hb hfc => ?_, ?_⟩⟩
  · exact ⟨_, slaveReply_broadcastRead hi hread hlen hmax hb hfc, rfl, rfl⟩
  · intro hb hf hidle hup u hu sends
    cases (exec_requestOf fc body s).symm.trans hu
    have hsends {rsp : List Byte} (hrsp : (dispatch s.params (fc :: body) s.host).1.response? fc = some rsp)
        (h1 : 1 ≤ rsp.length) (h2 : rsp.length ≤ 253) : sends rsp := by
      obtain ⟨t, ht, hhost, hframers⟩ := slaveReply_sends hi hread hlen hmax hb hf hidle hup hrsp h1 h2
      rw [Framer.txEnter_eq] at hframers
      exact ⟨t, ht, hhost.trans (State.handled_host _ s).symm, hframers⟩
    refine ⟨fun rsp hok => ?_, fun x hexc => ?_, fun hnone => ?_⟩
    · exact hsends (congrArg _ (State.answer_of_handled hok))
    · exact hsends (congrArg _ (State.answer_of_handled hexc)) (by simp) (by simp)
    · exact ⟨_, slaveReply_noResponse hi hread hlen hmax hb (State.answer_of_handled hnone),
        (State.handled_host _ s).symm, rfl⟩

end Sys2Proof.Machine
end
